-- ==== Sys2Proof/Word.lean ====
section
/-! DEFINITION. The word types of the MRGU: 32-bit words (registers, State Vector words, matrix entries),
64-bit words (command words, shape registers, response data) and 8-bit codes (`10_state.md` rule R20,
`30_encoding.md` rules R85, R86). -/

namespace Sys2Proof

/-- A 32-bit word: a register, a State Vector word, a matrix entry, the IMM field (rules R20, R86). -/
abbrev Word := BitVec 32

/-- A 64-bit word: a command word, a DIM register, F, the DATA of a response (rules R85, R28, R23, R89). -/
abbrev DWord := BitVec 64

/-- An 8-bit code: the OP and SEL fields, STATUS, ESTICKY (rules R86, R29, R30). -/
abbrev Byte := BitVec 8

end Sys2Proof
end

