-- ==== Sys2Proof/Config.lean ====
section
/-! DEFINITION. What is fixed for one MRGU: the two moduli, the jump exponents, and the parameters of
`00_scope.md` rule R7 with the constraints of rule R8. -/

namespace Sys2Proof

/-- The output formats that DTYPES ranges over (rule R7) and that the dtype selector of `30_encoding.md` rule R92 names:
IEEE 754 binary64, binary32, binary16. -/
inductive Dtype where
  | fp64
  | fp32
  | fp16
deriving DecidableEq, Repr

/-- One element of an output buffer, what ToFloat returns: a bit pattern of 64, 32 or 16 bits according to the dtype
(`10_state.md` rule R40, `41_recurrence_step.md` rule R135). -/
inductive Machine.Element where
  | fp64 (bits : BitVec 64)
  | fp32 (bits : BitVec 32)
  | fp16 (bits : BitVec 16)
deriving DecidableEq, Repr

end Sys2Proof

namespace Sys2Proof.Config

/-- M1, the modulus of recurrence 1, fixed by rule R7. -/
def m1 : Nat := 4294967087

/-- M2, the modulus of recurrence 2, fixed by rule R7. -/
def m2 : Nat := 4294944443

/-- JEXP, rule R7: a jump leaps 2^67, 2^72 or 2^134 steps. -/
def jumpExp67 : Nat := 67

/-- JEXP, rule R7. -/
def jumpExp72 : Nat := 72

/-- JEXP, rule R7. -/
def jumpExp134 : Nat := 134

/-- The two settings of the open parameter OB_BYTE_ORDER of rule R7. -/
inductive ByteOrder where
  | little
  | big
deriving DecidableEq, Repr

/-- The parameters of rule R7, the named arguments of the model: every meaning, the decoder and the step that depend on
them are functions of this record (`decodeOf`, `execOf`, `stepOf`, `coreOf`), and `params` is the record of the
defaults. -/
structure Params where
  /-- COEF1[0], multiplies x3. -/
  a11 : Nat
  /-- COEF1[1], multiplies x2. -/
  a12 : Nat
  /-- COEF1[2], multiplies x1. -/
  a13 : Nat
  /-- COEF2[0], multiplies y3. -/
  a21 : Nat
  /-- COEF2[1], multiplies y2. -/
  a22 : Nat
  /-- COEF2[2], multiplies y1. -/
  a23 : Nat
  /-- N_MAX, the largest total element count the guard admits. -/
  nMax : Nat
  /-- LANES_MAX, the number of entries of the lane state buffer. -/
  lanesMax : Nat
  /-- RANK_MAX, the largest number of shape dimensions. -/
  rankMax : Nat
  /-- K_MAX, the largest squaring count of MATPOW2. -/
  kMax : Nat
  /-- OB_BYTE_ORDER: the order in which a platform serialises an output element to bytes; no rule reads it
  (`20_memory.md` rule R62). -/
  obByteOrder : ByteOrder
  /-- DTYPES, the formats of the unit. A dtype that is not among them is illegal (DEDUCED from `30_encoding.md` rule R88
  (d), assumption log entry 8). -/
  dtypes : List Dtype
  /-- ToFloat, the conversion of a raw value below M1 (`41_recurrence_step.md` rule R135). -/
  toFloat : Dtype → Nat → Machine.Element

/-- The constraints (a), (b), (c) of rule R8 that every choice of parameters must meet, with RANK_MAX at the 8
that rule R7 fixes. Constraint (d), on ToFloat, is `Sys2Proof.Machine.ConversionAdmissible`. -/
structure Params.Admissible (p : Params) : Prop where
  a11_lt : p.a11 < m1
  a12_lt : p.a12 < m1
  a13_lt : p.a13 < m1
  a21_lt : p.a21 < m2
  a22_lt : p.a22 < m2
  a23_lt : p.a23 < m2
  a13_ne : p.a13 ≠ 0
  a23_ne : p.a23 ≠ 0
  lanes_pos : 1 ≤ p.lanesMax
  lanes_le : p.lanesMax ≤ 2 ^ 31
  n_pos : 1 ≤ p.nMax
  n_le : p.nMax ≤ 2 ^ 32 - 1
  rank_eq : p.rankMax = 8

end Sys2Proof.Config
end

