-- ==== Sys2Proof/Syntax.lean ====
section
/-! DEFINITION. The 24 commands of `30_encoding.md` rule R90, one constructor of `Instr` each, with their
operands as names rather than field bits, and the names a rejected command word is refused with. -/

namespace Sys2Proof

/-- The registers of `10_state.md` rule R33. -/
inductive Reg where
  | a | b | c | r | f
  | s0 | s1 | s2 | s3 | s4 | s5
  | seedw | nstreams | nsub | lanes | rank
  | dim (k : Fin 8)
  | status | esticky | n | spl
  | id | version
deriving DecidableEq, Repr

/-- The modulus selector of rule R91. -/
inductive Modulus where
  | m1
  | m2
deriving DecidableEq, Repr

/-- The matrix and jump selector of rule R93; `w` is legal for JUMP only. -/
inductive MatSel where
  | i
  | a
  | j67
  | j72
  | j134
  | w
deriving DecidableEq, Repr

/-- The state word index of RDSTATE, rule R95. -/
inductive StateWord where
  | x1 | x2 | x3 | y1 | y2 | y3
deriving DecidableEq, Repr

/-- The commands of rule R90. -/
inductive Instr where
  | nop
  | sreset
  | wrreg (reg : Reg) (value : Word)
  | rdreg (reg : Reg)
  | rdconst (index : Word)
  | wrdims (k : Fin 8) (value : Word)
  | wrdimu (k : Fin 8) (value : Word)
  | wrdimh (k : Fin 8) (value : Word)
  | addmod (m : Modulus)
  | mulmod (m : Modulus)
  | macmod (m : Modulus)
  | step (lane : Word)
  | cvt (dt : Dtype)
  | jump (sel : MatSel) (lane : Word)
  | matld (sel : MatSel)
  | matsqr
  | matpow2 (k : Word)
  | matmul (sel : MatSel)
  | matrd (m : Modulus) (index : Word)
  | seed
  | ldstate (lane : Word)
  | rdstate (word : StateWord) (lane : Word)
  | check
  | generate (dt : Dtype)
deriving DecidableEq, Repr

/-- Why a command word is not legal (rule R88); every one of them is the same illegal command, with status
ERR_ILLEGAL. -/
inductive Illegal where
  /-- OP is not one of the 24 opcodes (R88 a). -/
  | undefinedOpcode
  /-- RSV is not 0 (R88 b). -/
  | reservedField
  /-- SEL is not 0 in a format that does not use it (R88 c). -/
  | unusedSel
  /-- IMM is not 0 in a format that does not use it (R88 c). -/
  | unusedImm
  /-- SEL names no register (R33). -/
  | undefinedRegister
  /-- WRREG to a register that is read-only to it (R251). -/
  | readOnlyRegister
  /-- a dimension index above 7 (R235). -/
  | dimensionIndex
  /-- a modulus selector other than 1 and 2 (R91). -/
  | modulusSelector
  /-- a dtype selector above 2 (R92). -/
  | dtypeSelector
  /-- a matrix or jump selector that the command does not have (R93). -/
  | matrixSelector
  /-- a state word index above 5 (R188). -/
  | stateWordIndex
  /-- a ROM index that is not defined (R61). -/
  | romIndex
  /-- a squaring count above K_MAX (R162). -/
  | squaringCount
  /-- a matrix entry index above 8 (R164). -/
  | entryIndex
deriving DecidableEq, Repr

end Sys2Proof
end

