-- ==== Sys2Proof/Machine/State.lean ====
section
/-! DEFINITION. The state of one MRGU as plain data (`10_state.md` rules R20 to R43), its value after reset (rule
R43), and the ways a step can stop. -/

namespace Sys2Proof.Machine

/-! ## Vectors and matrices -/

/-- A triple of 32-bit words, oldest first (`41_recurrence_step.md` rule R131); also one row of a matrix. -/
structure Triple where
  t1 : Word
  t2 : Word
  t3 : Word
deriving DecidableEq, Repr

/-- A State Vector `(x1,x2,x3,y1,y2,y3)`: the triple of recurrence 1 and the triple of recurrence 2
(`10_state.md` rule R36). -/
structure StateVec where
  x : Triple
  y : Triple
deriving DecidableEq, Repr

/-- A 3×3 matrix of 32-bit words, row by row (`00_scope.md` rule R11). -/
structure Mat3 where
  r0 : Triple
  r1 : Triple
  r2 : Triple
deriving DecidableEq, Repr

/-- I3, the identity matrix (rule R11). -/
def Mat3.identity : Mat3 := ⟨⟨1, 0, 0⟩, ⟨0, 1, 0⟩, ⟨0, 0, 1⟩⟩

/-! ## The lane state buffer and the output buffer -/

/-- The lane state buffer LSB with its valid bits, `10_state.md` rule R36: the pairs of a lane index and the State
Vector of that lane, for the lanes with VALID = 1 and for no other. A lane that is not listed has VALID = 0, and
its words then hold no value (DEDUCED, assumption log entry 5: safe). -/
abbrev Memory := List (Nat × StateVec)

/-- An output buffer that is present (rule R40): the dtype, the dimensions, and the elements by flat index. The
rank is the number of dimensions, the length the number of elements (assumption log entry 6). -/
structure OutBuf where
  dtype : Dtype
  dims : List Nat
  elems : List Element
deriving DecidableEq, Repr

/-! ## Status codes and the port -/

/-- The status codes of `60_exceptions.md` rule R270. -/
inductive Status where
  | ok
  | errCapacity
  | errState
  | errShape
  | errLane
  | errUnseeded
  | errOperand
  | errIllegal
deriving DecidableEq, Repr

/-- The one response of a command, `30_encoding.md` rule R89. -/
structure Response where
  status : Status
  data : DWord
deriving DecidableEq, Repr

/-- What the host may do to an idle unit (`20_memory.md` rule R76): issue a command word, or assert reset. -/
inductive HostAction where
  | command (cw : DWord)
  | reset
deriving DecidableEq, Repr

/-! ## State -/

/-- The whole state of one MRGU, rule R20, and two fields of the model's own for its one input and its one output:
`host` and `response` (DESIGN CHOICE, assumption log entries 2 and 3: unsafe where a claim fixes their values). -/
structure State where
  /-- A, operand register (R21). -/
  a : Word
  /-- B, operand register (R21). -/
  b : Word
  /-- C, addend register (R21). -/
  c : Word
  /-- R, result register (R22). -/
  r : Word
  /-- F, float result register (R23). -/
  f : DWord
  /-- S0, staged x1 (R24). -/
  s0 : Word
  /-- S1, staged x2 (R24). -/
  s1 : Word
  /-- S2, staged x3 (R24). -/
  s2 : Word
  /-- S3, staged y1 (R24). -/
  s3 : Word
  /-- S4, staged y2 (R24). -/
  s4 : Word
  /-- S5, staged y3 (R24). -/
  s5 : Word
  /-- SEEDW, the seed word (R25). -/
  seedw : Word
  /-- NSTREAMS (R25). -/
  nstreams : Word
  /-- NSUB (R25). -/
  nsub : Word
  /-- LANES (R26). -/
  lanes : Word
  /-- RANK (R27). -/
  rank : Word
  /-- DIM0 to DIM7 (R28). -/
  dims : Vector DWord 8
  /-- STATUS (R29). -/
  status : Byte
  /-- ESTICKY (R30). -/
  esticky : Byte
  /-- N (R31). -/
  n : Word
  /-- SPL (R31). -/
  spl : Word
  /-- W1, the working matrix modulo M1 (R35). -/
  w1 : Mat3
  /-- W2, the working matrix modulo M2 (R35). -/
  w2 : Mat3
  /-- LSB with VALID (R36). -/
  lsb : Memory
  /-- OB, absent or present (R40). -/
  ob : Option OutBuf
  /-- The model's own: what the host will do next, in the order of issue. It is the host's, not the unit's (R34,
  R42): no command reads or writes it. -/
  host : List HostAction
  /-- The model's own: the response last delivered to the host (R89), none where no command has responded since
  reset. No command reads it. -/
  response : Option Response
deriving DecidableEq, Repr

/-- The state right after reset, rule R43: every register 0, both working matrices the identity, no lane valid, no
output buffer. The host has issued nothing and received nothing. -/
def State.reset : State where
  a := 0
  b := 0
  c := 0
  r := 0
  f := 0
  s0 := 0
  s1 := 0
  s2 := 0
  s3 := 0
  s4 := 0
  s5 := 0
  seedw := 0
  nstreams := 0
  nsub := 0
  lanes := 0
  rank := 0
  dims := #v[0, 0, 0, 0, 0, 0, 0, 0]
  status := 0
  esticky := 0
  n := 0
  spl := 0
  w1 := .identity
  w2 := .identity
  lsb := []
  ob := none
  host := []
  response := none

/-! ## How a step can stop -/

/-- The faults of a step: there are none. "Nothing in the MRGU is treated as stuck: every command in every state has
exactly one defined outcome" (`93_implementation_defined.md` part 1); a failing command is a next state with a status
code (`60_exceptions.md` rule R276). Safe: no state of the hardware is left out by a fault. -/
inductive Fault where
deriving DecidableEq, Repr

/-- The refusals of a step. -/
inductive Refusal where
  /-- Raised by an arm of `exec` for a command that has no meaning in the model yet; no arm raises it now. Safe: the
  model stops where the hardware goes on. -/
  | notModelled (mnemonic : String)
deriving DecidableEq, Repr

end Sys2Proof.Machine
end

