-- ==== Sys2Proof/Machine/Matrix.lean ====
section
/-! DEFINITION. Modular arithmetic (`40_modular_arithmetic.md` rule R110) and 3×3 matrices over it (`00_scope.md` rule
R11), the one-step matrices and the Jump Matrices (`42_jump_ahead.md` rules R150, R152, R165). All sums and products are
exact and reduced once (rule R112). -/

namespace Sys2Proof.Machine

/-- AddMod, rule R110. -/
def addMod (a b m : Nat) : Nat := (a + b) % m

/-- MulMod, rule R110. -/
def mulMod (a b m : Nat) : Nat := (a * b) % m

/-- MacMod, rule R110. -/
def macMod (a b c m : Nat) : Nat := (a * b + c) % m

/-- One entry of MatVec and of MatMul, rule R11: `(u1·v1 + u2·v2 + u3·v3) mod m`. -/
def dot (u v : Triple) (m : Nat) : Word :=
  BitVec.ofNat 32 ((u.t1.toNat * v.t1.toNat + u.t2.toNat * v.t2.toNat + u.t3.toNat * v.t3.toNat) % m)

/-- MatVec, rule R11. -/
def matVec (x : Mat3) (v : Triple) (m : Nat) : Triple := ⟨dot x.r0 v m, dot x.r1 v m, dot x.r2 v m⟩

/-- The columns of a matrix, as the rows of a matrix. -/
def transpose (x : Mat3) : Mat3 :=
  ⟨⟨x.r0.t1, x.r1.t1, x.r2.t1⟩, ⟨x.r0.t2, x.r1.t2, x.r2.t2⟩, ⟨x.r0.t3, x.r1.t3, x.r2.t3⟩⟩

/-- MatMul, rule R11: entry [i][j] is row i of `x` times column j of `y`. -/
def matMul (x y : Mat3) (m : Nat) : Mat3 :=
  let cols := transpose y
  ⟨⟨dot x.r0 cols.r0 m, dot x.r0 cols.r1 m, dot x.r0 cols.r2 m⟩,
   ⟨dot x.r1 cols.r0 m, dot x.r1 cols.r1 m, dot x.r1 cols.r2 m⟩,
   ⟨dot x.r2 cols.r0 m, dot x.r2 cols.r1 m, dot x.r2 cols.r2 m⟩⟩

/-- Pow2, rule R165: `k` successive replacements of X by MatMul(X, X, m). -/
def matPow2 (m : Nat) : Nat → Mat3 → Mat3
  | 0, x => x
  | k + 1, x => matPow2 m k (matMul x x m)

/-- MatMul of two pairs, each part in its own modulus. -/
def pairMul (x y : Mat3 × Mat3) : Mat3 × Mat3 := (matMul x.1 y.1 Config.m1, matMul x.2 y.2 Config.m2)

/-- Pow2 of a pair, each part in its own modulus. -/
def pairPow2 (k : Nat) (x : Mat3 × Mat3) : Mat3 × Mat3 := (matPow2 Config.m1 k x.1, matPow2 Config.m2 k x.2)

/-- (I3, I3). -/
def identityPair : Mat3 × Mat3 := (.identity, .identity)

/-- A1, the one-step transition matrix of recurrence 1, rule R150. -/
def stepMatrix1 (p : Config.Params) : Mat3 :=
  ⟨⟨0, 1, 0⟩, ⟨0, 0, 1⟩, ⟨BitVec.ofNat 32 p.a13, BitVec.ofNat 32 p.a12, BitVec.ofNat 32 p.a11⟩⟩

/-- A2, the one-step transition matrix of recurrence 2, rule R150. -/
def stepMatrix2 (p : Config.Params) : Mat3 :=
  ⟨⟨0, 1, 0⟩, ⟨0, 0, 1⟩, ⟨BitVec.ofNat 32 p.a23, BitVec.ofNat 32 p.a22, BitVec.ofNat 32 p.a21⟩⟩

/-- (A1, A2). -/
def stepPair (p : Config.Params) : Mat3 × Mat3 := (stepMatrix1 p, stepMatrix2 p)

/-- J_k, rule R152: `(A1^(2^k) mod M1, A2^(2^k) mod M2)`. -/
def jumpPair (p : Config.Params) (k : Nat) : Mat3 × Mat3 := pairPow2 k (stepPair p)

/-- The entry of a row at a column 0, 1 or 2. -/
def Triple.entry (t : Triple) : Nat → Word
  | 0 => t.t1
  | 1 => t.t2
  | _ => t.t3

/-- The row of a matrix at index 0, 1 or 2. -/
def Mat3.row (x : Mat3) : Nat → Triple
  | 0 => x.r0
  | 1 => x.r1
  | _ => x.r2

/-- Entry `3·i + j` is row i, column j (rule R95). -/
def Mat3.entry (x : Mat3) (index : Nat) : Word := (x.row (index / 3)).entry (index % 3)

end Sys2Proof.Machine
end

