-- ==== Sys2Proof/Machine/FloatConv.lean ====
section
/-! DEFINITION. ToFloat, the conversion of a raw combined value to a floating-point bit pattern, in its default form
(`41_recurrence_step.md` rules R136, R137), on exact numbers. A non-negative number is held as `num / den` before
rounding and as `sig / 2^scale` after it. A unit's conversion is the parameter `Sys2Proof.Config.Params.toFloat`. -/

namespace Sys2Proof.Machine

/-- A row of the table of rule R137; `eminAbs` is −emin, and the smallest positive subnormal is
`2^(emin − p + 1)`. -/
structure FloatFormat where
  precision : Nat
  eminAbs : Nat
  bias : Nat
deriving DecidableEq, Repr

/-- The three IEEE 754 binary interchange formats of rule R137. -/
def floatFormat : Dtype → FloatFormat
  | .fp64 => ⟨53, 1022, 1023⟩
  | .fp32 => ⟨24, 126, 127⟩
  | .fp16 => ⟨11, 14, 15⟩

/-- The number `sig / 2^scale`. -/
structure Dyadic where
  sig : Nat
  scale : Nat
deriving DecidableEq, Repr

/-- For `0 < num < den`, the least `t` from the given one on with `1 ≤ (num / den)·2^t`, so that
`2^(−t) ≤ num / den < 2^(−t+1)`; the search ends after `fuel` further values. -/
def leadingShift (num den : Nat) : Nat → Nat → Nat
  | 0, t => t
  | fuel + 1, t => if den ≤ num * 2 ^ t then t else leadingShift num den fuel (t + 1)

/-- The binade of `num / den` in a format: `t` with exponent −t, no less than emin. -/
def binade (fmt : FloatFormat) (num den : Nat) : Nat := leadingShift num den (fmt.eminAbs - 1) 1

/-- The integer nearest to `num / den`, ties to even. -/
def roundHalfEven (num den : Nat) : Nat :=
  let fl := num / den
  let rem := num % den
  if den < 2 * rem ∨ (2 * rem = den ∧ fl % 2 = 1) then fl + 1 else fl

/-- RNE_fmt, rule R136: one rounding of `num / den`, to nearest, ties to even, onto the format's finite values,
subnormals and 0 included. The unit in the last place of exponent −t is `2^(−t−p+1)`. -/
def roundNearestEven (fmt : FloatFormat) (num den : Nat) : Dyadic :=
  let scale := binade fmt num den + fmt.precision - 1
  ⟨roundHalfEven (num * 2 ^ scale) den, scale⟩

/-- The two clamps of rule R136 after rounding: 0 becomes the smallest positive subnormal, 1 the largest value below
1. -/
def clampOpen (fmt : FloatFormat) (u : Dyadic) : Dyadic :=
  if u.sig = 0 then ⟨1, fmt.eminAbs + fmt.precision - 1⟩
  else if u.sig = 2 ^ u.scale then ⟨2 ^ fmt.precision - 1, fmt.precision⟩
  else u

/-- Bits_fmt, rule R137, of a representable number between 0 and 1: sign 0, then the biased exponent, then the trailing
significand. -/
def floatBits (fmt : FloatFormat) (u : Dyadic) : Nat :=
  if 2 ^ u.scale ≤ u.sig * 2 ^ fmt.eminAbs then
    let t := binade fmt u.sig (2 ^ u.scale)
    (fmt.bias - t) * 2 ^ (fmt.precision - 1)
      + (u.sig * 2 ^ (t + fmt.precision - 1) / 2 ^ u.scale - 2 ^ (fmt.precision - 1))
  else u.sig * 2 ^ (fmt.eminAbs + fmt.precision - 1) / 2 ^ u.scale

/-- The default ToFloat of rule R136 as an unsigned integer: z = 0 is taken as 1, and the exact quotient by M1 is
rounded once. -/
def toFloatBits (fmt : FloatFormat) (z : Nat) : Nat :=
  floatBits fmt (clampOpen fmt (roundNearestEven fmt (if z = 0 then 1 else z) Config.m1))

/-- ToFloat, rule R136: the element of the dtype's width. -/
def toFloat (dt : Dtype) (z : Nat) : Element :=
  let bits := toFloatBits (floatFormat dt) z
  match dt with
  | .fp64 => .fp64 (BitVec.ofNat 64 bits)
  | .fp32 => .fp32 (BitVec.ofNat 32 bits)
  | .fp16 => .fp16 (BitVec.ofNat 16 bits)

/-- An element zero-extended to 64 bits (rule R138). -/
def zextElement : Element → DWord
  | .fp64 b => b
  | .fp32 b => b.setWidth 64
  | .fp16 b => b.setWidth 64

end Sys2Proof.Machine
end

