-- ==== Sys2Proof/Machine/Defaults.lean ====
section
/-! DEFINITION. The default of every parameter, the default column of `00_scope.md` rule R7. -/

namespace Sys2Proof.Config

/-- The parameters of the unit that `Sys2Proof.core` is. PRESUMED for the six coefficients (the spec itself takes them
from general knowledge, `93_implementation_defined.md` G1), DESIGN CHOICE for taking the defaults of the others;
assumption log entries 1 and 8: unsafe for a unit with other parameters. -/
def params : Params where
  a11 := 0
  a12 := 1403580
  a13 := 4294156359
  a21 := 527612
  a22 := 0
  a23 := 4293573854
  nMax := 2147483647
  lanesMax := 65536
  rankMax := 8
  kMax := 255
  obByteOrder := .little
  dtypes := [.fp64, .fp32, .fp16]
  toFloat := Machine.toFloat

end Sys2Proof.Config
end

