-- ==== Sys2Proof/Decode.lean ====
section
/-! DEFINITION. From a command word to a command or a rejection by name, and back (`30_encoding.md` rules R85 to
R98). Every one of the 2^64 words decodes to one of the 24 commands with its fields or to an `Illegal` reason
(rule R97). -/

namespace Sys2Proof

/-! ## Fields, rule R86 -/

/-- CW[63:56]. -/
def opField (w : DWord) : Byte := w.extractLsb' 56 8

/-- CW[55:48]. -/
def selField (w : DWord) : Byte := w.extractLsb' 48 8

/-- CW[47:32], reserved. -/
def rsvField (w : DWord) : BitVec 16 := w.extractLsb' 32 16

/-- CW[31:0]. -/
def immField (w : DWord) : Word := w.extractLsb' 0 32

/-- The command word with the given OP, SEL and IMM, and RSV = 0. -/
def assemble (op sel : Byte) (imm : Word) : DWord := op ++ sel ++ 0#16 ++ imm

/-! ## Operand numbers, rules R33, R61, R91 to R95 -/

/-- The number of a register, rule R33. -/
def Reg.number : Reg → Byte
  | .a => 0x00 | .b => 0x01 | .c => 0x02 | .r => 0x03 | .f => 0x04
  | .s0 => 0x08 | .s1 => 0x09 | .s2 => 0x0A | .s3 => 0x0B | .s4 => 0x0C | .s5 => 0x0D
  | .seedw => 0x10 | .nstreams => 0x11 | .nsub => 0x12 | .lanes => 0x13 | .rank => 0x14
  | .dim k => 0x20 + BitVec.ofNat 8 k.val
  | .status => 0x30 | .esticky => 0x31 | .n => 0x32 | .spl => 0x33
  | .id => 0x3E | .version => 0x3F

/-- The register a number names, rule R33; a number not in its table names none. -/
def Reg.ofNumber (sel : Byte) : Option Reg :=
  match sel.toNat with
  | 0x00 => some .a | 0x01 => some .b | 0x02 => some .c | 0x03 => some .r | 0x04 => some .f
  | 0x08 => some .s0 | 0x09 => some .s1 | 0x0A => some .s2
  | 0x0B => some .s3 | 0x0C => some .s4 | 0x0D => some .s5
  | 0x10 => some .seedw | 0x11 => some .nstreams | 0x12 => some .nsub
  | 0x13 => some .lanes | 0x14 => some .rank
  | 0x20 => some (.dim 0) | 0x21 => some (.dim 1) | 0x22 => some (.dim 2) | 0x23 => some (.dim 3)
  | 0x24 => some (.dim 4) | 0x25 => some (.dim 5) | 0x26 => some (.dim 6) | 0x27 => some (.dim 7)
  | 0x30 => some .status | 0x31 => some .esticky | 0x32 => some .n | 0x33 => some .spl
  | 0x3E => some .id | 0x3F => some .version
  | _ => none

/-- The registers with access RW in rule R33: those WRREG may write. -/
def Reg.writable : Reg → Bool
  | .a | .b | .c => true
  | .s0 | .s1 | .s2 | .s3 | .s4 | .s5 => true
  | .seedw | .nstreams | .nsub | .lanes | .rank => true
  | .r | .f | .dim _ | .status | .esticky | .n | .spl | .id | .version => false

/-- The defined ROM indices, rule R61: 0..5, 8..13, 16..87. -/
def romIndexDefined (i : Nat) : Bool := i ≤ 5 || (8 ≤ i && i ≤ 13) || (16 ≤ i && i ≤ 87)

/-- Rule R91. -/
def Modulus.sel : Modulus → Byte
  | .m1 => 1
  | .m2 => 2

/-- Rule R91: every other value, 0 included, is illegal. -/
def Modulus.ofSel (sel : Byte) : Option Modulus :=
  match sel.toNat with
  | 1 => some .m1
  | 2 => some .m2
  | _ => none

/-- Rule R92. -/
def Dtype.sel : Dtype → Byte
  | .fp64 => 0
  | .fp32 => 1
  | .fp16 => 2

/-- Rule R92. -/
def Dtype.ofSel (sel : Byte) : Option Dtype :=
  match sel.toNat with
  | 0 => some .fp64
  | 1 => some .fp32
  | 2 => some .fp16
  | _ => none

/-- The dtype a selector names, where it is one of the unit's DTYPES (rules R88 (d), R92; assumption log entry 8). -/
def supportedDtype (p : Config.Params) (sel : Byte) : Option Dtype :=
  match Dtype.ofSel sel with
  | some dt => if p.dtypes.contains dt then some dt else none
  | none => none

/-- Rule R93. -/
def MatSel.sel : MatSel → Byte
  | .i => 0
  | .a => 1
  | .j67 => 2
  | .j72 => 3
  | .j134 => 4
  | .w => 5

/-- The jump selector of rule R93: 0 to 5. -/
def MatSel.ofJumpSel (sel : Byte) : Option MatSel :=
  match sel.toNat with
  | 0 => some .i
  | 1 => some .a
  | 2 => some .j67
  | 3 => some .j72
  | 4 => some .j134
  | 5 => some .w
  | _ => none

/-- The matrix selector of MATLD and MATMUL, rule R93: 0 to 4. -/
def MatSel.ofMatrixSel (sel : Byte) : Option MatSel :=
  match sel.toNat with
  | 0 => some .i
  | 1 => some .a
  | 2 => some .j67
  | 3 => some .j72
  | 4 => some .j134
  | _ => none

/-- Rule R95. -/
def StateWord.sel : StateWord → Byte
  | .x1 => 0
  | .x2 => 1
  | .x3 => 2
  | .y1 => 3
  | .y2 => 4
  | .y3 => 5

/-- Rule R95. -/
def StateWord.ofSel (sel : Byte) : Option StateWord :=
  match sel.toNat with
  | 0 => some .x1
  | 1 => some .x2
  | 2 => some .x3
  | 3 => some .y1
  | 4 => some .y2
  | 5 => some .y3
  | _ => none

/-- The dimension index of WRDIMS, WRDIMU and WRDIMH: 0 to 7. -/
def dimensionOfSel (sel : Byte) : Option (Fin 8) :=
  if h : sel.toNat < 8 then some ⟨sel.toNat, h⟩ else none

/-! ## Formats, rule R87 -/

/-- Format Z: SEL and IMM must be 0. -/
def formatZ (sel : Byte) (imm : Word) (i : Instr) : Except Illegal Instr :=
  if sel ≠ 0 then .error .unusedSel
  else if imm ≠ 0 then .error .unusedImm
  else .ok i

/-- Format S: IMM must be 0. -/
def formatS (imm : Word) (i : Except Illegal Instr) : Except Illegal Instr :=
  if imm ≠ 0 then .error .unusedImm else i

/-- Format I: SEL must be 0. -/
def formatI (sel : Byte) (i : Except Illegal Instr) : Except Illegal Instr :=
  if sel ≠ 0 then .error .unusedSel else i

/-- A field that names an operand, or the reason it names none. -/
def operand {α : Type} (o : Option α) (why : Illegal) (k : α → Instr) : Except Illegal Instr :=
  match o with
  | some a => .ok (k a)
  | none => .error why

/-- WRREG's register: defined and with access RW (rule R251). -/
def decodeWrreg (sel : Byte) (imm : Word) : Except Illegal Instr :=
  match Reg.ofNumber sel with
  | none => .error .undefinedRegister
  | some reg => if reg.writable then .ok (.wrreg reg imm) else .error .readOnlyRegister

/-! ## Decoding, rules R88, R90, R97 -/

/-- The opcode map of rule R90, with the field conditions of rule R88 (c) and (d), in a unit with parameters `p`. -/
def decodeFieldsOf (p : Config.Params) (op sel : Byte) (imm : Word) : Except Illegal Instr :=
  match op.toNat with
  | 0x00 => formatZ sel imm .nop
  | 0x01 => formatZ sel imm .sreset
  | 0x02 => decodeWrreg sel imm
  | 0x03 => formatS imm (operand (Reg.ofNumber sel) .undefinedRegister .rdreg)
  | 0x04 => formatI sel (if romIndexDefined imm.toNat then .ok (.rdconst imm) else .error .romIndex)
  | 0x08 => operand (dimensionOfSel sel) .dimensionIndex (.wrdims · imm)
  | 0x09 => operand (dimensionOfSel sel) .dimensionIndex (.wrdimu · imm)
  | 0x0A => operand (dimensionOfSel sel) .dimensionIndex (.wrdimh · imm)
  | 0x10 => formatS imm (operand (Modulus.ofSel sel) .modulusSelector .addmod)
  | 0x11 => formatS imm (operand (Modulus.ofSel sel) .modulusSelector .mulmod)
  | 0x12 => formatS imm (operand (Modulus.ofSel sel) .modulusSelector .macmod)
  | 0x20 => formatI sel (.ok (.step imm))
  | 0x21 => formatS imm (operand (supportedDtype p sel) .dtypeSelector .cvt)
  | 0x28 => operand (MatSel.ofJumpSel sel) .matrixSelector (.jump · imm)
  | 0x30 => formatS imm (operand (MatSel.ofMatrixSel sel) .matrixSelector .matld)
  | 0x31 => formatZ sel imm .matsqr
  | 0x32 => formatI sel
      (if imm.toNat ≤ p.kMax then .ok (.matpow2 imm) else .error .squaringCount)
  | 0x33 => formatS imm (operand (MatSel.ofMatrixSel sel) .matrixSelector .matmul)
  | 0x34 => if imm.toNat ≤ 8 then operand (Modulus.ofSel sel) .modulusSelector (.matrd · imm)
      else .error .entryIndex
  | 0x40 => formatZ sel imm .seed
  | 0x41 => formatI sel (.ok (.ldstate imm))
  | 0x42 => operand (StateWord.ofSel sel) .stateWordIndex (.rdstate · imm)
  | 0x50 => formatZ sel imm .check
  | 0x51 => formatS imm (operand (supportedDtype p sel) .dtypeSelector .generate)
  | _ => .error .undefinedOpcode

/-- A command word's command in a unit with parameters `p`, or why it is not legal (rule R88). Legality is decided from
the word and the parameters alone. -/
def decodeOf (p : Config.Params) (w : DWord) : Except Illegal Instr :=
  if rsvField w ≠ 0 then .error .reservedField
  else decodeFieldsOf p (opField w) (selField w) (immField w)

/-- A command word's command in the unit with the default parameters. -/
def decode (w : DWord) : Except Illegal Instr := decodeOf Config.params w

/-! ## Encoding -/

/-- The OP value of a command, rule R90. -/
def Instr.opcode : Instr → Byte
  | .nop => 0x00
  | .sreset => 0x01
  | .wrreg _ _ => 0x02
  | .rdreg _ => 0x03
  | .rdconst _ => 0x04
  | .wrdims _ _ => 0x08
  | .wrdimu _ _ => 0x09
  | .wrdimh _ _ => 0x0A
  | .addmod _ => 0x10
  | .mulmod _ => 0x11
  | .macmod _ => 0x12
  | .step _ => 0x20
  | .cvt _ => 0x21
  | .jump _ _ => 0x28
  | .matld _ => 0x30
  | .matsqr => 0x31
  | .matpow2 _ => 0x32
  | .matmul _ => 0x33
  | .matrd _ _ => 0x34
  | .seed => 0x40
  | .ldstate _ => 0x41
  | .rdstate _ _ => 0x42
  | .check => 0x50
  | .generate _ => 0x51

/-- The SEL field of a command: 0 where its format does not use it (rule R87). -/
def Instr.selBits : Instr → Byte
  | .wrreg reg _ => reg.number
  | .rdreg reg => reg.number
  | .wrdims k _ => BitVec.ofNat 8 k.val
  | .wrdimu k _ => BitVec.ofNat 8 k.val
  | .wrdimh k _ => BitVec.ofNat 8 k.val
  | .addmod m => m.sel
  | .mulmod m => m.sel
  | .macmod m => m.sel
  | .cvt dt => dt.sel
  | .jump sel _ => sel.sel
  | .matld sel => sel.sel
  | .matmul sel => sel.sel
  | .matrd m _ => m.sel
  | .rdstate w _ => w.sel
  | .generate dt => dt.sel
  | .nop | .sreset | .rdconst _ | .step _ | .matsqr | .matpow2 _ | .seed | .ldstate _ | .check => 0

/-- The IMM field of a command: 0 where its format does not use it (rule R87). -/
def Instr.immBits : Instr → Word
  | .wrreg _ v => v
  | .rdconst i => i
  | .wrdims _ v => v
  | .wrdimu _ v => v
  | .wrdimh _ v => v
  | .step l => l
  | .jump _ l => l
  | .matpow2 k => k
  | .matrd _ i => i
  | .ldstate l => l
  | .rdstate _ l => l
  | .nop | .sreset | .rdreg _ | .addmod _ | .mulmod _ | .macmod _ | .cvt _ | .matld _ | .matsqr
  | .matmul _ | .seed | .check | .generate _ => 0

/-- The command word of a command (rules R86, R90). -/
def encode (i : Instr) : DWord := assemble i.opcode i.selBits i.immBits

/-! ## The opcode table's numbering -/

/-- The command this decoder reads from a command of `nbits` bits whose bits are `w`, every bit above `nbits` 0.
A command is one 64-bit word presented whole (rule R85), so `w` is the command word itself; a value that does not
fit 64 bits is no command. -/
def decodeTableWord (nbits w : Nat) : Option Instr :=
  let cw := w % 2 ^ nbits
  if cw < 2 ^ 64 then
    match decode (BitVec.ofNat 64 cw) with
    | .ok i => some i
    | .error _ => none
  else none

end Sys2Proof
end

