-- ==== Sys2Proof/Machine/Flags.lean ====
section
/-! DEFINITION. The status codes and the two status registers: STATUS and ESTICKY are the only flags of the MRGU
(`10_state.md` rules R29, R30, R41). -/

namespace Sys2Proof.Machine

/-- The 8-bit code of a status, `60_exceptions.md` rule R270. -/
def Status.code : Status → Byte
  | .ok => 0
  | .errCapacity => 1
  | .errState => 2
  | .errShape => 3
  | .errLane => 4
  | .errUnseeded => 5
  | .errOperand => 6
  | .errIllegal => 7

/-- ESTICKY after a command that completes with the given status: a failing one sets the bit of its code, and no
command clears a bit (rule R30). -/
def estickyAfter (old : Byte) : Status → Byte
  | .ok => old
  | e => old ||| (1#8 <<< e.code.toNat)

end Sys2Proof.Machine
end

