-- ==== Sys2Proof/Machine/Ops.lean ====
section
/-! DEFINITION. The named operations over the state: completing a command, failing a command (the MRGU's exception
entry), reset, the registers, and the lane state buffer. -/

namespace Sys2Proof.Machine

/-! ## Completing, failing, resetting -/

/-- `respond(v)` of `00_scope.md` rule R10: the command completes with status OK and response data v. -/
def respond (data : DWord) (s : State) : State :=
  { s with status := Status.ok.code, response := some ⟨.ok, data⟩ }

/-- `raise E` of rule R10, the error entry of `60_exceptions.md` rule R276: STATUS takes the code, its bit of ESTICKY
is set, the response is (E, 0), and nothing else changes. There is no handler, no saved state and no return: the unit
is idle and takes the next command (rule R279). -/
def raise (e : Status) (s : State) : State :=
  { s with status := e.code, esticky := estickyAfter s.esticky e, response := some ⟨e, 0⟩ }

/-- Reset as an action of the host, `70_reset_and_hazards.md` rule R300: every piece of state takes its value of
`10_state.md` rule R43. What the host does next is the host's and stays. -/
def hostReset (s : State) : State := { State.reset with host := s.host }

/-- The next action of the host and the state once it is taken from the port; none while the host issues nothing. -/
def takeAction (s : State) : Option (HostAction × State) :=
  match s.host with
  | [] => none
  | act :: rest => some (act, { s with host := rest })

/-- The unit takes the host's next action from the port: a word that `dec` decodes is run by `run`, a word it rejects
fails with ERR_ILLEGAL (`30_encoding.md` rules R88, R101), reset resets (`70_reset_and_hazards.md` rule R300), and while
the host issues nothing the unit is idle and nothing changes (`60_exceptions.md` rules R278, R290). -/
def runHostAction (dec : DWord → Except Illegal Instr) (run : Instr → State → Host.Outcome State Fault Refusal)
    (s : State) : Host.Outcome State Fault Refusal :=
  match takeAction s with
  | none => .next s
  | some (.reset, s') => .next (hostReset s')
  | some (.command cw, s') =>
    match dec cw with
    | .ok i => run i s'
    | .error _ => .next (raise .errIllegal s')

/-! ## Registers -/

/-- An 8-bit code zero-extended to 64 bits. -/
def zextByte (v : Byte) : DWord := v.setWidth 64

/-- A 32-bit word zero-extended to 64 bits. -/
def zextWord (v : Word) : DWord := v.setWidth 64

/-- The value of ID, `10_state.md` rule R32. -/
def idValue : Word := 0x4D524755

/-- The value of VERSION, rule R32. -/
def versionValue : Word := 0x00000007

/-- `x[NAME]` zero-extended to 64 bits: what RDREG returns (rules R33, R252). -/
def readReg (reg : Reg) (s : State) : DWord :=
  match reg with
  | .a => zextWord s.a
  | .b => zextWord s.b
  | .c => zextWord s.c
  | .r => zextWord s.r
  | .f => s.f
  | .s0 => zextWord s.s0
  | .s1 => zextWord s.s1
  | .s2 => zextWord s.s2
  | .s3 => zextWord s.s3
  | .s4 => zextWord s.s4
  | .s5 => zextWord s.s5
  | .seedw => zextWord s.seedw
  | .nstreams => zextWord s.nstreams
  | .nsub => zextWord s.nsub
  | .lanes => zextWord s.lanes
  | .rank => zextWord s.rank
  | .dim k => s.dims[k]
  | .status => zextByte s.status
  | .esticky => zextByte s.esticky
  | .n => zextWord s.n
  | .spl => zextWord s.spl
  | .id => zextWord idValue
  | .version => zextWord versionValue

/-- `x[NAME] <- v` by WRREG. A register that is read-only to WRREG keeps its value. -/
def writeReg (reg : Reg) (v : Word) (s : State) : State :=
  match reg with
  | .a => { s with a := v }
  | .b => { s with b := v }
  | .c => { s with c := v }
  | .s0 => { s with s0 := v }
  | .s1 => { s with s1 := v }
  | .s2 => { s with s2 := v }
  | .s3 => { s with s3 := v }
  | .s4 => { s with s4 := v }
  | .s5 => { s with s5 := v }
  | .seedw => { s with seedw := v }
  | .nstreams => { s with nstreams := v }
  | .nsub => { s with nsub := v }
  | .lanes => { s with lanes := v }
  | .rank => { s with rank := v }
  | .r | .f | .dim _ | .status | .esticky | .n | .spl | .id | .version => s

/-- `x[R] <- v`. -/
def setR (v : Word) (s : State) : State := { s with r := v }

/-- `x[F] <- v`. -/
def setF (v : DWord) (s : State) : State := { s with f := v }

/-- `DIMk <- v`. -/
def setDim (k : Fin 8) (v : DWord) (s : State) : State := { s with dims := s.dims.set k v }

/-- `x[N] <- n ; x[SPL] <- spl`. -/
def setCounts (n spl : Word) (s : State) : State := { s with n := n, spl := spl }

/-- `(W1, W2) <- w`, both together (rule R35). -/
def setW (w : Mat3 × Mat3) (s : State) : State := { s with w1 := w.1, w2 := w.2 }

/-- LSB and VALID replaced. -/
def setLsb (mem : Memory) (s : State) : State := { s with lsb := mem }

/-- OB replaced as a whole by a new buffer (rule R40). -/
def setOb (ob : OutBuf) (s : State) : State := { s with ob := some ob }

/-! ## The lane state buffer -/

/-- The canonical form of a lane state buffer of `lanes` lanes: the lanes rise strictly, and every lane is one of those
that exist. With VALID = 1 exactly for the listed lanes, equal buffers are equal lists. -/
abbrev Memory.wfBelow (lanes : Nat) (mem : Memory) : Prop :=
  mem.Pairwise (fun p q => p.1 < q.1) ∧ ∀ p ∈ mem, p.1 < lanes

/-- The canonical form of a lane state buffer of LANES_MAX lanes. -/
abbrev Memory.wf (mem : Memory) : Prop := mem.wfBelow Config.params.lanesMax

/-- `LSB[l]`, or none where VALID[l] = 0 (rules R10, R36). -/
def Memory.read : Memory → Nat → Option StateVec
  | [], _ => none
  | (k, v) :: rest, l => if k = l then some v else Memory.read rest l

/-- `LSB[l] <- v ; VALID[l] <- 1`. -/
def Memory.write : Memory → Nat → StateVec → Memory
  | [], l, v => [(l, v)]
  | (k, u) :: rest, l, v =>
    if l < k then (l, v) :: (k, u) :: rest
    else if l = k then (l, v) :: rest
    else (k, u) :: Memory.write rest l v

/-- The `count` State Vectors of lanes `l`, `l + 1`, …, or none where one of those lanes has VALID = 0. -/
def Memory.readFrom (mem : Memory) : Nat → Nat → Option (List StateVec)
  | _, 0 => some []
  | l, count + 1 =>
    match mem.read l with
    | none => none
    | some v =>
      match Memory.readFrom mem (l + 1) count with
      | none => none
      | some vs => some (v :: vs)

/-- The entries that put the given State Vectors into lanes `l`, `l + 1`, …. -/
def Memory.entriesFrom : Nat → List StateVec → Memory
  | _, [] => []
  | l, v :: vs => (l, v) :: Memory.entriesFrom (l + 1) vs

/-- `LSB[l] <- vs[l] ; VALID[l] <- 1` for every lane `l` below the length of `vs`; the other lanes keep their State
Vectors and valid bits. -/
def Memory.fill (mem : Memory) (vs : List StateVec) : Memory :=
  Memory.entriesFrom 0 vs ++ mem.filter (fun p => decide (vs.length ≤ p.1))

end Sys2Proof.Machine
end

