-- ==== Sys2Proof/Machine/Operands.lean ====
section
/-! DEFINITION. What the operands of a command stand for: the modulus a selector selects (rule R91), the matrix pair a
selector selects (rule R93), the words of a State Vector (rule R95), the widened dimension values (rules R235 to R237),
and the lane a lane operand names (rule R94). -/

namespace Sys2Proof.Machine

/-- The modulus a selector selects, `30_encoding.md` rule R91. -/
def modulusValue : Modulus → Nat
  | .m1 => Config.m1
  | .m2 => Config.m2

/-- The matrix pair a selector selects, rule R93; W is the pair of working matrices. -/
def selectedPair (p : Config.Params) (sel : MatSel) (s : State) : Mat3 × Mat3 :=
  match sel with
  | .i => identityPair
  | .a => stepPair p
  | .j67 => jumpPair p Config.jumpExp67
  | .j72 => jumpPair p Config.jumpExp72
  | .j134 => jumpPair p Config.jumpExp134
  | .w => (s.w1, s.w2)

/-- The word of a State Vector that a state word index names, rule R95. -/
def stateWord (v : StateVec) : StateWord → Word
  | .x1 => v.x.t1
  | .x2 => v.x.t2
  | .x3 => v.x.t3
  | .y1 => v.y.t1
  | .y2 => v.y.t2
  | .y3 => v.y.t3

/-- The candidate State Vector in the staging registers S0 to S5, `10_state.md` rule R24. -/
def stagedVector (s : State) : StateVec := ⟨⟨s.s0, s.s1, s.s2⟩, ⟨s.s3, s.s4, s.s5⟩⟩

/-- `sext_64(IMM)`, `45_capacity_guard.md` rule R235. -/
def sextWord (v : Word) : DWord := v.signExtend 64

/-- `{IMM, DIMk[31:0]}`, rule R237. -/
def withUpperHalf (v : Word) (old : DWord) : DWord := v ++ old.extractLsb' 0 32

/-- The State Vector of the lane a command reads: ERR_LANE for a lane index of LANES_MAX or more, then ERR_UNSEEDED for
a lane with VALID = 0 (`60_exceptions.md` rule R275). -/
def readLane (p : Config.Params) (lane : Word) (s : State) : Except Status StateVec :=
  if p.lanesMax ≤ lane.toNat then .error .errLane
  else
    match s.lsb.read lane.toNat with
    | none => .error .errUnseeded
    | some v => .ok v

/-- `LSB[l] <- v ; VALID[l] <- 1` for a lane operand. -/
def writeLane (lane : Word) (v : StateVec) (s : State) : State := setLsb (s.lsb.write lane.toNat v) s

end Sys2Proof.Machine
end

