-- ==== Sys2Proof/Machine/JumpAhead.lean ====
section
/-! DEFINITION. Jump-ahead and the matrix power engine: JUMP, MATLD, MATSQR, MATPOW2, MATMUL, MATRD
(`42_jump_ahead.md` rules R153, R156, R160 to R164). -/

namespace Sys2Proof.Machine

/-- Jump, rule R153: one matrix-vector product per triple. -/
def jumpVector (w : Mat3 × Mat3) (v : StateVec) : StateVec :=
  ⟨matVec w.1 v.x Config.m1, matVec w.2 v.y Config.m2⟩

/-- JUMP, rule R156. -/
def execJumpOf (p : Config.Params) (sel : MatSel) (lane : Word) (s : State) : Host.Outcome State Fault Refusal :=
  match readLane p lane s with
  | .error e => .next (raise e s)
  | .ok v => .next (respond 0 (writeLane lane (jumpVector (selectedPair p sel s) v) s))

/-- JUMP in the unit with the default parameters. -/
def execJump (sel : MatSel) (lane : Word) (s : State) : Host.Outcome State Fault Refusal :=
  execJumpOf Config.params sel lane s

/-- MATLD, rule R160; selector W is illegal. -/
def execMatldOf (p : Config.Params) (sel : MatSel) (s : State) : Host.Outcome State Fault Refusal :=
  if sel = .w then .next (raise .errIllegal s)
  else .next (respond 0 (setW (selectedPair p sel s) s))

/-- MATLD in the unit with the default parameters. -/
def execMatld (sel : MatSel) (s : State) : Host.Outcome State Fault Refusal := execMatldOf Config.params sel s

/-- MATSQR, rule R161. -/
def execMatsqr (s : State) : Host.Outcome State Fault Refusal :=
  .next (respond 0 (setW (pairMul (s.w1, s.w2) (s.w1, s.w2)) s))

/-- MATPOW2, rule R162; a count above K_MAX is illegal. -/
def execMatpow2Of (p : Config.Params) (k : Word) (s : State) : Host.Outcome State Fault Refusal :=
  if p.kMax < k.toNat then .next (raise .errIllegal s)
  else .next (respond 0 (setW (pairPow2 k.toNat (s.w1, s.w2)) s))

/-- MATPOW2 in the unit with the default parameters. -/
def execMatpow2 (k : Word) (s : State) : Host.Outcome State Fault Refusal := execMatpow2Of Config.params k s

/-- MATMUL, rule R163: the constant on the left; selector W is illegal. -/
def execMatmulOf (p : Config.Params) (sel : MatSel) (s : State) : Host.Outcome State Fault Refusal :=
  if sel = .w then .next (raise .errIllegal s)
  else .next (respond 0 (setW (pairMul (selectedPair p sel s) (s.w1, s.w2)) s))

/-- MATMUL in the unit with the default parameters. -/
def execMatmul (sel : MatSel) (s : State) : Host.Outcome State Fault Refusal := execMatmulOf Config.params sel s

/-- The working matrix a modulus selector selects, rule R164. -/
def workingMatrix (m : Modulus) (s : State) : Mat3 :=
  match m with
  | .m1 => s.w1
  | .m2 => s.w2

/-- MATRD, rule R164; an entry index above 8 is illegal. -/
def execMatrd (m : Modulus) (index : Word) (s : State) : Host.Outcome State Fault Refusal :=
  if 8 < index.toNat then .next (raise .errIllegal s)
  else .next (respond (zextWord ((workingMatrix m s).entry index.toNat)) s)

end Sys2Proof.Machine
end

