-- ==== Sys2Proof/Machine/Layout.lean ====
section
/-! DEFINITION. Stream and substream layout and the access to one lane: SEED, LDSTATE, RDSTATE
(`43_stream_layout.md` rules R180 to R188). -/

namespace Sys2Proof.Machine

/-- A triple of words below m that is not all zero. -/
def validTriple (t : Triple) (m : Nat) : Bool :=
  decide (t.t1.toNat < m) && decide (t.t2.toNat < m) && decide (t.t3.toNat < m)
    && !(decide (t.t1 = 0) && decide (t.t2 = 0) && decide (t.t3 = 0))

/-- ValidState, rule R186, the State Vector invariant of `10_state.md` rule R37. -/
def validState (v : StateVec) : Bool := validTriple v.x Config.m1 && validTriple v.y Config.m2

/-- root_0, rule R180: the seed word replicated six times. -/
def seedRoot (s : Word) : StateVec := ⟨⟨s, s, s⟩, ⟨s, s, s⟩⟩

/-- The substreams of one stream in order, each the jump by `j72` of the one before (rule R180). -/
def substreams (j72 : Mat3 × Mat3) : Nat → StateVec → List StateVec
  | 0, _ => []
  | count + 1, v => v :: substreams j72 count (jumpVector j72 v)

/-- The State Vectors of all streams, stream by stream, each root the jump by `j134` of the one before (rules R180,
R183): lane `i·NSUB + j` is substream j of stream i. -/
def streams (j134 j72 : Mat3 × Mat3) (nsub : Nat) : Nat → StateVec → List StateVec
  | 0, _ => []
  | count + 1, root => substreams j72 nsub root ++ streams j134 j72 nsub count (jumpVector j134 root)

/-- The checks of SEED in the order of rule R182. -/
def seedCheck (p : Config.Params) (s : State) : Option Status :=
  if !validState (seedRoot s.seedw) then some .errState
  else if s.nstreams.toNat < 1 ∨ s.nsub.toNat < 1 ∨ p.lanesMax < s.nstreams.toNat * s.nsub.toNat then
    some .errLane
  else none

/-- SEED, rule R181. -/
def execSeedOf (p : Config.Params) (s : State) : Host.Outcome State Fault Refusal :=
  match seedCheck p s with
  | some e => .next (raise e s)
  | none =>
    let lanes := streams (jumpPair p Config.jumpExp134) (jumpPair p Config.jumpExp72)
      s.nsub.toNat s.nstreams.toNat (seedRoot s.seedw)
    .next (respond (BitVec.ofNat 64 (s.nstreams.toNat * s.nsub.toNat)) (setLsb (s.lsb.fill lanes) s))

/-- SEED in the unit with the default parameters. -/
def execSeed (s : State) : Host.Outcome State Fault Refusal := execSeedOf Config.params s

/-- LDSTATE, rule R185. -/
def execLdstateOf (p : Config.Params) (lane : Word) (s : State) : Host.Outcome State Fault Refusal :=
  if p.lanesMax ≤ lane.toNat then .next (raise .errLane s)
  else if !validState (stagedVector s) then .next (raise .errState s)
  else .next (respond 0 (writeLane lane (stagedVector s) s))

/-- LDSTATE in the unit with the default parameters. -/
def execLdstate (lane : Word) (s : State) : Host.Outcome State Fault Refusal := execLdstateOf Config.params lane s

/-- RDSTATE, rule R188. -/
def execRdstateOf (p : Config.Params) (word : StateWord) (lane : Word) (s : State) : Host.Outcome State Fault Refusal :=
  match readLane p lane s with
  | .error e => .next (raise e s)
  | .ok v => .next (respond (zextWord (stateWord v word)) s)

/-- RDSTATE in the unit with the default parameters. -/
def execRdstate (word : StateWord) (lane : Word) (s : State) : Host.Outcome State Fault Refusal :=
  execRdstateOf Config.params word lane s

end Sys2Proof.Machine
end

