-- ==== Sys2Proof/Machine/Modular.lean ====
section
/-! DEFINITION. ADDMOD, MULMOD and MACMOD (`40_modular_arithmetic.md` rules R111, R113, R114, R115). -/

namespace Sys2Proof.Machine

/-- The end of a modular command: R takes the result and the response returns it. -/
def finishModular (value : Nat) (s : State) : State :=
  respond (zextWord (BitVec.ofNat 32 value)) (setR (BitVec.ofNat 32 value) s)

/-- ADDMOD, rule R113. -/
def execAddmod (m : Modulus) (s : State) : Host.Outcome State Fault Refusal :=
  if modulusValue m ≤ s.a.toNat ∨ modulusValue m ≤ s.b.toNat then .next (raise .errOperand s)
  else .next (finishModular (addMod s.a.toNat s.b.toNat (modulusValue m)) s)

/-- MULMOD, rule R114. -/
def execMulmod (m : Modulus) (s : State) : Host.Outcome State Fault Refusal :=
  if modulusValue m ≤ s.a.toNat ∨ modulusValue m ≤ s.b.toNat then .next (raise .errOperand s)
  else .next (finishModular (mulMod s.a.toNat s.b.toNat (modulusValue m)) s)

/-- MACMOD, rule R115. -/
def execMacmod (m : Modulus) (s : State) : Host.Outcome State Fault Refusal :=
  if modulusValue m ≤ s.a.toNat ∨ modulusValue m ≤ s.b.toNat ∨ modulusValue m ≤ s.c.toNat then
    .next (raise .errOperand s)
  else .next (finishModular (macMod s.a.toNat s.b.toNat s.c.toNat (modulusValue m)) s)

end Sys2Proof.Machine
end

