-- ==== Sys2Proof/Machine/Guard.lean ====
section
/-! DEFINITION. The capacity and overflow guard: Guard, CHECK, WRDIMS, WRDIMU, WRDIMH (`45_capacity_guard.md` rules
R227 to R237). -/

namespace Sys2Proof.Machine

/-- The dimensions the guard reads: `signed(DIM0)` to `signed(DIM(RANK−1))` (rule R227). -/
def shapeDims (s : State) : List Int := (s.dims.toList.take s.rank.toNat).map BitVec.toInt

/-- The running product of the dimensions in index order, or none as soon as it exceeds N_MAX (rules R227, R230). Every
dimension is positive where the guard calls it. -/
def runningProduct (nMax : Nat) : Nat → List Int → Option Nat
  | acc, [] => some acc
  | acc, d :: ds =>
    let acc' := acc * d.toNat
    if nMax < acc' then none else runningProduct nMax acc' ds

/-- `ceil(n / l)`, `00_scope.md` rule R9. -/
def ceilDiv (n l : Nat) : Nat := (n + l - 1) / l

/-- Guard, rule R227: `(n, spl)`, or the status of the first check that fails. -/
def capacityGuard (p : Config.Params) (s : State) : Except Status (Nat × Nat) :=
  if s.rank.toNat < 1 ∨ p.rankMax < s.rank.toNat then .error .errShape
  else if (shapeDims s).any (fun d => decide (d ≤ 0)) then .error .errShape
  else if s.lanes.toNat < 1 ∨ p.lanesMax < s.lanes.toNat then .error .errLane
  else
    match runningProduct p.nMax 1 (shapeDims s) with
    | none => .error .errCapacity
    | some n => .ok (n, ceilDiv n s.lanes.toNat)

/-- `{spl[31:0], n[31:0]}`, the response data of CHECK and GENERATE (rules R232, R201). -/
def countsData (n spl : Word) : DWord := spl ++ n

/-- CHECK, rule R232. -/
def execCheckOf (p : Config.Params) (s : State) : Host.Outcome State Fault Refusal :=
  match capacityGuard p s with
  | .error e => .next (raise e s)
  | .ok (n, spl) =>
    let n32 : Word := BitVec.ofNat 32 n
    let spl32 : Word := BitVec.ofNat 32 spl
    .next (respond (countsData n32 spl32) (setCounts n32 spl32 s))

/-- CHECK in the unit with the default parameters. -/
def execCheck (s : State) : Host.Outcome State Fault Refusal := execCheckOf Config.params s

/-- WRDIMS, rule R235. -/
def execWrdims (k : Fin 8) (v : Word) (s : State) : Host.Outcome State Fault Refusal :=
  .next (respond 0 (setDim k (sextWord v) s))

/-- WRDIMU, rule R236. -/
def execWrdimu (k : Fin 8) (v : Word) (s : State) : Host.Outcome State Fault Refusal :=
  .next (respond 0 (setDim k (zextWord v) s))

/-- WRDIMH, rule R237. -/
def execWrdimh (k : Fin 8) (v : Word) (s : State) : Host.Outcome State Fault Refusal :=
  .next (respond 0 (setDim k (withUpperHalf v s.dims[k]) s))

end Sys2Proof.Machine
end

