-- ==== Sys2Proof/Machine/Recurrence.lean ====
section
/-! DEFINITION. The recurrence step and the conversion of its raw value: STEP and CVT (`41_recurrence_step.md` rules
R130 to R138). -/

namespace Sys2Proof.Machine

/-- The new third word of the x triple, rule R130. -/
def nextX (p : Config.Params) (x : Triple) : Nat :=
  (p.a11 * x.t3.toNat + p.a12 * x.t2.toNat + p.a13 * x.t1.toNat) % Config.m1

/-- The new third word of the y triple, rule R130. -/
def nextY (p : Config.Params) (y : Triple) : Nat :=
  (p.a21 * y.t3.toNat + p.a22 * y.t2.toNat + p.a23 * y.t1.toNat) % Config.m2

/-- The raw combined value of two new terms, rule R132: `(nx − ny) mod M1` with the mathematical mod of rule R9. -/
def combine (nx ny : Nat) : Nat := (((nx : Int) - (ny : Int)) % (Config.m1 : Int)).toNat

/-- Step, rule R130: the shifted State Vector and the raw combined value. -/
def stepVector (p : Config.Params) (v : StateVec) : StateVec × Word :=
  let nx := nextX p v.x
  let ny := nextY p v.y
  (⟨⟨v.x.t2, v.x.t3, BitVec.ofNat 32 nx⟩, ⟨v.y.t2, v.y.t3, BitVec.ofNat 32 ny⟩⟩,
   BitVec.ofNat 32 (combine nx ny))

/-- STEP, rule R133. -/
def execStepOf (p : Config.Params) (lane : Word) (s : State) : Host.Outcome State Fault Refusal :=
  match readLane p lane s with
  | .error e => .next (raise e s)
  | .ok v =>
    let stepped := stepVector p v
    .next (respond (zextWord stepped.2) (setR stepped.2 (writeLane lane stepped.1 s)))

/-- STEP in the unit with the default parameters. -/
def execStep (lane : Word) (s : State) : Host.Outcome State Fault Refusal := execStepOf Config.params lane s

/-- CVT, rule R138; a dtype that is not one of DTYPES is illegal (rule R92). -/
def execCvtOf (p : Config.Params) (dt : Dtype) (s : State) : Host.Outcome State Fault Refusal :=
  if p.dtypes.contains dt then
    let value := zextElement (p.toFloat dt s.r.toNat)
    .next (respond value (setF value s))
  else .next (raise .errIllegal s)

/-- CVT in the unit with the default parameters. -/
def execCvt (dt : Dtype) (s : State) : Host.Outcome State Fault Refusal := execCvtOf Config.params dt s

end Sys2Proof.Machine
end

