-- ==== Sys2Proof/Machine/Sampling.lean ====
section
/-! DEFINITION. The uniform sampling kernel: GENERATE (`44_uniform_sampling.md` rules R200 to R212). The lanes run in
lockstep, one of the orders rule R207 allows: round k makes step k of every lane, and its values are the elements
`k·L` to `k·L + L − 1` (rule R203; DEDUCED, assumption log entry 7: safe). -/

namespace Sys2Proof.Machine

/-- One step of every lane: the new State Vectors and the values of the round, in lane order. -/
def sampleRound (p : Config.Params) (dt : Dtype) (vs : List StateVec) : List StateVec × List Element :=
  (vs.map (fun v => (stepVector p v).1), vs.map (fun v => p.toFloat dt (stepVector p v).2.toNat))

/-- The given number of rounds: the State Vectors after the last, and the values of all rounds in order. -/
def sampleRounds (p : Config.Params) (dt : Dtype) : Nat → List StateVec → List StateVec × List Element
  | 0, vs => (vs, [])
  | rounds + 1, vs =>
    let one := sampleRound p dt vs
    let rest := sampleRounds p dt rounds one.1
    (rest.1, one.2 ++ rest.2)

/-- GENERATE, rule R201. The values whose index is n or more are computed and dropped (rule R205); a dtype that is
not one of DTYPES is illegal (rule R92). -/
def execGenerateOf (p : Config.Params) (dt : Dtype) (s : State) : Host.Outcome State Fault Refusal :=
  if p.dtypes.contains dt then
    match capacityGuard p s with
    | .error e => .next (raise e s)
    | .ok (n, spl) =>
      match s.lsb.readFrom 0 s.lanes.toNat with
      | none => .next (raise .errUnseeded s)
      | some vs =>
        let out := sampleRounds p dt spl vs
        let n32 : Word := BitVec.ofNat 32 n
        let spl32 : Word := BitVec.ofNat 32 spl
        let ob : OutBuf := ⟨dt, (shapeDims s).map Int.toNat, out.2.take n⟩
        .next (respond (countsData n32 spl32)
          (setCounts n32 spl32 (setOb ob (setLsb (s.lsb.fill out.1) s))))
  else .next (raise .errIllegal s)

/-- GENERATE in the unit with the default parameters. -/
def execGenerate (dt : Dtype) (s : State) : Host.Outcome State Fault Refusal := execGenerateOf Config.params dt s

end Sys2Proof.Machine
end

