-- ==== Sys2Proof/Machine/Rom.lean ====
section
/-! DEFINITION. The constant store, address space ROM (`20_memory.md` rule R61, `10_state.md` rule R39): contents that
no command writes. -/

namespace Sys2Proof.Machine

/-- Matrix table t of rule R61: 0 the one-step matrices, 1, 2, 3 the Jump Matrices of 2^67, 2^72, 2^134. -/
def romTable (p : Config.Params) : Nat → Mat3 × Mat3
  | 0 => stepPair p
  | 1 => jumpPair p Config.jumpExp67
  | 2 => jumpPair p Config.jumpExp72
  | _ => jumpPair p Config.jumpExp134

/-- The matrix word at offset `16 + 18·t + 9·p + 3·i + j`, rule R61. -/
def romMatrixWord (p : Config.Params) (offset : Nat) : Word :=
  let table := romTable p (offset / 18)
  let part := offset % 18
  if part < 9 then table.1.entry part else table.2.entry (part - 9)

/-- `MemRead(ROM:i, 32)`, rule R61, or none where the index is not defined. -/
def romWord (p : Config.Params) (i : Nat) : Option Word :=
  match i with
  | 0 => some (BitVec.ofNat 32 Config.m1)
  | 1 => some (BitVec.ofNat 32 Config.m2)
  | 2 => some (BitVec.ofNat 32 p.nMax)
  | 3 => some (BitVec.ofNat 32 p.lanesMax)
  | 4 => some (BitVec.ofNat 32 p.rankMax)
  | 5 => some (BitVec.ofNat 32 p.kMax)
  | 8 => some (BitVec.ofNat 32 p.a11)
  | 9 => some (BitVec.ofNat 32 p.a12)
  | 10 => some (BitVec.ofNat 32 p.a13)
  | 11 => some (BitVec.ofNat 32 p.a21)
  | 12 => some (BitVec.ofNat 32 p.a22)
  | 13 => some (BitVec.ofNat 32 p.a23)
  | i => if 16 ≤ i ∧ i ≤ 87 then some (romMatrixWord p (i - 16)) else none

end Sys2Proof.Machine
end

