-- ==== Sys2Proof/Machine/SystemAccess.lean ====
section
/-! DEFINITION. Register access and housekeeping: NOP, SRESET, WRREG, RDREG, RDCONST (`46_system_access.md` rules R250
to R254). -/

namespace Sys2Proof.Machine

/-- NOP, rule R250. -/
def execNop (s : State) : Host.Outcome State Fault Refusal := .next (respond 0 s)

/-- SRESET, rule R254: the effect of reset, then the response. -/
def execSreset (s : State) : Host.Outcome State Fault Refusal := .next (respond 0 (hostReset s))

/-- WRREG, rule R251; a register that is read-only to WRREG is illegal. -/
def execWrreg (reg : Reg) (v : Word) (s : State) : Host.Outcome State Fault Refusal :=
  if reg.writable then .next (respond 0 (writeReg reg v s)) else .next (raise .errIllegal s)

/-- RDREG, rule R252: the value is read before this command updates STATUS. -/
def execRdreg (reg : Reg) (s : State) : Host.Outcome State Fault Refusal :=
  .next (respond (readReg reg s) s)

/-- RDCONST, rule R253; an index that is not defined is illegal. -/
def execRdconstOf (p : Config.Params) (index : Word) (s : State) : Host.Outcome State Fault Refusal :=
  match romWord p index.toNat with
  | some w => .next (respond (zextWord w) s)
  | none => .next (raise .errIllegal s)

/-- RDCONST in the unit with the default parameters. -/
def execRdconst (index : Word) (s : State) : Host.Outcome State Fault Refusal := execRdconstOf Config.params index s

end Sys2Proof.Machine
end

