-- ==== Sys2Proof/Machine/Dispatch.lean ====
section
/-! DEFINITION. The meaning of each command, one arm per constructor of `Instr`. -/

namespace Sys2Proof.Machine

def exec (i : Instr) (s : State) : Host.Outcome State Fault Refusal :=
  match i with
  | .nop => Sys2Proof.Machine.execNop s
  | .sreset => Sys2Proof.Machine.execSreset s
  | .wrreg reg value => Sys2Proof.Machine.execWrreg reg value s
  | .rdreg reg => Sys2Proof.Machine.execRdreg reg s
  | .rdconst index => Sys2Proof.Machine.execRdconst index s
  | .wrdims k value => Sys2Proof.Machine.execWrdims k value s
  | .wrdimu k value => Sys2Proof.Machine.execWrdimu k value s
  | .wrdimh k value => Sys2Proof.Machine.execWrdimh k value s
  | .addmod m => Sys2Proof.Machine.execAddmod m s
  | .mulmod m => Sys2Proof.Machine.execMulmod m s
  | .macmod m => Sys2Proof.Machine.execMacmod m s
  | .step lane => Sys2Proof.Machine.execStep lane s
  | .cvt dt => Sys2Proof.Machine.execCvt dt s
  | .jump sel lane => Sys2Proof.Machine.execJump sel lane s
  | .matld sel => Sys2Proof.Machine.execMatld sel s
  | .matsqr => Sys2Proof.Machine.execMatsqr s
  | .matpow2 k => Sys2Proof.Machine.execMatpow2 k s
  | .matmul sel => Sys2Proof.Machine.execMatmul sel s
  | .matrd m index => Sys2Proof.Machine.execMatrd m index s
  | .seed => Sys2Proof.Machine.execSeed s
  | .ldstate lane => Sys2Proof.Machine.execLdstate lane s
  | .rdstate word lane => Sys2Proof.Machine.execRdstate word lane s
  | .check => Sys2Proof.Machine.execCheck s
  | .generate dt => Sys2Proof.Machine.execGenerate dt s

end Sys2Proof.Machine
end

