-- ==== Sys2Proof/Machine/Step.lean ====
section
/-! DEFINITION. One step of the machine: one action of the host (`20_memory.md` rules R72, R76). -/

namespace Sys2Proof.Machine

/-- One step of the unit with the default parameters: the host's next action. -/
def step (s : State) : Host.Outcome State Fault Refusal := runHostAction decode exec s

/-- `s` with the command of `nbits` bits whose bits are `w`, every bit above `nbits` 0, as the next action of the host.
The unit fetches nothing: the port is where the next command comes from (`10_state.md` rule R34), and what the host had
yet to do follows after it. -/
def State.withFetchWord (s : State) (nbits w : Nat) : State :=
  { s with host := .command (BitVec.ofNat 64 (w % 2 ^ nbits)) :: s.host }

end Sys2Proof.Machine
end

