-- ==== Sys2Proof/Machine/Unit.lean ====
section
/-! DEFINITION. The machine as a function of the parameters of `00_scope.md` rule R7: the commands, the step and the core
of a unit built with any record of them. `exec`, `step` and `Sys2Proof.core` are those of the default record. -/

namespace Sys2Proof.Machine

/-- The meaning of each command in a unit with parameters `p`. A command that reads no parameter is the same in every
unit. -/
def execOf (p : Config.Params) (i : Instr) (s : State) : Host.Outcome State Fault Refusal :=
  match i with
  | .nop => execNop s
  | .sreset => execSreset s
  | .wrreg reg value => execWrreg reg value s
  | .rdreg reg => execRdreg reg s
  | .rdconst index => execRdconstOf p index s
  | .wrdims k value => execWrdims k value s
  | .wrdimu k value => execWrdimu k value s
  | .wrdimh k value => execWrdimh k value s
  | .addmod m => execAddmod m s
  | .mulmod m => execMulmod m s
  | .macmod m => execMacmod m s
  | .step lane => execStepOf p lane s
  | .cvt dt => execCvtOf p dt s
  | .jump sel lane => execJumpOf p sel lane s
  | .matld sel => execMatldOf p sel s
  | .matsqr => execMatsqr s
  | .matpow2 k => execMatpow2Of p k s
  | .matmul sel => execMatmulOf p sel s
  | .matrd m index => execMatrd m index s
  | .seed => execSeedOf p s
  | .ldstate lane => execLdstateOf p lane s
  | .rdstate word lane => execRdstateOf p word lane s
  | .check => execCheckOf p s
  | .generate dt => execGenerateOf p dt s

/-- One step of a unit with parameters `p`. -/
def stepOf (p : Config.Params) (s : State) : Host.Outcome State Fault Refusal :=
  runHostAction (decodeOf p) (execOf p) s

/-- The machine with parameters `p`, as the host's interface sees it. -/
def coreOf (p : Config.Params) : Host.Core :=
  { State := State, Fault := Fault, Refusal := Refusal, step := stepOf p, reset := State.reset }

end Sys2Proof.Machine
end

