-- ==== Sys2Proof/WellFormed.lean ====
section
/-! DEFINITION. Which terms of `Instr` are commands: the operand conditions of `30_encoding.md` rule R88 (d) that
the operand types do not already say. -/

namespace Sys2Proof

/-- The operand conditions of a command in a unit with parameters `p`: WRREG names a register with access RW (R251),
RDCONST a defined ROM index (R253), MATLD and MATMUL a matrix other than W (R160, R163), MATPOW2 a count of at most K_MAX (R162), MATRD
an entry index of at most 8 (R164), CVT and GENERATE one of DTYPES (R92). -/
def Instr.wellFormedOf (p : Config.Params) : Instr → Bool
  | .wrreg reg _ => reg.writable
  | .rdconst i => romIndexDefined i.toNat
  | .matld sel => sel != .w
  | .matmul sel => sel != .w
  | .matpow2 k => k.toNat ≤ p.kMax
  | .matrd _ i => i.toNat ≤ 8
  | .cvt dt => p.dtypes.contains dt
  | .generate dt => p.dtypes.contains dt
  | .nop | .sreset | .rdreg _ | .wrdims _ _ | .wrdimu _ _ | .wrdimh _ _ | .addmod _ | .mulmod _
  | .macmod _ | .step _ | .jump _ _ | .matsqr | .seed | .ldstate _ | .rdstate _ _ | .check => true

/-- The operand conditions of a command in the unit with the default parameters. -/
def Instr.wellFormed (i : Instr) : Bool := i.wellFormedOf Config.params

end Sys2Proof
end

