-- ==== Sys2Proof/Safety.lean ====
section
/-! DEFINITION. What the claims about the machine are stated in: the invariants of the state, the powers of the
one-step matrices, the sequence of one lane, the number a bit pattern stands for, the opcode table with its masks, the
pseudocode of GENERATE over any schedule of its lanes, and runs of several commands. -/

namespace Sys2Proof.Machine

/-! ## Powers and sequences -/

/-- `X^e` modulo m, `00_scope.md` rule R11: `X^0 = I3`. -/
def matPow (m : Nat) (x : Mat3) : Nat → Mat3
  | 0 => .identity
  | e + 1 => matMul x (matPow m x e) m

/-- The pair `(A1^e mod M1, A2^e mod M2)` of `42_jump_ahead.md` rule R151. -/
def stepPower (p : Config.Params) (e : Nat) : Mat3 × Mat3 :=
  (matPow Config.m1 (stepMatrix1 p) e, matPow Config.m2 (stepMatrix2 p) e)

/-- The State Vector after one Recurrence Step. -/
def stepState (p : Config.Params) (v : StateVec) : StateVec := (stepVector p v).1

/-- The State Vector after `k` Recurrence Steps (`41_recurrence_step.md` rule R140: s_k). -/
def stepMany (p : Config.Params) (k : Nat) (v : StateVec) : StateVec := (stepState p)^[k] v

/-- The raw value of step `k`, counted from 0 (rule R140: z_k). -/
def rawValue (p : Config.Params) (k : Nat) (v : StateVec) : Word := (stepVector p (stepMany p k v)).2

/-- The number of steps a selector leaps, `30_encoding.md` rule R93, where `e` is the exponent of W. -/
def leap (e : Nat) : MatSel → Nat
  | .i => 0
  | .a => 1
  | .j67 => 2 ^ 67
  | .j72 => 2 ^ 72
  | .j134 => 2 ^ 134
  | .w => e

/-! ## Invariants -/

/-- The dtype of an element. -/
def elementDtype : Element → Dtype
  | .fp64 _ => .fp64
  | .fp32 _ => .fp32
  | .fp16 _ => .fp16

/-- A well-formed output buffer of a unit with parameters `p`, `10_state.md` rule R40: a rank of 1 to 8, positive
dimensions, as many elements as their product, each of the buffer's dtype. -/
structure OutBufOkOf (p : Config.Params) (ob : OutBuf) : Prop where
  rank_pos : 1 ≤ ob.dims.length
  rank_le : ob.dims.length ≤ p.rankMax
  dims_pos : ∀ d ∈ ob.dims, 1 ≤ d
  length_eq : ob.elems.length = ob.dims.prod
  length_le : ob.elems.length ≤ p.nMax
  dtype_eq : ∀ e ∈ ob.elems, elementDtype e = ob.dtype

/-- The invariants the spec gives the state of a unit with parameters `p` between commands. -/
structure StateOkOf (p : Config.Params) (s : State) : Prop where
  /-- R < M1 (rule R22). -/
  r_lt : s.r.toNat < Config.m1
  /-- Codes 8 to 255 are never produced (rule R270). -/
  status_lt : s.status.toNat < 8
  /-- Bit 0 of ESTICKY is always 0 (rule R30). -/
  esticky_bit0 : s.esticky.getLsbD 0 = false
  /-- The lane state buffer is in its canonical form, within LANES_MAX lanes (rule R36). -/
  lsb_wf : s.lsb.wfBelow p.lanesMax
  /-- The State Vector invariant (rule R37). -/
  lanes_valid : ∀ q ∈ s.lsb, validState q.2 = true
  /-- W1 and W2 are one power of A1 and A2 (rules R35, R167). -/
  w_power : ∃ e, (s.w1, s.w2) = stepPower p e
  /-- SPL is at most N, and N at most N_MAX (rule R231). -/
  counts_le : s.spl.toNat ≤ s.n.toNat ∧ s.n.toNat ≤ p.nMax
  /-- An output buffer that is present is well-formed (rule R40). -/
  ob_ok : ∀ ob, s.ob = some ob → OutBufOkOf p ob

/-- The invariants in the unit with the default parameters. -/
abbrev StateOk (s : State) : Prop := StateOkOf Config.params s

/-! ## The number a bit pattern stands for -/

/-- The width of the exponent field, `41_recurrence_step.md` rule R137. -/
def exponentBits : Dtype → Nat
  | .fp64 => 11
  | .fp32 => 8
  | .fp16 => 5

/-- The exponent field of a bit pattern. -/
def exponentField (dt : Dtype) (bits : Nat) : Nat :=
  bits / 2 ^ ((floatFormat dt).precision - 1) % 2 ^ exponentBits dt

/-- The trailing significand of a bit pattern. -/
def fractionField (dt : Dtype) (bits : Nat) : Nat := bits % 2 ^ ((floatFormat dt).precision - 1)

/-- The sign bit of a bit pattern. -/
def signField (dt : Dtype) (bits : Nat) : Nat :=
  bits / 2 ^ ((floatFormat dt).precision - 1 + exponentBits dt)

/-- A bit pattern that is neither infinite nor NaN. -/
def finitePattern (dt : Dtype) (bits : Nat) : Prop := exponentField dt bits ≠ 2 ^ exponentBits dt - 1

/-- The number a finite bit pattern stands for in an IEEE 754 binary interchange format (rule R137). -/
def patternValue (dt : Dtype) (bits : Nat) : ℚ :=
  let fmt := floatFormat dt
  let magnitude : ℚ :=
    if exponentField dt bits = 0 then
      (fractionField dt bits : ℚ) / 2 ^ (fmt.eminAbs + fmt.precision - 1)
    else
      ((2 ^ (fmt.precision - 1) + fractionField dt bits : ℕ) : ℚ) * 2 ^ exponentField dt bits
        / 2 ^ (fmt.bias + fmt.precision - 1)
  if signField dt bits = 0 then magnitude else -magnitude

/-- The bit pattern of an element as an unsigned integer. -/
def elementBits (e : Element) : Nat := (zextElement e).toNat

/-- The number an element stands for. -/
def elementValue (e : Element) : ℚ := patternValue (elementDtype e) (elementBits e)

/-- An element that is a finite number strictly between 0 and 1 (property P2 of rule R135). -/
def inOpenInterval (e : Element) : Prop :=
  finitePattern (elementDtype e) (elementBits e) ∧ 0 < elementValue e ∧ elementValue e < 1

/-- A conversion that a unit may have, constraint (d) of `00_scope.md` rule R8: properties P2, P3 and P4 of
`41_recurrence_step.md` rule R135 for each of the unit's formats. P1, that it depends on the dtype and z alone, is the type
of the parameter. -/
structure ConversionAdmissible (p : Config.Params) : Prop where
  /-- The result is a pattern of the format asked for. -/
  dtype_eq : ∀ dt ∈ p.dtypes, ∀ z, z < Config.m1 → elementDtype (p.toFloat dt z) = dt
  /-- P2: finite and strictly between 0 and 1. -/
  open_interval : ∀ dt ∈ p.dtypes, ∀ z, z < Config.m1 → inOpenInterval (p.toFloat dt z)
  /-- P3: monotone from z = 1 on. -/
  monotone : ∀ dt ∈ p.dtypes, ∀ z z', 1 ≤ z → z ≤ z' → z' < Config.m1 →
    elementValue (p.toFloat dt z) ≤ elementValue (p.toFloat dt z')
  /-- P4: for FP64 no finite number of the format is nearer to max(z, 1) / M1. -/
  fp64_nearest : .fp64 ∈ p.dtypes → ∀ z, z < Config.m1 → ∀ bits, bits < 2 ^ 64 → finitePattern .fp64 bits →
    |elementValue (p.toFloat .fp64 z) - (max z 1 : ℕ) / Config.m1|
      ≤ |patternValue .fp64 bits - (max z 1 : ℕ) / Config.m1|

/-! ## The opcode table -/

/-- A row of the table of `30_encoding.md` rule R90: match, mask, and the allowed values of SEL and IMM. -/
structure OpcodeRow where
  pattern : DWord
  mask : DWord
  allowed : Nat → Nat → Bool

/-- The numbers of the registers with access RW (`10_state.md` rule R33). -/
def writableNumbers : List Nat :=
  [0x00, 0x01, 0x02, 0x08, 0x09, 0x0A, 0x0B, 0x0C, 0x0D, 0x10, 0x11, 0x12, 0x13, 0x14]

/-- The numbers of the registers that RDREG can read (rule R33). -/
def readableNumbers : List Nat :=
  writableNumbers ++ [0x03, 0x04, 0x20, 0x21, 0x22, 0x23, 0x24, 0x25, 0x26, 0x27, 0x30, 0x31, 0x32, 0x33, 0x3E, 0x3F]

/-- The table of rule R90, row by row in its order. -/
def opcodeRows : List OpcodeRow :=
  [⟨0x0000000000000000, 0xFFFFFFFFFFFFFFFF, fun _ _ => true⟩,
   ⟨0x0100000000000000, 0xFFFFFFFFFFFFFFFF, fun _ _ => true⟩,
   ⟨0x0200000000000000, 0xFF00FFFF00000000, fun sel _ => writableNumbers.contains sel⟩,
   ⟨0x0300000000000000, 0xFF00FFFFFFFFFFFF, fun sel _ => readableNumbers.contains sel⟩,
   ⟨0x0400000000000000, 0xFFFFFFFF00000000,
     fun _ imm => imm ≤ 5 || (8 ≤ imm && imm ≤ 13) || (16 ≤ imm && imm ≤ 87)⟩,
   ⟨0x0800000000000000, 0xFF00FFFF00000000, fun sel _ => sel ≤ 7⟩,
   ⟨0x0900000000000000, 0xFF00FFFF00000000, fun sel _ => sel ≤ 7⟩,
   ⟨0x0A00000000000000, 0xFF00FFFF00000000, fun sel _ => sel ≤ 7⟩,
   ⟨0x1000000000000000, 0xFF00FFFFFFFFFFFF, fun sel _ => sel == 1 || sel == 2⟩,
   ⟨0x1100000000000000, 0xFF00FFFFFFFFFFFF, fun sel _ => sel == 1 || sel == 2⟩,
   ⟨0x1200000000000000, 0xFF00FFFFFFFFFFFF, fun sel _ => sel == 1 || sel == 2⟩,
   ⟨0x2000000000000000, 0xFFFFFFFF00000000, fun _ _ => true⟩,
   ⟨0x2100000000000000, 0xFF00FFFFFFFFFFFF, fun sel _ => sel ≤ 2⟩,
   ⟨0x2800000000000000, 0xFF00FFFF00000000, fun sel _ => sel ≤ 5⟩,
   ⟨0x3000000000000000, 0xFF00FFFFFFFFFFFF, fun sel _ => sel ≤ 4⟩,
   ⟨0x3100000000000000, 0xFFFFFFFFFFFFFFFF, fun _ _ => true⟩,
   ⟨0x3200000000000000, 0xFFFFFFFF00000000, fun _ imm => imm ≤ Config.params.kMax⟩,
   ⟨0x3300000000000000, 0xFF00FFFFFFFFFFFF, fun sel _ => sel ≤ 4⟩,
   ⟨0x3400000000000000, 0xFF00FFFF00000000, fun sel imm => (sel == 1 || sel == 2) && imm ≤ 8⟩,
   ⟨0x4000000000000000, 0xFFFFFFFFFFFFFFFF, fun _ _ => true⟩,
   ⟨0x4100000000000000, 0xFFFFFFFF00000000, fun _ _ => true⟩,
   ⟨0x4200000000000000, 0xFF00FFFF00000000, fun sel _ => sel ≤ 5⟩,
   ⟨0x5000000000000000, 0xFFFFFFFFFFFFFFFF, fun _ _ => true⟩,
   ⟨0x5100000000000000, 0xFF00FFFFFFFFFFFF, fun sel _ => sel ≤ 2⟩]

/-- A word that a row selects, with an allowed value in every field the row uses (rules R88, R90). -/
def OpcodeRow.admits (row : OpcodeRow) (w : DWord) : Prop :=
  w &&& row.mask = row.pattern ∧ row.allowed (w.toNat / 2 ^ 48 % 2 ^ 8) (w.toNat % 2 ^ 32) = true

/-- A legal command word, from the table alone. -/
def legalWord (w : DWord) : Prop := ∃ row ∈ opcodeRows, row.admits w

/-! ## GENERATE over any schedule -/

/-- `count` steps of lane `l` from step `k` on, as the inner loop of `44_uniform_sampling.md` rule R201 makes them: a
value whose index `k·L + l` is below n is written to the buffer, another is dropped. -/
def scatterSteps (p : Config.Params) (dt : Dtype) (lanes n l : Nat) :
    Nat → Nat → StateVec → List (Option Element) → StateVec × List (Option Element)
  | 0, _, v, buf => (v, buf)
  | count + 1, k, v, buf =>
    let value := p.toFloat dt (stepVector p v).2.toNat
    let e := k * lanes + l
    scatterSteps p dt lanes n l count (k + 1) (stepVector p v).1 (if e < n then buf.set e (some value) else buf)

/-- The whole work of lane `l` in rule R201: its steps, then its State Vector written back. -/
def scatterLane (p : Config.Params) (dt : Dtype) (lanes n spl : Nat) (acc : Memory × List (Option Element)) (l : Nat) :
    Memory × List (Option Element) :=
  match acc.1.read l with
  | none => acc
  | some v =>
    let out := scatterSteps p dt lanes n l spl 0 v acc.2
    (acc.1.write l out.1, out.2)

/-- The lanes run one after the other in the given order, from a buffer of n elements of which none is written. -/
def scatterRun (p : Config.Params) (dt : Dtype) (lanes n spl : Nat) (order : List Nat) (mem : Memory) :
    Memory × List (Option Element) :=
  order.foldl (scatterLane p dt lanes n spl) (mem, List.replicate n none)

/-! ## Command words, outcomes and requests, written out -/

/-- The command word with the given numbers in OP, SEL and IMM and 0 in RSV (`30_encoding.md` rule R86). -/
def wordOf (op sel imm : Nat) : DWord := BitVec.ofNat 64 (op * 2 ^ 56 + sel * 2 ^ 48 + imm)

/-- `s` with the marks of a command that succeeded: STATUS 0 and the response (OK, data). -/
def succeeded (data : DWord) (s : State) : State := { s with status := 0, response := some ⟨.ok, data⟩ }

/-- `s` with the marks of a command that failed with status `e` of the given code: STATUS, the bit of the code in
ESTICKY, and the response (e, 0) (`60_exceptions.md` rule R276). -/
def failed (e : Status) (code : Nat) (s : State) : State :=
  { s with
    status := BitVec.ofNat 8 code
    esticky := s.esticky ||| BitVec.ofNat 8 (2 ^ code)
    response := some ⟨e, 0⟩ }

/-- A word that fails with ERR_ILLEGAL wherever the host issues it, changing nothing else (`30_encoding.md` rule R88). -/
def rejected (cw : DWord) : Prop :=
  ∀ (s : State) (rest : List HostAction), s.host = .command cw :: rest →
    step s = .next (failed .errIllegal 7 { s with host := rest })

/-- The OP field of a word as a number (rule R86). -/
def opNumber (cw : DWord) : Nat := cw.toNat / 2 ^ 56

/-- The registers with their numbers, the table of `10_state.md` rule R33. -/
def registerNumbers : List (Nat × Reg) :=
  [(0x00, .a), (0x01, .b), (0x02, .c), (0x03, .r), (0x04, .f),
   (0x08, .s0), (0x09, .s1), (0x0A, .s2), (0x0B, .s3), (0x0C, .s4), (0x0D, .s5),
   (0x10, .seedw), (0x11, .nstreams), (0x12, .nsub), (0x13, .lanes), (0x14, .rank),
   (0x20, .dim 0), (0x21, .dim 1), (0x22, .dim 2), (0x23, .dim 3),
   (0x24, .dim 4), (0x25, .dim 5), (0x26, .dim 6), (0x27, .dim 7),
   (0x30, .status), (0x31, .esticky), (0x32, .n), (0x33, .spl), (0x3E, .id), (0x3F, .version)]

/-- The modulus of a modulus selector, `30_encoding.md` rule R91, as a number. -/
def modulusOf : Modulus → Nat
  | .m1 => 4294967087
  | .m2 => 4294944443

/-- The requested shape: `signed(DIMk)` for k below RANK (`10_state.md` rule R28). -/
def requestedDims (s : State) : List Int :=
  (List.range s.rank.toNat).map (fun k => (s.dims.toList.getD k 0).toInt)

/-- The requested total element count: the exact product of the dimensions (`45_capacity_guard.md` rule R230). -/
def requestedCount (s : State) : Nat := ((requestedDims s).map Int.toNat).prod

/-- A well-formed request: a rank of 1 to 8 and positive dimensions (rule R228). -/
def shapeOk (s : State) : Prop := 1 ≤ s.rank.toNat ∧ s.rank.toNat ≤ 8 ∧ ∀ d ∈ requestedDims s, 0 < d

/-- A lane count of 1 to LANES_MAX (rule R229). -/
def lanesOk (s : State) : Prop := 1 ≤ s.lanes.toNat ∧ s.lanes.toNat ≤ Config.params.lanesMax

/-- A request that the guard admits (rules R227 to R230). -/
def requestOk (s : State) : Prop := shapeOk s ∧ lanesOk s ∧ requestedCount s ≤ Config.params.nMax

/-- Samples per lane of a request: `ceil(n / L)` (rules R9, R231). -/
def requestedSpl (s : State) : Nat := (requestedCount s + s.lanes.toNat - 1) / s.lanes.toNat

/-- DATA of a successful CHECK or GENERATE: spl in the upper, n in the lower half (rules R232, R201). -/
def requestedData (s : State) : DWord := BitVec.ofNat 64 (requestedSpl s * 2 ^ 32 + requestedCount s)

/-- Every lane below LANES is valid. -/
def lanesSeeded (s : State) : Prop := ∀ l, l < s.lanes.toNat → s.lsb.read l ≠ none

/-- The status codes a command can return besides OK, `60_exceptions.md` rule R271; ERR_ILLEGAL is decided from the
command word, so a well-formed command does not return it. -/
def mayFailWith : Instr → List Status
  | .addmod _ | .mulmod _ | .macmod _ => [.errOperand]
  | .step _ | .jump _ _ | .rdstate _ _ => [.errLane, .errUnseeded]
  | .ldstate _ => [.errLane, .errState]
  | .seed => [.errLane, .errState]
  | .check => [.errLane, .errShape, .errCapacity]
  | .generate _ => [.errLane, .errUnseeded, .errShape, .errCapacity]
  | .nop | .sreset | .wrreg _ _ | .rdreg _ | .rdconst _ | .wrdims _ _ | .wrdimu _ _ | .wrdimh _ _ | .cvt _
  | .matld _ | .matsqr | .matpow2 _ | .matmul _ | .matrd _ _ => []

/-- The commands with no result, whose DATA is 0 (`30_encoding.md` rule R89). -/
def hasNoResult : Instr → Bool
  | .nop | .sreset | .wrreg _ _ | .wrdims _ _ | .wrdimu _ _ | .wrdimh _ _ | .jump _ _ | .matld _ | .matsqr
  | .matpow2 _ | .matmul _ | .ldstate _ => true
  | .rdreg _ | .rdconst _ | .addmod _ | .mulmod _ | .macmod _ | .step _ | .cvt _ | .matrd _ _ | .seed
  | .rdstate _ _ | .check | .generate _ => false

/-- The number of steps by which a command moves the given lane, where `e` is the exponent of W; none for a command that
is not a STEP or JUMP of that lane. -/
def laneMove (e : Nat) (lane : Word) : Instr → Option Nat
  | .step l => if l = lane then some 1 else none
  | .jump sel l => if l = lane then some (leap e sel) else none
  | _ => none

/-! ## Runs -/

/-- The next state of a command, where there is one. -/
def after (i : Instr) (s : State) : Option State :=
  match exec i s with
  | .next t => some t
  | .fault _ => none
  | .refused _ => none

/-- The state after a list of commands in the order of issue (`20_memory.md` rule R72). -/
def afterAll : List Instr → State → Option State
  | [], s => some s
  | i :: is, s => (after i s).bind (afterAll is)

/-- A run is safe when none of its steps stops: from every state some next state follows. -/
def Safe (s : State) : Prop := ∀ k, ∃ t, Sys2Proof.core.run k s = .next t

end Sys2Proof.Machine
end

