-- ==== Sys2Proof/Certificates/Slice0/Obligations.lean ====
section
/-! DEFINITION. The statements for the provers, from the numbered rules of the spec. `failed`, `succeeded`, `wordOf` and
the requests they use are written out in `Sys2Proof/Safety.lean`. -/

open Sys2Proof Sys2Proof.Machine

/-! ## Encoding -/

/-- A few command words written out from `30_encoding.md` rules R86 and R90 decode to the commands they stand for. -/
def Obligations.DecodeReadsWrittenWords : Prop :=
  decode 0x0000000000000000 = .ok .nop ∧
  decode 0x0200000000156ABC = .ok (.wrreg .a 1403580) ∧
  decode 0x0325000000000000 = .ok (.rdreg (.dim 5)) ∧
  decode 0x2803000000000005 = .ok (.jump .j72 5) ∧
  decode 0x3402000000000008 = .ok (.matrd .m2 8) ∧
  decode 0x4205000000000003 = .ok (.rdstate .y3 3) ∧
  decode 0x5102000000000000 = .ok (.generate .fp16)

/-- Decoding the word of a well-formed command gives the command back, with every operand at every value. -/
def Obligations.DecodeInvertsEncode : Prop :=
  ∀ i : Instr, i.wellFormed = true → decode (encode i) = .ok i

/-- A word that decodes is the word of the well-formed command it decodes to, so no two words are one command and every
bit of a legal word is accounted for (rule R97). -/
def Obligations.EncodeInvertsDecode : Prop :=
  ∀ (w : DWord) (i : Instr), decode w = .ok i → i.wellFormed = true ∧ encode i = w

/-- Strict decoding, rule R88: a word is legal exactly where a row of the table of rule R90 selects it with allowed field
values; a word that is not legal fails with ERR_ILLEGAL and changes nothing else; a legal one never does. -/
def Obligations.IllegalWordFailsWithErrIllegal : Prop :=
  (∀ w : DWord, legalWord w ↔ ∃ i, decode w = .ok i) ∧
  (∀ (s : State) (cw : DWord) (rest : List HostAction), s.host = .command cw :: rest → ¬ legalWord cw →
    step s = .next (failed .errIllegal 7 { s with host := rest })) ∧
  (∀ (s t : State) (cw : DWord) (rest : List HostAction) (r : Response), s.host = .command cw :: rest →
    legalWord cw → step s = .next t → t.response = some r → r.status ≠ .errIllegal)

/-! ## One step -/

/-- Where the host's next action is a word that decodes to a command, a step takes the action from the port and runs
that command. The port as a list of the host's actions, and the word that `withFetchWord` puts in front of it, are the
model's choice (DESIGN CHOICE, assumption log entry 2). -/
def Obligations.StepRunsTheDecodedCommand : Prop :=
  (∀ (s : State) (cw : DWord) (rest : List HostAction) (i : Instr), s.host = .command cw :: rest →
    decode cw = .ok i → step s = exec i { s with host := rest }) ∧
  (∀ (s : State) (i : Instr), decode (encode i) = .ok i →
    step (s.withFetchWord 64 (encode i).toNat) = exec i s)

/-- The model's own reading of the host's side of the port (assumption log entries 2 and 4): with no action of the host
nothing changes; reset gives the reset state, with the rest of the host's actions. -/
def Obligations.IdleAndResetActions : Prop :=
  (∀ s : State, s.host = [] → step s = .next s) ∧
  (∀ (s : State) (rest : List HostAction), s.host = .reset :: rest →
    step s = .next { State.reset with host := rest })

/-- The value of every piece of state after reset, `10_state.md` rule R43, and what the first command meets there. -/
def Obligations.ResetValues : Prop :=
  (∀ reg : Reg, reg ≠ .id → reg ≠ .version → readReg reg State.reset = 0) ∧
  readReg .id State.reset = 0x4D524755 ∧ readReg .version State.reset = 0x00000007 ∧
  State.reset.w1 = ⟨⟨1, 0, 0⟩, ⟨0, 1, 0⟩, ⟨0, 0, 1⟩⟩ ∧ State.reset.w2 = ⟨⟨1, 0, 0⟩, ⟨0, 1, 0⟩, ⟨0, 0, 1⟩⟩ ∧
  (∀ l, State.reset.lsb.read l = none) ∧ State.reset.ob = none ∧
  exec .seed State.reset = .next (failed .errState 2 State.reset) ∧
  exec .check State.reset = .next (failed .errShape 3 State.reset) ∧
  (∀ dt, exec (.generate dt) State.reset = .next (failed .errShape 3 State.reset)) ∧
  (∀ lane : Word, lane.toNat < Config.params.lanesMax →
    exec (.step lane) State.reset = .next (failed .errUnseeded 5 State.reset) ∧
    (∀ sel, exec (.jump sel lane) State.reset = .next (failed .errUnseeded 5 State.reset)) ∧
    (∀ word, exec (.rdstate word lane) State.reset = .next (failed .errUnseeded 5 State.reset))) ∧
  (∀ m, exec (.addmod m) State.reset = .next (succeeded 0 State.reset) ∧
    exec (.mulmod m) State.reset = .next (succeeded 0 State.reset) ∧
    exec (.macmod m) State.reset = .next (succeeded 0 State.reset)) ∧
  (∀ v : StateVec, validState v = true → jumpVector (State.reset.w1, State.reset.w2) v = v)

/-! ## Errors and status -/

/-- Error entry, `60_exceptions.md` rule R276: a command that fails changes STATUS, one bit of ESTICKY and the response,
and nothing else. -/
def Obligations.ErrorEntryChangesOnlyStatus : Prop :=
  ∀ (s t : State) (cw : DWord) (rest : List HostAction) (r : Response), s.host = .command cw :: rest →
    step s = .next t → t.response = some r → r.status ≠ .ok →
    r.data = 0 ∧
    t = { s with
          host := rest
          status := r.status.code
          esticky := s.esticky ||| (1#8 <<< r.status.code.toNat)
          response := some r }

/-- STATUS and ESTICKY are read-only to WRREG; STATUS holds the code of the last command and RDREG STATUS returns the one
before (rule R29); a failing command sets the bit of its code in ESTICKY, only reset and SRESET clear bits, and bit 0 stays
0 (rule R30). -/
def Obligations.StatusRegistersFollowTheResponse : Prop :=
  State.reset.esticky = 0 ∧
  (∀ n ∈ [0x30, 0x31], ∀ v : Word, rejected (wordOf 0x02 n v.toNat)) ∧
  (∀ (s t : State) (rest : List HostAction), s.host = .reset :: rest → step s = .next t → t.esticky = 0) ∧
  (∀ (s t : State) (cw : DWord) (rest : List HostAction), s.host = .command cw :: rest → step s = .next t →
    ∃ r : Response, t.response = some r ∧ t.status = r.status.code ∧
      (decode cw = .ok .sreset → t.esticky = 0) ∧
      (decode cw ≠ .ok .sreset → r.status = .ok → t.esticky = s.esticky) ∧
      (decode cw ≠ .ok .sreset → r.status ≠ .ok → t.esticky = s.esticky ||| (1#8 <<< r.status.code.toNat)) ∧
      (s.esticky.getLsbD 0 = false → t.esticky.getLsbD 0 = false)) ∧
  (∀ s : State, exec (.rdreg .status) s = .next (succeeded (s.status.setWidth 64) s))

/-- Every command of every state completes with one response, whose DATA is 0 for a failure and for a command with no
result, and leaves the host's further actions alone (`30_encoding.md` section 1). -/
def Obligations.EveryCommandResponds : Prop :=
  ∀ (i : Instr) (s : State), ∃ (t : State) (r : Response), exec i s = .next t ∧ t.response = some r ∧
    t.host = s.host ∧ (r.status ≠ .ok → r.data = 0) ∧ (hasNoResult i = true → r.data = 0)

/-- No step of any run stops (`93_implementation_defined.md` part 1). -/
def Obligations.EveryRunIsSafe : Prop := ∀ s : State, Safe s

/-- A well-formed command returns only the codes the table of rule R271 gives it. -/
def Obligations.OnlyTabledStatusCodes : Prop :=
  ∀ (i : Instr) (s t : State) (r : Response), i.wellFormed = true → exec i s = .next t → t.response = some r →
    r.status = .ok ∨ r.status ∈ mayFailWith i

/-- No command reads STATUS or ESTICKY to decide what it does (`10_state.md` section 8): with other values in them the
next state is the same but for ESTICKY, and so is the response, but for RDREG of those two. -/
def Obligations.StatusRegistersSteerNoCommand : Prop :=
  ∀ (i : Instr) (s : State) (x y : Byte), ∃ t u : State, exec i s = .next t ∧
    exec i { s with status := x, esticky := y } = .next u ∧
    u = { t with esticky := u.esticky, response := u.response } ∧
    u.response.map Response.status = t.response.map Response.status ∧
    (i ≠ .rdreg .status → i ≠ .rdreg .esticky → u.response = t.response)

/-- No retry, rule R280: a command that failed fails with the same response again, whatever the status registers, the
last response and the host's further actions are by then. -/
def Obligations.FailedCommandFailsAgain : Prop :=
  ∀ (i : Instr) (s t : State) (r : Response) (x y : Byte) (z : Option Response) (h : List HostAction),
    exec i s = .next t → t.response = some r → r.status ≠ .ok →
    ∃ u : State, exec i { s with status := x, esticky := y, response := z, host := h } = .next u ∧
      u.response = some r

/-! ## Invariants -/

/-- Every step keeps the invariants of the state: the range of R, of STATUS and ESTICKY, the canonical lane state buffer,
the State Vector invariant, W1 and W2 one power of A1 and A2, the range of N and SPL, a well-formed output buffer. -/
def Obligations.StepKeepsStateOk : Prop :=
  ∀ s t : State, StateOk s → step s = .next t → StateOk t

/-- The reset state has the invariants. -/
def Obligations.ResetIsStateOk : Prop := StateOk State.reset

/-- Every step keeps the canonical form of the lane state buffer, from any state that has it. -/
def Obligations.StepKeepsLaneBufferCanonical : Prop :=
  ∀ s t : State, s.lsb.wf → step s = .next t → t.lsb.wf

/-- R stays below M1, and ADDMOD, MULMOD, MACMOD and STEP are the only commands besides SRESET that write it
(`10_state.md` section 2). -/
def Obligations.ResultRegisterStaysBelowM1 : Prop :=
  (∀ s t : State, s.r.toNat < 4294967087 → step s = .next t → t.r.toNat < 4294967087) ∧
  (∀ (i : Instr) (s t : State), exec i s = .next t →
    (∀ m, i ≠ .addmod m) → (∀ m, i ≠ .mulmod m) → (∀ m, i ≠ .macmod m) → (∀ l, i ≠ .step l) → i ≠ .sreset →
    t.r = s.r)

/-! ## Modular arithmetic -/

/-- ADDMOD, `40_modular_arithmetic.md` rule R113. -/
def Obligations.AddmodResult : Prop :=
  (∀ cw : DWord, opNumber cw = 0x10 → (∀ m, cw ≠ encode (.addmod m)) → rejected cw) ∧
  ∀ (m : Modulus) (s : State),
    encode (.addmod m) = wordOf 0x10 (if m = .m1 then 1 else 2) 0 ∧
    (s.a.toNat < modulusOf m → s.b.toNat < modulusOf m →
      exec (.addmod m) s =
        .next (succeeded (BitVec.ofNat 64 ((s.a.toNat + s.b.toNat) % modulusOf m))
          { s with r := BitVec.ofNat 32 ((s.a.toNat + s.b.toNat) % modulusOf m) })) ∧
    (modulusOf m ≤ s.a.toNat ∨ modulusOf m ≤ s.b.toNat → exec (.addmod m) s = .next (failed .errOperand 6 s))

/-- MULMOD, rule R114. -/
def Obligations.MulmodResult : Prop :=
  (∀ cw : DWord, opNumber cw = 0x11 → (∀ m, cw ≠ encode (.mulmod m)) → rejected cw) ∧
  ∀ (m : Modulus) (s : State),
    encode (.mulmod m) = wordOf 0x11 (if m = .m1 then 1 else 2) 0 ∧
    (s.a.toNat < modulusOf m → s.b.toNat < modulusOf m →
      exec (.mulmod m) s =
        .next (succeeded (BitVec.ofNat 64 ((s.a.toNat * s.b.toNat) % modulusOf m))
          { s with r := BitVec.ofNat 32 ((s.a.toNat * s.b.toNat) % modulusOf m) })) ∧
    (modulusOf m ≤ s.a.toNat ∨ modulusOf m ≤ s.b.toNat → exec (.mulmod m) s = .next (failed .errOperand 6 s))

/-- MACMOD, rule R115. -/
def Obligations.MacmodResult : Prop :=
  (∀ cw : DWord, opNumber cw = 0x12 → (∀ m, cw ≠ encode (.macmod m)) → rejected cw) ∧
  ∀ (m : Modulus) (s : State),
    encode (.macmod m) = wordOf 0x12 (if m = .m1 then 1 else 2) 0 ∧
    (s.a.toNat < modulusOf m → s.b.toNat < modulusOf m → s.c.toNat < modulusOf m →
      exec (.macmod m) s =
        .next (succeeded (BitVec.ofNat 64 ((s.a.toNat * s.b.toNat + s.c.toNat) % modulusOf m))
          { s with r := BitVec.ofNat 32 ((s.a.toNat * s.b.toNat + s.c.toNat) % modulusOf m) })) ∧
    (modulusOf m ≤ s.a.toNat ∨ modulusOf m ≤ s.b.toNat ∨ modulusOf m ≤ s.c.toNat →
      exec (.macmod m) s = .next (failed .errOperand 6 s))

/-! ## Recurrence step and conversion -/

/-- STEP, `41_recurrence_step.md` rule R133: the lane takes the shifted triples with their new terms, R and the response
the raw value; every other lane and all else stay. -/
def Obligations.StepResult : Prop :=
  (∀ cw : DWord, opNumber cw = 0x20 → (∀ lane, cw ≠ encode (.step lane)) → rejected cw) ∧
  ∀ (lane : Word) (s : State),
    encode (.step lane) = wordOf 0x20 0 lane.toNat ∧
    (∀ v : StateVec, lane.toNat < Config.params.lanesMax → s.lsb.read lane.toNat = some v →
      let p := Config.params
      let nx := (p.a11 * v.x.t3.toNat + p.a12 * v.x.t2.toNat + p.a13 * v.x.t1.toNat) % 4294967087
      let ny := (p.a21 * v.y.t3.toNat + p.a22 * v.y.t2.toNat + p.a23 * v.y.t1.toNat) % 4294944443
      let z := if ny ≤ nx then nx - ny else nx + 4294967087 - ny
      ∃ t : State, exec (.step lane) s = .next t ∧
        t.lsb.read lane.toNat =
          some ⟨⟨v.x.t2, v.x.t3, BitVec.ofNat 32 nx⟩, ⟨v.y.t2, v.y.t3, BitVec.ofNat 32 ny⟩⟩ ∧
        (∀ l, l ≠ lane.toNat → t.lsb.read l = s.lsb.read l) ∧
        t = succeeded (BitVec.ofNat 64 z) { s with lsb := t.lsb, r := BitVec.ofNat 32 z }) ∧
    (Config.params.lanesMax ≤ lane.toNat → exec (.step lane) s = .next (failed .errLane 4 s)) ∧
    (lane.toNat < Config.params.lanesMax → s.lsb.read lane.toNat = none →
      exec (.step lane) s = .next (failed .errUnseeded 5 s))

/-- The raw value of any two new terms in range, rule R132. -/
def Obligations.RawValueOfTwoTerms : Prop :=
  ∀ nx ny : Nat, nx < 4294967087 → ny < 4294944443 →
    (ny ≤ nx → combine nx ny = nx - ny) ∧ (nx < ny → combine nx ny = nx + 4294967087 - ny) ∧
    combine nx ny < 4294967087 ∧ (combine nx ny = 0 ↔ nx = ny)

/-- Step keeps the State Vector invariant, rule R134, for all parameters that rule R8 admits. -/
def Obligations.RecurrenceKeepsStateVectorsValid : Prop :=
  ∀ p : Config.Params, p.Admissible → ∀ v : StateVec, validState v = true → validState (stepVector p v).1 = true

/-- CVT, rule R138: F and the response take the converted value of R; R and all else stay. -/
def Obligations.CvtResult : Prop :=
  (∀ cw : DWord, opNumber cw = 0x21 → (∀ dt, cw ≠ encode (.cvt dt)) → rejected cw) ∧
  ∀ (dt : Dtype) (s : State),
    encode (.cvt dt) = wordOf 0x21 (match dt with | .fp64 => 0 | .fp32 => 1 | .fp16 => 2) 0 ∧
    exec (.cvt dt) s =
      .next (succeeded (BitVec.ofNat 64 (elementBits (toFloat dt s.r.toNat)))
        { s with f := BitVec.ofNat 64 (elementBits (toFloat dt s.r.toNat)) })

/-- ToFloat (rules R135, R136): for every raw value in range the result is a finite number of the format strictly between
0 and 1, and no other number of the format strictly between 0 and 1 is nearer to max(z, 1) / M1. For FP32 and FP16 the
nearest number is what the default of the parameter ToFloat gives; taking the default is the model's choice (DESIGN CHOICE,
assumption log entry 8), and rule R135 admits other conversions. -/
def Obligations.ToFloatIsNearestInOpenInterval : Prop :=
  ∀ (dt : Dtype) (z : Nat), z < 4294967087 →
    elementDtype (toFloat dt z) = dt ∧ inOpenInterval (toFloat dt z) ∧
    ∀ bits : Nat, bits < 2 ^ ((floatFormat dt).precision + exponentBits dt) → finitePattern dt bits →
      0 < patternValue dt bits → patternValue dt bits < 1 →
      |elementValue (toFloat dt z) - (max z 1 : ℕ) / 4294967087|
        ≤ |patternValue dt bits - (max z 1 : ℕ) / 4294967087|

/-- ToFloat is monotone in z (property P3 of rule R135), and 0 converts like 1. -/
def Obligations.ToFloatIsMonotone : Prop :=
  (∀ (dt : Dtype) (z z' : Nat), z ≤ z' → z' < 4294967087 →
    elementValue (toFloat dt z) ≤ elementValue (toFloat dt z')) ∧
  (∀ dt : Dtype, toFloat dt 0 = toFloat dt 1)

/-- Where the clamps of rule R136 act: the ranges it names and the results there. The patterns are those of the default of
the parameter ToFloat; taking the default is the model's choice (DESIGN CHOICE, assumption log entry 8). -/
def Obligations.ToFloatClampRanges : Prop :=
  toFloat .fp64 0 = .fp64 0x3DF000000D10000B ∧ toFloat .fp64 4294967086 = .fp64 0x3FEFFFFFFFE00000 ∧
  toFloat .fp32 0 = .fp32 0x2F800000 ∧
  (∀ z, 4294966960 ≤ z → z < 4294967087 → toFloat .fp32 z = .fp32 0x3F7FFFFF) ∧
  (∀ z, z ≤ 127 → toFloat .fp16 z = .fp16 0x0001) ∧
  (∀ z, 4293918512 ≤ z → z < 4294967087 → toFloat .fp16 z = .fp16 0x3BFF)

/-! ## Jump-ahead and the matrix engine -/

/-- JUMP, `42_jump_ahead.md` rule R156: one matrix-vector product per triple by the selected pair (rules R93, R152); no
other lane and no register changes. -/
def Obligations.JumpResult : Prop :=
  (∀ cw : DWord, opNumber cw = 0x28 → (∀ sel lane, cw ≠ encode (.jump sel lane)) → rejected cw) ∧
  ∀ (sel : MatSel) (lane : Word) (s : State),
    encode (.jump sel lane) =
      wordOf 0x28 (match sel with | .i => 0 | .a => 1 | .j67 => 2 | .j72 => 3 | .j134 => 4 | .w => 5) lane.toNat ∧
    (∀ v : StateVec, lane.toNat < Config.params.lanesMax → s.lsb.read lane.toNat = some v →
      ∃ t : State, exec (.jump sel lane) s = .next t ∧
        t.lsb.read lane.toNat =
          some (jumpVector (if sel = .w then (s.w1, s.w2) else stepPower Config.params (leap 0 sel)) v) ∧
        (∀ l, l ≠ lane.toNat → t.lsb.read l = s.lsb.read l) ∧
        t = succeeded 0 { s with lsb := t.lsb }) ∧
    (Config.params.lanesMax ≤ lane.toNat → exec (.jump sel lane) s = .next (failed .errLane 4 s)) ∧
    (lane.toNat < Config.params.lanesMax → s.lsb.read lane.toNat = none →
      exec (.jump sel lane) s = .next (failed .errUnseeded 5 s))

/-- Jump equals repeated step, rule R157: JUMP leaves the State Vector that as many STEP commands leave as the selector
leaps, 2^67, 2^72, 2^134, one, or the exponent of W. -/
def Obligations.JumpEqualsRepeatedSteps : Prop :=
  ∀ (sel : MatSel) (lane : Word) (s : State) (v : StateVec) (e : Nat),
    (s.w1, s.w2) = stepPower Config.params e → lane.toNat < Config.params.lanesMax →
    s.lsb.read lane.toNat = some v → validState v = true →
    ∃ t u : State, exec (.jump sel lane) s = .next t ∧
      afterAll (List.replicate (leap e sel) (.step lane)) s = some u ∧
      t.lsb.read lane.toNat = some (stepMany Config.params (leap e sel) v) ∧
      u.lsb.read lane.toNat = t.lsb.read lane.toNat

/-- Jumps and steps commute, rule R158: STEP and JUMP commands of one lane, in any order, advance it by the sum of their
step counts. -/
def Obligations.JumpsAndStepsAddUp : Prop :=
  ∀ (lane : Word) (s : State) (v : StateVec) (e : Nat) (cmds : List Instr) (counts : List Nat),
    (s.w1, s.w2) = stepPower Config.params e → lane.toNat < Config.params.lanesMax →
    s.lsb.read lane.toNat = some v → validState v = true →
    cmds.map (laneMove e lane) = counts.map some →
    ∀ order : List Instr, order.Perm cmds →
      ∃ t : State, afterAll order s = some t ∧
        t.lsb.read lane.toNat = some (stepMany Config.params counts.sum v)

/-- Every power of the one-step matrices keeps the State Vector invariant, rule R168, for all parameters that rule R8
admits. -/
def Obligations.JumpKeepsStateVectorsValid : Prop :=
  ∀ p : Config.Params, p.Admissible → ∀ (e : Nat) (v : StateVec), validState v = true →
    validState (jumpVector (stepPower p e) v) = true

/-- MATLD, rule R160: both working matrices take the selected pair, I, A or a power A^(2^k) (rule R152); selector W is
illegal. -/
def Obligations.MatldResult : Prop :=
  (∀ cw : DWord, opNumber cw = 0x30 → (∀ sel : MatSel, sel ≠ .w → cw ≠ encode (.matld sel)) → rejected cw) ∧
  (∀ (sel : MatSel) (s : State), sel ≠ .w →
    encode (.matld sel) =
      wordOf 0x30 (match sel with | .i => 0 | .a => 1 | .j67 => 2 | .j72 => 3 | .j134 => 4 | .w => 5) 0 ∧
    exec (.matld sel) s =
      .next (succeeded 0
        { s with w1 := (stepPower Config.params (leap 0 sel)).1, w2 := (stepPower Config.params (leap 0 sel)).2 })) ∧
  (∀ s : State, exec (.matld .w) s = .next (failed .errIllegal 7 s))

/-- MATSQR, rule R161: all nine entries of each product from the old matrix; W = A^e becomes A^(2e). -/
def Obligations.MatsqrResult : Prop :=
  encode .matsqr = wordOf 0x31 0 0 ∧
  (∀ cw : DWord, opNumber cw = 0x31 → cw ≠ encode .matsqr → rejected cw) ∧
  ∀ s : State, exec .matsqr s =
    .next (succeeded 0 { s with w1 := matMul s.w1 s.w1 4294967087, w2 := matMul s.w2 s.w2 4294944443 }) ∧
    ∀ e : Nat, (s.w1, s.w2) = stepPower Config.params e →
      (matMul s.w1 s.w1 4294967087, matMul s.w2 s.w2 4294944443) = stepPower Config.params (2 * e)

/-- MATPOW2, rule R162: k successive MATSQR as one command, W = A^e becoming A^(e·2^k); a count above 255 is illegal. -/
def Obligations.Matpow2Result : Prop :=
  (∀ cw : DWord, opNumber cw = 0x32 → (∀ k : Word, k.toNat ≤ 255 → cw ≠ encode (.matpow2 k)) → rejected cw) ∧
  ∀ (k : Word) (s : State),
    encode (.matpow2 k) = wordOf 0x32 0 k.toNat ∧
    (k.toNat ≤ 255 → ∃ t u : State, exec (.matpow2 k) s = .next t ∧
      afterAll (List.replicate k.toNat .matsqr) s = some u ∧
      t = succeeded 0 { s with w1 := u.w1, w2 := u.w2 } ∧
      ∀ e : Nat, (s.w1, s.w2) = stepPower Config.params e → (t.w1, t.w2) = stepPower Config.params (e * 2 ^ k.toNat)) ∧
    (255 < k.toNat → exec (.matpow2 k) s = .next (failed .errIllegal 7 s))

/-- MATMUL, rule R163: the selected constant on the left, W = A^e becoming A^(e+f); selector W is illegal. -/
def Obligations.MatmulResult : Prop :=
  (∀ cw : DWord, opNumber cw = 0x33 → (∀ sel : MatSel, sel ≠ .w → cw ≠ encode (.matmul sel)) → rejected cw) ∧
  (∀ (sel : MatSel) (s : State), sel ≠ .w →
    encode (.matmul sel) =
      wordOf 0x33 (match sel with | .i => 0 | .a => 1 | .j67 => 2 | .j72 => 3 | .j134 => 4 | .w => 5) 0 ∧
    exec (.matmul sel) s =
      .next (succeeded 0
        { s with
          w1 := matMul (stepPower Config.params (leap 0 sel)).1 s.w1 4294967087
          w2 := matMul (stepPower Config.params (leap 0 sel)).2 s.w2 4294944443 })) ∧
  (∀ (sel : MatSel) (s : State) (e : Nat), sel ≠ .w → (s.w1, s.w2) = stepPower Config.params e →
    (matMul (stepPower Config.params (leap 0 sel)).1 s.w1 4294967087,
      matMul (stepPower Config.params (leap 0 sel)).2 s.w2 4294944443) =
      stepPower Config.params (e + leap 0 sel)) ∧
  (∀ s : State, exec (.matmul .w) s = .next (failed .errIllegal 7 s))

/-- MATRD, rule R164: entry 3·i + j of the selected working matrix; an index above 8 is illegal. -/
def Obligations.MatrdResult : Prop :=
  (∀ cw : DWord, opNumber cw = 0x34 → (∀ (m : Modulus) (index : Word), index.toNat ≤ 8 → cw ≠ encode (.matrd m index)) →
    rejected cw) ∧
  ∀ (m : Modulus) (index : Word) (s : State),
    encode (.matrd m index) = wordOf 0x34 (if m = .m1 then 1 else 2) index.toNat ∧
    (∀ w : Mat3, w = (if m = .m1 then s.w1 else s.w2) → index.toNat ≤ 8 →
      ∃ value : Word,
        [w.r0.t1, w.r0.t2, w.r0.t3, w.r1.t1, w.r1.t2, w.r1.t3, w.r2.t1, w.r2.t2, w.r2.t3][index.toNat]? = some value ∧
        exec (.matrd m index) s = .next (succeeded (value.setWidth 64) s)) ∧
    (8 < index.toNat → exec (.matrd m index) s = .next (failed .errIllegal 7 s))

/-- The exponent of W, rule R167: MATLD sets it, MATSQR doubles it, MATPOW2 k multiplies it by 2^k, MATMUL adds to it, no
other command but SRESET writes W, and after reset it is 0. -/
def Obligations.WorkingMatrixExponent : Prop :=
  (State.reset.w1, State.reset.w2) = stepPower Config.params 0 ∧
  ∀ (s : State) (e : Nat), (s.w1, s.w2) = stepPower Config.params e →
    (∀ sel : MatSel, sel ≠ .w → ∃ t : State, exec (.matld sel) s = .next t ∧
      (t.w1, t.w2) = stepPower Config.params (leap 0 sel)) ∧
    (∃ t : State, exec .matsqr s = .next t ∧ (t.w1, t.w2) = stepPower Config.params (2 * e)) ∧
    (∀ k : Word, k.toNat ≤ 255 → ∃ t : State, exec (.matpow2 k) s = .next t ∧
      (t.w1, t.w2) = stepPower Config.params (e * 2 ^ k.toNat)) ∧
    (∀ sel : MatSel, sel ≠ .w → ∃ t : State, exec (.matmul sel) s = .next t ∧
      (t.w1, t.w2) = stepPower Config.params (e + leap 0 sel)) ∧
    (∀ (i : Instr) (t : State), exec i s = .next t → (∀ sel, i ≠ .matld sel) → i ≠ .matsqr → (∀ k, i ≠ .matpow2 k) →
      (∀ sel, i ≠ .matmul sel) → i ≠ .sreset → t.w1 = s.w1 ∧ t.w2 = s.w2)

/-! ## Stream layout and lane access -/

/-- SEED, `43_stream_layout.md` rules R181, R182, R183: the seed check, then the counts; lane i·NSUB + j takes substream
j of stream i, a valid State Vector; every other lane and all else stay. -/
def Obligations.SeedResult : Prop :=
  encode .seed = wordOf 0x40 0 0 ∧
  (∀ cw : DWord, opNumber cw = 0x40 → cw ≠ encode .seed → rejected cw) ∧
  ∀ s : State,
    let ns := s.nstreams.toNat
    let nb := s.nsub.toNat
    (1 ≤ s.seedw.toNat → s.seedw.toNat < 4294944443 → 1 ≤ ns → 1 ≤ nb → ns * nb ≤ Config.params.lanesMax →
      ∃ t : State, exec .seed s = .next t ∧
        (∀ i j, i < ns → j < nb → t.lsb.read (i * nb + j) =
          some ((jumpVector (stepPower Config.params (2 ^ 72)))^[j]
            ((jumpVector (stepPower Config.params (2 ^ 134)))^[i]
              ⟨⟨s.seedw, s.seedw, s.seedw⟩, ⟨s.seedw, s.seedw, s.seedw⟩⟩))) ∧
        (∀ (l : Nat) (v : StateVec), l < ns * nb → t.lsb.read l = some v → validState v = true) ∧
        (∀ l, ns * nb ≤ l → t.lsb.read l = s.lsb.read l) ∧
        t = succeeded (BitVec.ofNat 64 (ns * nb)) { s with lsb := t.lsb }) ∧
    (s.seedw.toNat = 0 ∨ 4294944443 ≤ s.seedw.toNat → exec .seed s = .next (failed .errState 2 s)) ∧
    (1 ≤ s.seedw.toNat → s.seedw.toNat < 4294944443 →
      (ns = 0 ∨ nb = 0 ∨ Config.params.lanesMax < ns * nb) → exec .seed s = .next (failed .errLane 4 s))

/-- Where each derived vector stands, rule R180: lane i·NSUB + j is the seed vector advanced by i·2^134 + j·2^72
steps. -/
def Obligations.SubstreamPosition : Prop :=
  ∀ s : State, 1 ≤ s.seedw.toNat → s.seedw.toNat < 4294944443 → 1 ≤ s.nstreams.toNat → 1 ≤ s.nsub.toNat →
    s.nstreams.toNat * s.nsub.toNat ≤ Config.params.lanesMax →
    ∃ t : State, exec .seed s = .next t ∧
      ∀ i j, i < s.nstreams.toNat → j < s.nsub.toNat →
        t.lsb.read (i * s.nsub.toNat + j) =
          some (stepMany Config.params (i * 2 ^ 134 + j * 2 ^ 72)
            ⟨⟨s.seedw, s.seedw, s.seedw⟩, ⟨s.seedw, s.seedw, s.seedw⟩⟩)

/-- LDSTATE, rules R185 and R186: the staged words become the lane's State Vector where every word is below its modulus and
neither triple is all zero; the lane check comes first. -/
def Obligations.LdstateResult : Prop :=
  (∀ cw : DWord, opNumber cw = 0x41 → (∀ lane, cw ≠ encode (.ldstate lane)) → rejected cw) ∧
  ∀ (lane : Word) (s : State),
    let valid : Prop :=
      s.s0.toNat < 4294967087 ∧ s.s1.toNat < 4294967087 ∧ s.s2.toNat < 4294967087 ∧
      s.s3.toNat < 4294944443 ∧ s.s4.toNat < 4294944443 ∧ s.s5.toNat < 4294944443 ∧
      ¬(s.s0 = 0 ∧ s.s1 = 0 ∧ s.s2 = 0) ∧ ¬(s.s3 = 0 ∧ s.s4 = 0 ∧ s.s5 = 0)
    encode (.ldstate lane) = wordOf 0x41 0 lane.toNat ∧
    (lane.toNat < Config.params.lanesMax → valid →
      ∃ t : State, exec (.ldstate lane) s = .next t ∧
        t.lsb.read lane.toNat = some ⟨⟨s.s0, s.s1, s.s2⟩, ⟨s.s3, s.s4, s.s5⟩⟩ ∧
        (∀ l, l ≠ lane.toNat → t.lsb.read l = s.lsb.read l) ∧
        t = succeeded 0 { s with lsb := t.lsb }) ∧
    (Config.params.lanesMax ≤ lane.toNat → exec (.ldstate lane) s = .next (failed .errLane 4 s)) ∧
    (lane.toNat < Config.params.lanesMax → ¬ valid → exec (.ldstate lane) s = .next (failed .errState 2 s))

/-- RDSTATE, rule R188: the response is the word; nothing else changes. -/
def Obligations.RdstateResult : Prop :=
  (∀ cw : DWord, opNumber cw = 0x42 → (∀ word lane, cw ≠ encode (.rdstate word lane)) → rejected cw) ∧
  ∀ (word : StateWord) (lane : Word) (s : State),
    encode (.rdstate word lane) =
      wordOf 0x42 (match word with | .x1 => 0 | .x2 => 1 | .x3 => 2 | .y1 => 3 | .y2 => 4 | .y3 => 5) lane.toNat ∧
    (∀ v : StateVec, lane.toNat < Config.params.lanesMax → s.lsb.read lane.toNat = some v →
      exec (.rdstate word lane) s =
        .next (succeeded
          ((match word with
            | .x1 => v.x.t1 | .x2 => v.x.t2 | .x3 => v.x.t3
            | .y1 => v.y.t1 | .y2 => v.y.t2 | .y3 => v.y.t3).setWidth 64) s)) ∧
    (Config.params.lanesMax ≤ lane.toNat → exec (.rdstate word lane) s = .next (failed .errLane 4 s)) ∧
    (lane.toNat < Config.params.lanesMax → s.lsb.read lane.toNat = none →
      exec (.rdstate word lane) s = .next (failed .errUnseeded 5 s))

/-! ## The guard and the shape -/

/-- CHECK, `45_capacity_guard.md` rule R232, with the checks of rule R227 in their order: the shape, the lane count, the
exact product against N_MAX. -/
def Obligations.CheckResult : Prop :=
  encode .check = wordOf 0x50 0 0 ∧
  (∀ cw : DWord, opNumber cw = 0x50 → cw ≠ encode .check → rejected cw) ∧
  ∀ s : State,
    (¬ shapeOk s → exec .check s = .next (failed .errShape 3 s)) ∧
    (shapeOk s → ¬ lanesOk s → exec .check s = .next (failed .errLane 4 s)) ∧
    (shapeOk s → lanesOk s → Config.params.nMax < requestedCount s →
      exec .check s = .next (failed .errCapacity 1 s)) ∧
    (requestOk s → exec .check s =
      .next (succeeded (requestedData s)
        { s with n := BitVec.ofNat 32 (requestedCount s), spl := BitVec.ofNat 32 (requestedSpl s) })) ∧
    (requestOk s → 1 ≤ requestedSpl s ∧ requestedSpl s ≤ requestedCount s ∧ requestedCount s < 2 ^ 32)

/-- The guard's verdict depends on the dimensions' values only, not on their order (rule R230). -/
def Obligations.GuardIgnoresDimensionOrder : Prop :=
  ∀ s s' t t' : State, (requestedDims s).Perm (requestedDims s') → s'.lanes = s.lanes →
    exec .check s = .next t → exec .check s' = .next t' → t'.response = t.response

/-- CHECK and GENERATE differ in status in one case only: the request is admitted and a lane is unseeded (rule R232). -/
def Obligations.CheckAndGenerateAgree : Prop :=
  ∀ (dt : Dtype) (s t u : State) (r q : Response), exec .check s = .next t → exec (.generate dt) s = .next u →
    t.response = some r → u.response = some q →
    q.status = r.status ∨ (r.status = .ok ∧ q.status = .errUnseeded ∧ ¬ lanesSeeded s)

/-- WRDIMS, WRDIMU and WRDIMH, rules R235, R236, R237: DIMk takes the sign-extended value, the zero-extended value, or the
value as its upper half; every other DIM and all else stay. -/
def Obligations.WrdimResults : Prop :=
  (∀ cw : DWord, opNumber cw = 0x08 → (∀ k v, cw ≠ encode (.wrdims k v)) → rejected cw) ∧
  (∀ cw : DWord, opNumber cw = 0x09 → (∀ k v, cw ≠ encode (.wrdimu k v)) → rejected cw) ∧
  (∀ cw : DWord, opNumber cw = 0x0A → (∀ k v, cw ≠ encode (.wrdimh k v)) → rejected cw) ∧
  ∀ (k : Fin 8) (v : Word) (s : State),
    (encode (.wrdims k v) = wordOf 0x08 k.val v.toNat ∧ encode (.wrdimu k v) = wordOf 0x09 k.val v.toNat ∧
      encode (.wrdimh k v) = wordOf 0x0A k.val v.toNat) ∧
    (∃ t : State, exec (.wrdims k v) s = .next t ∧ t.dims[k].toInt = v.toInt ∧
      (∀ j : Fin 8, j ≠ k → t.dims[j] = s.dims[j]) ∧ t = succeeded 0 { s with dims := t.dims }) ∧
    (∃ t : State, exec (.wrdimu k v) s = .next t ∧ t.dims[k].toNat = v.toNat ∧
      (∀ j : Fin 8, j ≠ k → t.dims[j] = s.dims[j]) ∧ t = succeeded 0 { s with dims := t.dims }) ∧
    (∃ t : State, exec (.wrdimh k v) s = .next t ∧
      t.dims[k].toNat = v.toNat * 2 ^ 32 + s.dims[k].toNat % 2 ^ 32 ∧
      (∀ j : Fin 8, j ≠ k → t.dims[j] = s.dims[j]) ∧ t = succeeded 0 { s with dims := t.dims })

/-! ## Uniform sampling -/

/-- GENERATE, `44_uniform_sampling.md` rules R201, R203, R204, R205, R206: the failures in their order, with nothing
changed; on an admitted request whose lanes are seeded, element e of the new output buffer is the conversion of step
e div L of lane e mod L, every lane below L advances by spl steps, lanes L and above and all else stay. -/
def Obligations.GenerateResult : Prop :=
  (∀ cw : DWord, opNumber cw = 0x51 → (∀ dt, cw ≠ encode (.generate dt)) → rejected cw) ∧
  ∀ (dt : Dtype) (s : State),
    encode (.generate dt) = wordOf 0x51 (match dt with | .fp64 => 0 | .fp32 => 1 | .fp16 => 2) 0 ∧
    (¬ shapeOk s → exec (.generate dt) s = .next (failed .errShape 3 s)) ∧
    (shapeOk s → ¬ lanesOk s → exec (.generate dt) s = .next (failed .errLane 4 s)) ∧
    (shapeOk s → lanesOk s → Config.params.nMax < requestedCount s →
      exec (.generate dt) s = .next (failed .errCapacity 1 s)) ∧
    (requestOk s → ¬ lanesSeeded s → exec (.generate dt) s = .next (failed .errUnseeded 5 s)) ∧
    (requestOk s → lanesSeeded s →
      ∃ (t : State) (ob : OutBuf), exec (.generate dt) s = .next t ∧ t.ob = some ob ∧
        ob.dtype = dt ∧ ob.dims.map Int.ofNat = requestedDims s ∧ ob.elems.length = requestedCount s ∧
        (∀ e, e < requestedCount s → ∃ v : StateVec, s.lsb.read (e % s.lanes.toNat) = some v ∧
          ob.elems[e]? = some (toFloat dt (rawValue Config.params (e / s.lanes.toNat) v).toNat)) ∧
        (∀ (l : Nat) (v : StateVec), l < s.lanes.toNat → s.lsb.read l = some v →
          t.lsb.read l = some (stepMany Config.params (requestedSpl s) v)) ∧
        (∀ l, s.lanes.toNat ≤ l → t.lsb.read l = s.lsb.read l) ∧
        t = succeeded (requestedData s)
          { s with
            lsb := t.lsb
            ob := t.ob
            n := BitVec.ofNat 32 (requestedCount s)
            spl := BitVec.ofNat 32 (requestedSpl s) })

/-- Schedule invariance, rule R207: the pseudocode of rule R201 run over the lanes in any order, writing each value to its
own element, leaves the lane state buffer and the output buffer of the model's GENERATE, with every element written. -/
def Obligations.GenerateScheduleInvariance : Prop :=
  ∀ (dt : Dtype) (s t : State) (ob : OutBuf) (d : DWord) (order : List Nat), s.lsb.wf →
    exec (.generate dt) s = .next t → t.response = some ⟨.ok, d⟩ → t.ob = some ob →
    order.Perm (List.range s.lanes.toNat) →
    scatterRun Config.params dt s.lanes.toNat t.n.toNat t.spl.toNat order s.lsb = (t.lsb, ob.elems.map some)

/-- Resumable generation, rule R209: where L divides n, two GENERATE commands give the elements of one GENERATE of twice
the count, and leave the same lanes. -/
def Obligations.GenerateIsResumable : Prop :=
  ∀ (dt : Dtype) (s s' t w : State) (a c : OutBuf) (d d' : DWord),
    exec (.generate dt) s = .next t → t.response = some ⟨.ok, d⟩ → t.ob = some a →
    s.lanes.toNat ∣ requestedCount s → s'.lsb = s.lsb → s'.lanes = s.lanes →
    requestedCount s' = 2 * requestedCount s →
    exec (.generate dt) s' = .next w → w.response = some ⟨.ok, d'⟩ → w.ob = some c →
    ∃ (u : State) (b : OutBuf), exec (.generate dt) t = .next u ∧ u.ob = some b ∧
      c.elems = a.elems ++ b.elems ∧ u.lsb = w.lsb

/-- Serial and parallel agreement, rule R210: element e of a GENERATE over L lanes is element e div L of a GENERATE over
one lane that holds the State Vector of lane e mod L. -/
def Obligations.GenerateMatchesSerial : Prop :=
  ∀ (dt : Dtype) (s s' t t' : State) (ob ob' : OutBuf) (d d' : DWord) (e : Nat),
    exec (.generate dt) s = .next t → t.response = some ⟨.ok, d⟩ → t.ob = some ob → e < requestedCount s →
    s'.lanes.toNat = 1 → s'.lsb.read 0 = s.lsb.read (e % s.lanes.toNat) → e / s.lanes.toNat < requestedCount s' →
    exec (.generate dt) s' = .next t' → t'.response = some ⟨.ok, d'⟩ → t'.ob = some ob' →
    ob.elems[e]? = ob'.elems[e / s.lanes.toNat]?

/-- Output domain, rule R211: every element of a new output buffer is the conversion of a raw value and a finite number
of the buffer's format strictly between 0 and 1. -/
def Obligations.GenerateOutputDomain : Prop :=
  ∀ (dt : Dtype) (s t : State) (ob : OutBuf) (d : DWord), exec (.generate dt) s = .next t →
    t.response = some ⟨.ok, d⟩ → t.ob = some ob → ∀ x ∈ ob.elems,
      (∃ z, z < 4294967087 ∧ x = toFloat dt z) ∧ elementDtype x = ob.dtype ∧ inOpenInterval x

/-! ## System access -/

/-- NOP, `46_system_access.md` rule R250: nothing changes but STATUS. -/
def Obligations.NopResult : Prop :=
  encode .nop = 0 ∧ (∀ cw : DWord, opNumber cw = 0x00 → cw ≠ 0 → rejected cw) ∧
  ∀ s : State, exec .nop s = .next (succeeded 0 s)

/-- SRESET, rule R254: every piece of state takes its reset value; the host's further actions are the host's. -/
def Obligations.SresetResult : Prop :=
  encode .sreset = 0x0100000000000000 ∧
  (∀ cw : DWord, opNumber cw = 0x01 → cw ≠ encode .sreset → rejected cw) ∧
  ∀ s : State, exec .sreset s = .next (succeeded 0 { State.reset with host := s.host })

/-- WRREG, rule R251: the named register takes the value and nothing else changes; a register that is read-only to WRREG
is illegal. -/
def Obligations.WrregResult : Prop :=
  (∀ cw : DWord, opNumber cw = 0x02 → (∀ n ∈ writableNumbers, ∀ v : Word, cw ≠ wordOf 0x02 n v.toNat) → rejected cw) ∧
  ∀ (v : Word) (s : State),
    (∀ q ∈ registerNumbers, encode (.wrreg q.2 v) = wordOf 0x02 q.1 v.toNat) ∧
    exec (.wrreg .a v) s = .next (succeeded 0 { s with a := v }) ∧
    exec (.wrreg .b v) s = .next (succeeded 0 { s with b := v }) ∧
    exec (.wrreg .c v) s = .next (succeeded 0 { s with c := v }) ∧
    exec (.wrreg .s0 v) s = .next (succeeded 0 { s with s0 := v }) ∧
    exec (.wrreg .s1 v) s = .next (succeeded 0 { s with s1 := v }) ∧
    exec (.wrreg .s2 v) s = .next (succeeded 0 { s with s2 := v }) ∧
    exec (.wrreg .s3 v) s = .next (succeeded 0 { s with s3 := v }) ∧
    exec (.wrreg .s4 v) s = .next (succeeded 0 { s with s4 := v }) ∧
    exec (.wrreg .s5 v) s = .next (succeeded 0 { s with s5 := v }) ∧
    exec (.wrreg .seedw v) s = .next (succeeded 0 { s with seedw := v }) ∧
    exec (.wrreg .nstreams v) s = .next (succeeded 0 { s with nstreams := v }) ∧
    exec (.wrreg .nsub v) s = .next (succeeded 0 { s with nsub := v }) ∧
    exec (.wrreg .lanes v) s = .next (succeeded 0 { s with lanes := v }) ∧
    exec (.wrreg .rank v) s = .next (succeeded 0 { s with rank := v }) ∧
    (∀ reg : Reg, reg ∈ [Reg.r, .f, .status, .esticky, .n, .spl, .id, .version] ∨ (∃ k, reg = .dim k) →
      exec (.wrreg reg v) s = .next (failed .errIllegal 7 s))

/-- RDREG, rule R252: the response is the register zero-extended to 64 bits as it stood before the command; nothing else
changes. -/
def Obligations.RdregResult : Prop :=
  (∀ cw : DWord, opNumber cw = 0x03 → (∀ q ∈ registerNumbers, cw ≠ wordOf 0x03 q.1 0) → rejected cw) ∧
  (∀ q ∈ registerNumbers, encode (.rdreg q.2) = wordOf 0x03 q.1 0) ∧
  ∀ s : State,
    (∀ reg : Reg, exec (.rdreg reg) s = .next (succeeded (readReg reg s) s)) ∧
    readReg .a s = s.a.setWidth 64 ∧ readReg .b s = s.b.setWidth 64 ∧ readReg .c s = s.c.setWidth 64 ∧
    readReg .r s = s.r.setWidth 64 ∧ readReg .f s = s.f ∧
    readReg .s0 s = s.s0.setWidth 64 ∧ readReg .s1 s = s.s1.setWidth 64 ∧ readReg .s2 s = s.s2.setWidth 64 ∧
    readReg .s3 s = s.s3.setWidth 64 ∧ readReg .s4 s = s.s4.setWidth 64 ∧ readReg .s5 s = s.s5.setWidth 64 ∧
    readReg .seedw s = s.seedw.setWidth 64 ∧ readReg .nstreams s = s.nstreams.setWidth 64 ∧
    readReg .nsub s = s.nsub.setWidth 64 ∧ readReg .lanes s = s.lanes.setWidth 64 ∧
    readReg .rank s = s.rank.setWidth 64 ∧ (∀ k : Fin 8, readReg (.dim k) s = s.dims[k]) ∧
    readReg .status s = s.status.setWidth 64 ∧ readReg .esticky s = s.esticky.setWidth 64 ∧
    readReg .n s = s.n.setWidth 64 ∧ readReg .spl s = s.spl.setWidth 64 ∧
    readReg .id s = 0x4D524755 ∧ readReg .version s = 7

/-- RDCONST, rule R253 over the index map of `20_memory.md` rule R61: the parameters and coefficients, the matrix words
16 + 18·t + 9·p + 3·i + j, and every other index illegal. -/
def Obligations.RdconstResult : Prop :=
  (∀ cw : DWord, opNumber cw = 0x04 →
    (∀ i, i ≤ 5 ∨ 8 ≤ i ∧ i ≤ 13 ∨ 16 ≤ i ∧ i ≤ 87 → cw ≠ wordOf 0x04 0 i) → rejected cw) ∧
  ∀ s : State,
    (∀ index : Word, encode (.rdconst index) = wordOf 0x04 0 index.toNat) ∧
    exec (.rdconst 0) s = .next (succeeded 4294967087 s) ∧
    exec (.rdconst 1) s = .next (succeeded 4294944443 s) ∧
    exec (.rdconst 2) s = .next (succeeded (BitVec.ofNat 64 Config.params.nMax) s) ∧
    exec (.rdconst 3) s = .next (succeeded (BitVec.ofNat 64 Config.params.lanesMax) s) ∧
    exec (.rdconst 4) s = .next (succeeded (BitVec.ofNat 64 Config.params.rankMax) s) ∧
    exec (.rdconst 5) s = .next (succeeded (BitVec.ofNat 64 Config.params.kMax) s) ∧
    exec (.rdconst 8) s = .next (succeeded (BitVec.ofNat 64 Config.params.a11) s) ∧
    exec (.rdconst 9) s = .next (succeeded (BitVec.ofNat 64 Config.params.a12) s) ∧
    exec (.rdconst 10) s = .next (succeeded (BitVec.ofNat 64 Config.params.a13) s) ∧
    exec (.rdconst 11) s = .next (succeeded (BitVec.ofNat 64 Config.params.a21) s) ∧
    exec (.rdconst 12) s = .next (succeeded (BitVec.ofNat 64 Config.params.a22) s) ∧
    exec (.rdconst 13) s = .next (succeeded (BitVec.ofNat 64 Config.params.a23) s) ∧
    (∀ (sel : MatSel) (t part i j : Nat), (sel, t) ∈ [(MatSel.a, 0), (.j67, 1), (.j72, 2), (.j134, 3)] → part < 2 →
      i < 3 → j < 3 →
      exec (.rdconst (BitVec.ofNat 32 (16 + 18 * t + 9 * part + 3 * i + j))) s =
        .next (succeeded
          (((if part = 0 then (stepPower Config.params (leap 0 sel)).1 else (stepPower Config.params (leap 0 sel)).2).entry
            (3 * i + j)).setWidth 64) s)) ∧
    (∀ index : Word, index.toNat ∈ [6, 7, 14, 15] ∨ 88 ≤ index.toNat →
      exec (.rdconst index) s = .next (failed .errIllegal 7 s))

/-! ## Units with other parameters -/

/-- `exec`, `decode`, `step` and `core` are the machine of the parameters of `00_scope.md` rule R7 at the record of the
defaults. That the model's one core has the defaults is its choice (assumption log entries 1 and 8). -/
def Obligations.CoreIsTheUnitWithDefaultParameters : Prop :=
  (∀ (i : Instr) (s : State), exec i s = execOf Config.params i s) ∧
  (∀ w : DWord, decode w = decodeOf Config.params w) ∧
  (∀ s : State, step s = stepOf Config.params s) ∧ Sys2Proof.core = coreOf Config.params

/-- In a unit with any parameters that rule R8 admits, every step completes and keeps the invariants of the state, and the
reset state has them. -/
def Obligations.EveryUnitKeepsItsInvariants : Prop :=
  ∀ p : Config.Params, p.Admissible → ConversionAdmissible p →
    StateOkOf p State.reset ∧
    (∀ s : State, ∃ t : State, stepOf p s = .next t) ∧
    (∀ s t : State, StateOkOf p s → stepOf p s = .next t → StateOkOf p t)

/-- In a unit with any parameters, a word decodes to a command exactly where the command is well-formed in that unit and
the word is its encoding. A dtype outside DTYPES is not well-formed (DEDUCED, assumption log entry 8). -/
def Obligations.EveryUnitDecodesItsEncodings : Prop :=
  ∀ (p : Config.Params) (w : DWord) (i : Instr),
    decodeOf p w = .ok i ↔ i.wellFormedOf p = true ∧ encode i = w

/-- The defaults of rule R7 meet the constraints of rule R8: (a) to (c) with the optional bound on N_MAX + LANES_MAX, and
(d), the properties of rule R135 that the default ToFloat of rule R136 has. -/
def Obligations.DefaultParametersAreAdmissible : Prop :=
  Config.params.Admissible ∧ Config.params.nMax + Config.params.lanesMax ≤ 2 ^ 32 ∧ ConversionAdmissible Config.params
end

