-- ==== Sys2Proof/Laws/Encoding.lean ====
section
/-! SUPPORT. The fields of a command word and the operand selectors: an assembled word reads back field by field, a word
with RSV = 0 is the assembly of its fields, and a selector that names an operand is the operand's own
(`30_encoding.md` rules R86, R91 to R95). -/

namespace Sys2Proof

/-! ## Fields -/

/-- A command word as a number. -/
theorem assemble_toNat (op sel : Byte) (imm : Word) :
    (assemble op sel imm).toNat = op.toNat * 2 ^ 56 + sel.toNat * 2 ^ 48 + imm.toNat := by
  have h1 := op.isLt
  have h2 := sel.isLt
  have h3 := imm.isLt
  simp only [assemble, BitVec.toNat_append, BitVec.toNat_ofNat]
  rw [← Nat.shiftLeft_add_eq_or_of_lt (by omega), ← Nat.shiftLeft_add_eq_or_of_lt (by omega),
    ← Nat.shiftLeft_add_eq_or_of_lt (by omega)]
  simp only [Nat.shiftLeft_eq]
  omega

@[simp] theorem opField_assemble (op sel : Byte) (imm : Word) : opField (assemble op sel imm) = op := by
  apply BitVec.eq_of_toNat_eq
  rw [opField, BitVec.extractLsb'_toNat, assemble_toNat, Nat.shiftRight_eq_div_pow]
  omega

@[simp] theorem selField_assemble (op sel : Byte) (imm : Word) : selField (assemble op sel imm) = sel := by
  apply BitVec.eq_of_toNat_eq
  rw [selField, BitVec.extractLsb'_toNat, assemble_toNat, Nat.shiftRight_eq_div_pow]
  omega

@[simp] theorem rsvField_assemble (op sel : Byte) (imm : Word) : rsvField (assemble op sel imm) = 0 := by
  apply BitVec.eq_of_toNat_eq
  rw [rsvField, BitVec.extractLsb'_toNat, assemble_toNat, Nat.shiftRight_eq_div_pow]
  show _ = 0
  omega

@[simp] theorem immField_assemble (op sel : Byte) (imm : Word) : immField (assemble op sel imm) = imm := by
  apply BitVec.eq_of_toNat_eq
  rw [immField, BitVec.extractLsb'_toNat, assemble_toNat, Nat.shiftRight_eq_div_pow]
  omega

/-- A word with RSV = 0 is the assembly of its other three fields. -/
theorem assemble_fields (w : DWord) (h : rsvField w = 0) : assemble (opField w) (selField w) (immField w) = w := by
  have h' : w.toNat / 2 ^ 32 % 2 ^ 16 = 0 := by
    have := congrArg BitVec.toNat h
    rwa [rsvField, BitVec.extractLsb'_toNat, Nat.shiftRight_eq_div_pow] at this
  apply BitVec.eq_of_toNat_eq
  rw [assemble_toNat, opField, selField, immField]
  simp only [BitVec.extractLsb'_toNat, Nat.shiftRight_eq_div_pow]
  omega

/-- The SEL field as the opcode table numbers it. -/
theorem assemble_sel (op sel : Byte) (imm : Word) : (assemble op sel imm).toNat / 2 ^ 48 % 2 ^ 8 = sel.toNat := by
  rw [assemble_toNat]
  omega

/-- The IMM field as the opcode table numbers it. -/
theorem assemble_imm (op sel : Byte) (imm : Word) : (assemble op sel imm).toNat % 2 ^ 32 = imm.toNat := by
  rw [assemble_toNat]
  omega

/-- A mask acts on an assembled word field by field. -/
theorem assemble_and (op sel mop msel : Byte) (imm mimm : Word) (mrsv : BitVec 16) :
    assemble op sel imm &&& (mop ++ msel ++ mrsv ++ mimm) = assemble (op &&& mop) (sel &&& msel) (imm &&& mimm) := by
  rw [assemble, assemble, BitVec.and_append, BitVec.and_append, BitVec.and_append, BitVec.zero_and]

/-- Decoding an assembled word looks at its three fields. -/
theorem decode_assemble (p : Config.Params) (op sel : Byte) (imm : Word) :
    decodeOf p (assemble op sel imm) = decodeFieldsOf p op sel imm := by
  simp [decodeOf]

/-! ## Operand selectors -/

theorem Reg.number_ofNumber (reg : Reg) : Reg.ofNumber reg.number = some reg := by
  cases reg with
  | dim k => revert k; decide
  | _ => rfl

theorem Reg.ofNumber_eq_some {sel : Byte} {reg : Reg} (h : Reg.ofNumber sel = some reg) : reg.number = sel := by
  unfold Reg.ofNumber at h
  split at h <;> cases h <;> (apply BitVec.eq_of_toNat_eq; rename_i h; rw [h]; rfl)

theorem Modulus.ofSel_eq_some {sel : Byte} {m : Modulus} (h : Modulus.ofSel sel = some m) : m.sel = sel := by
  unfold Modulus.ofSel at h
  split at h <;> cases h <;> (apply BitVec.eq_of_toNat_eq; rename_i h; rw [h]; rfl)

theorem Dtype.ofSel_eq_some {sel : Byte} {dt : Dtype} (h : Dtype.ofSel sel = some dt) : dt.sel = sel := by
  unfold Dtype.ofSel at h
  split at h <;> cases h <;> (apply BitVec.eq_of_toNat_eq; rename_i h; rw [h]; rfl)

/-- A dtype selector names a format of the unit, and only by that format's number. -/
theorem supportedDtype_eq_some {p : Config.Params} {sel : Byte} {dt : Dtype} :
    supportedDtype p sel = some dt ↔ p.dtypes.contains dt = true ∧ dt.sel = sel := by
  have hsel : Dtype.ofSel dt.sel = some dt := by cases dt <;> rfl
  constructor
  · intro h
    unfold supportedDtype at h
    split at h
    · rename_i d hd
      split at h
      · rename_i hc
        cases h
        exact ⟨hc, Dtype.ofSel_eq_some hd⟩
      · cases h
    · cases h
  · rintro ⟨hc, rfl⟩
    simp only [supportedDtype, hsel, hc, if_true]

theorem MatSel.ofJumpSel_eq_some {sel : Byte} {ms : MatSel} (h : MatSel.ofJumpSel sel = some ms) : ms.sel = sel := by
  unfold MatSel.ofJumpSel at h
  split at h <;> cases h <;> (apply BitVec.eq_of_toNat_eq; rename_i h; rw [h]; rfl)

theorem MatSel.ofMatrixSel_eq_some {sel : Byte} {ms : MatSel} (h : MatSel.ofMatrixSel sel = some ms) :
    ms.sel = sel ∧ ms ≠ .w := by
  unfold MatSel.ofMatrixSel at h
  split at h <;> cases h <;> (refine ⟨?_, by decide⟩; apply BitVec.eq_of_toNat_eq; rename_i h; rw [h]; rfl)

theorem StateWord.ofSel_eq_some {sel : Byte} {w : StateWord} (h : StateWord.ofSel sel = some w) : w.sel = sel := by
  unfold StateWord.ofSel at h
  split at h <;> cases h <;> (apply BitVec.eq_of_toNat_eq; rename_i h; rw [h]; rfl)

theorem dimensionOfSel_eq_some {sel : Byte} {k : Fin 8} (h : dimensionOfSel sel = some k) :
    BitVec.ofNat 8 k.val = sel := by
  unfold dimensionOfSel at h
  split at h <;> cases h
  simp

/-! ## Formats -/

theorem formatZ_eq_ok {sel : Byte} {imm : Word} {i j : Instr} (h : formatZ sel imm i = .ok j) :
    sel = 0 ∧ imm = 0 ∧ i = j := by
  unfold formatZ at h
  split at h
  · cases h
  · split at h
    · cases h
    · simp_all

theorem formatS_eq_ok {imm : Word} {o : Except Illegal Instr} {i : Instr} (h : formatS imm o = .ok i) :
    imm = 0 ∧ o = .ok i := by
  unfold formatS at h
  split at h
  · cases h
  · simp_all

theorem formatI_eq_ok {sel : Byte} {o : Except Illegal Instr} {i : Instr} (h : formatI sel o = .ok i) :
    sel = 0 ∧ o = .ok i := by
  unfold formatI at h
  split at h
  · cases h
  · simp_all

theorem operand_eq_ok {α : Type} {o : Option α} {why : Illegal} {k : α → Instr} {i : Instr}
    (h : operand o why k = .ok i) : ∃ x, o = some x ∧ k x = i := by
  unfold operand at h
  split at h
  · simp_all
  · cases h

end Sys2Proof
end

