-- ==== Sys2Proof/Laws/State.lean ====
section
/-! SUPPORT. One lemma per field of the state for each named update of `Machine/Ops.lean`, so that no proof unfolds a
record update. -/

namespace Sys2Proof.Machine

section
variable (s : State)

@[simp] theorem respond_a (d : DWord) : (respond d s).a = s.a := rfl
@[simp] theorem respond_b (d : DWord) : (respond d s).b = s.b := rfl
@[simp] theorem respond_c (d : DWord) : (respond d s).c = s.c := rfl
@[simp] theorem respond_r (d : DWord) : (respond d s).r = s.r := rfl
@[simp] theorem respond_f (d : DWord) : (respond d s).f = s.f := rfl
@[simp] theorem respond_s0 (d : DWord) : (respond d s).s0 = s.s0 := rfl
@[simp] theorem respond_s1 (d : DWord) : (respond d s).s1 = s.s1 := rfl
@[simp] theorem respond_s2 (d : DWord) : (respond d s).s2 = s.s2 := rfl
@[simp] theorem respond_s3 (d : DWord) : (respond d s).s3 = s.s3 := rfl
@[simp] theorem respond_s4 (d : DWord) : (respond d s).s4 = s.s4 := rfl
@[simp] theorem respond_s5 (d : DWord) : (respond d s).s5 = s.s5 := rfl
@[simp] theorem respond_seedw (d : DWord) : (respond d s).seedw = s.seedw := rfl
@[simp] theorem respond_nstreams (d : DWord) : (respond d s).nstreams = s.nstreams := rfl
@[simp] theorem respond_nsub (d : DWord) : (respond d s).nsub = s.nsub := rfl
@[simp] theorem respond_lanes (d : DWord) : (respond d s).lanes = s.lanes := rfl
@[simp] theorem respond_rank (d : DWord) : (respond d s).rank = s.rank := rfl
@[simp] theorem respond_dims (d : DWord) : (respond d s).dims = s.dims := rfl
@[simp] theorem respond_status (d : DWord) : (respond d s).status = Status.ok.code := rfl
@[simp] theorem respond_esticky (d : DWord) : (respond d s).esticky = s.esticky := rfl
@[simp] theorem respond_n (d : DWord) : (respond d s).n = s.n := rfl
@[simp] theorem respond_spl (d : DWord) : (respond d s).spl = s.spl := rfl
@[simp] theorem respond_w1 (d : DWord) : (respond d s).w1 = s.w1 := rfl
@[simp] theorem respond_w2 (d : DWord) : (respond d s).w2 = s.w2 := rfl
@[simp] theorem respond_lsb (d : DWord) : (respond d s).lsb = s.lsb := rfl
@[simp] theorem respond_ob (d : DWord) : (respond d s).ob = s.ob := rfl
@[simp] theorem respond_host (d : DWord) : (respond d s).host = s.host := rfl
@[simp] theorem respond_response (d : DWord) : (respond d s).response = some ⟨.ok, d⟩ := rfl

@[simp] theorem raise_a (e : Status) : (raise e s).a = s.a := rfl
@[simp] theorem raise_b (e : Status) : (raise e s).b = s.b := rfl
@[simp] theorem raise_c (e : Status) : (raise e s).c = s.c := rfl
@[simp] theorem raise_r (e : Status) : (raise e s).r = s.r := rfl
@[simp] theorem raise_f (e : Status) : (raise e s).f = s.f := rfl
@[simp] theorem raise_s0 (e : Status) : (raise e s).s0 = s.s0 := rfl
@[simp] theorem raise_s1 (e : Status) : (raise e s).s1 = s.s1 := rfl
@[simp] theorem raise_s2 (e : Status) : (raise e s).s2 = s.s2 := rfl
@[simp] theorem raise_s3 (e : Status) : (raise e s).s3 = s.s3 := rfl
@[simp] theorem raise_s4 (e : Status) : (raise e s).s4 = s.s4 := rfl
@[simp] theorem raise_s5 (e : Status) : (raise e s).s5 = s.s5 := rfl
@[simp] theorem raise_seedw (e : Status) : (raise e s).seedw = s.seedw := rfl
@[simp] theorem raise_nstreams (e : Status) : (raise e s).nstreams = s.nstreams := rfl
@[simp] theorem raise_nsub (e : Status) : (raise e s).nsub = s.nsub := rfl
@[simp] theorem raise_lanes (e : Status) : (raise e s).lanes = s.lanes := rfl
@[simp] theorem raise_rank (e : Status) : (raise e s).rank = s.rank := rfl
@[simp] theorem raise_dims (e : Status) : (raise e s).dims = s.dims := rfl
@[simp] theorem raise_status (e : Status) : (raise e s).status = e.code := rfl
@[simp] theorem raise_esticky (e : Status) : (raise e s).esticky = estickyAfter s.esticky e := rfl
@[simp] theorem raise_n (e : Status) : (raise e s).n = s.n := rfl
@[simp] theorem raise_spl (e : Status) : (raise e s).spl = s.spl := rfl
@[simp] theorem raise_w1 (e : Status) : (raise e s).w1 = s.w1 := rfl
@[simp] theorem raise_w2 (e : Status) : (raise e s).w2 = s.w2 := rfl
@[simp] theorem raise_lsb (e : Status) : (raise e s).lsb = s.lsb := rfl
@[simp] theorem raise_ob (e : Status) : (raise e s).ob = s.ob := rfl
@[simp] theorem raise_host (e : Status) : (raise e s).host = s.host := rfl
@[simp] theorem raise_response (e : Status) : (raise e s).response = some ⟨e, 0⟩ := rfl

@[simp] theorem setR_a (v : Word) : (setR v s).a = s.a := rfl
@[simp] theorem setR_b (v : Word) : (setR v s).b = s.b := rfl
@[simp] theorem setR_c (v : Word) : (setR v s).c = s.c := rfl
@[simp] theorem setR_r (v : Word) : (setR v s).r = v := rfl
@[simp] theorem setR_f (v : Word) : (setR v s).f = s.f := rfl
@[simp] theorem setR_s0 (v : Word) : (setR v s).s0 = s.s0 := rfl
@[simp] theorem setR_s1 (v : Word) : (setR v s).s1 = s.s1 := rfl
@[simp] theorem setR_s2 (v : Word) : (setR v s).s2 = s.s2 := rfl
@[simp] theorem setR_s3 (v : Word) : (setR v s).s3 = s.s3 := rfl
@[simp] theorem setR_s4 (v : Word) : (setR v s).s4 = s.s4 := rfl
@[simp] theorem setR_s5 (v : Word) : (setR v s).s5 = s.s5 := rfl
@[simp] theorem setR_seedw (v : Word) : (setR v s).seedw = s.seedw := rfl
@[simp] theorem setR_nstreams (v : Word) : (setR v s).nstreams = s.nstreams := rfl
@[simp] theorem setR_nsub (v : Word) : (setR v s).nsub = s.nsub := rfl
@[simp] theorem setR_lanes (v : Word) : (setR v s).lanes = s.lanes := rfl
@[simp] theorem setR_rank (v : Word) : (setR v s).rank = s.rank := rfl
@[simp] theorem setR_dims (v : Word) : (setR v s).dims = s.dims := rfl
@[simp] theorem setR_status (v : Word) : (setR v s).status = s.status := rfl
@[simp] theorem setR_esticky (v : Word) : (setR v s).esticky = s.esticky := rfl
@[simp] theorem setR_n (v : Word) : (setR v s).n = s.n := rfl
@[simp] theorem setR_spl (v : Word) : (setR v s).spl = s.spl := rfl
@[simp] theorem setR_w1 (v : Word) : (setR v s).w1 = s.w1 := rfl
@[simp] theorem setR_w2 (v : Word) : (setR v s).w2 = s.w2 := rfl
@[simp] theorem setR_lsb (v : Word) : (setR v s).lsb = s.lsb := rfl
@[simp] theorem setR_ob (v : Word) : (setR v s).ob = s.ob := rfl
@[simp] theorem setR_host (v : Word) : (setR v s).host = s.host := rfl
@[simp] theorem setR_response (v : Word) : (setR v s).response = s.response := rfl

@[simp] theorem setF_a (v : DWord) : (setF v s).a = s.a := rfl
@[simp] theorem setF_b (v : DWord) : (setF v s).b = s.b := rfl
@[simp] theorem setF_c (v : DWord) : (setF v s).c = s.c := rfl
@[simp] theorem setF_r (v : DWord) : (setF v s).r = s.r := rfl
@[simp] theorem setF_f (v : DWord) : (setF v s).f = v := rfl
@[simp] theorem setF_s0 (v : DWord) : (setF v s).s0 = s.s0 := rfl
@[simp] theorem setF_s1 (v : DWord) : (setF v s).s1 = s.s1 := rfl
@[simp] theorem setF_s2 (v : DWord) : (setF v s).s2 = s.s2 := rfl
@[simp] theorem setF_s3 (v : DWord) : (setF v s).s3 = s.s3 := rfl
@[simp] theorem setF_s4 (v : DWord) : (setF v s).s4 = s.s4 := rfl
@[simp] theorem setF_s5 (v : DWord) : (setF v s).s5 = s.s5 := rfl
@[simp] theorem setF_seedw (v : DWord) : (setF v s).seedw = s.seedw := rfl
@[simp] theorem setF_nstreams (v : DWord) : (setF v s).nstreams = s.nstreams := rfl
@[simp] theorem setF_nsub (v : DWord) : (setF v s).nsub = s.nsub := rfl
@[simp] theorem setF_lanes (v : DWord) : (setF v s).lanes = s.lanes := rfl
@[simp] theorem setF_rank (v : DWord) : (setF v s).rank = s.rank := rfl
@[simp] theorem setF_dims (v : DWord) : (setF v s).dims = s.dims := rfl
@[simp] theorem setF_status (v : DWord) : (setF v s).status = s.status := rfl
@[simp] theorem setF_esticky (v : DWord) : (setF v s).esticky = s.esticky := rfl
@[simp] theorem setF_n (v : DWord) : (setF v s).n = s.n := rfl
@[simp] theorem setF_spl (v : DWord) : (setF v s).spl = s.spl := rfl
@[simp] theorem setF_w1 (v : DWord) : (setF v s).w1 = s.w1 := rfl
@[simp] theorem setF_w2 (v : DWord) : (setF v s).w2 = s.w2 := rfl
@[simp] theorem setF_lsb (v : DWord) : (setF v s).lsb = s.lsb := rfl
@[simp] theorem setF_ob (v : DWord) : (setF v s).ob = s.ob := rfl
@[simp] theorem setF_host (v : DWord) : (setF v s).host = s.host := rfl
@[simp] theorem setF_response (v : DWord) : (setF v s).response = s.response := rfl

@[simp] theorem setDim_a (k : Fin 8) (v : DWord) : (setDim k v s).a = s.a := rfl
@[simp] theorem setDim_b (k : Fin 8) (v : DWord) : (setDim k v s).b = s.b := rfl
@[simp] theorem setDim_c (k : Fin 8) (v : DWord) : (setDim k v s).c = s.c := rfl
@[simp] theorem setDim_r (k : Fin 8) (v : DWord) : (setDim k v s).r = s.r := rfl
@[simp] theorem setDim_f (k : Fin 8) (v : DWord) : (setDim k v s).f = s.f := rfl
@[simp] theorem setDim_s0 (k : Fin 8) (v : DWord) : (setDim k v s).s0 = s.s0 := rfl
@[simp] theorem setDim_s1 (k : Fin 8) (v : DWord) : (setDim k v s).s1 = s.s1 := rfl
@[simp] theorem setDim_s2 (k : Fin 8) (v : DWord) : (setDim k v s).s2 = s.s2 := rfl
@[simp] theorem setDim_s3 (k : Fin 8) (v : DWord) : (setDim k v s).s3 = s.s3 := rfl
@[simp] theorem setDim_s4 (k : Fin 8) (v : DWord) : (setDim k v s).s4 = s.s4 := rfl
@[simp] theorem setDim_s5 (k : Fin 8) (v : DWord) : (setDim k v s).s5 = s.s5 := rfl
@[simp] theorem setDim_seedw (k : Fin 8) (v : DWord) : (setDim k v s).seedw = s.seedw := rfl
@[simp] theorem setDim_nstreams (k : Fin 8) (v : DWord) : (setDim k v s).nstreams = s.nstreams := rfl
@[simp] theorem setDim_nsub (k : Fin 8) (v : DWord) : (setDim k v s).nsub = s.nsub := rfl
@[simp] theorem setDim_lanes (k : Fin 8) (v : DWord) : (setDim k v s).lanes = s.lanes := rfl
@[simp] theorem setDim_rank (k : Fin 8) (v : DWord) : (setDim k v s).rank = s.rank := rfl
@[simp] theorem setDim_dims (k : Fin 8) (v : DWord) : (setDim k v s).dims = s.dims.set k v := rfl
@[simp] theorem setDim_status (k : Fin 8) (v : DWord) : (setDim k v s).status = s.status := rfl
@[simp] theorem setDim_esticky (k : Fin 8) (v : DWord) : (setDim k v s).esticky = s.esticky := rfl
@[simp] theorem setDim_n (k : Fin 8) (v : DWord) : (setDim k v s).n = s.n := rfl
@[simp] theorem setDim_spl (k : Fin 8) (v : DWord) : (setDim k v s).spl = s.spl := rfl
@[simp] theorem setDim_w1 (k : Fin 8) (v : DWord) : (setDim k v s).w1 = s.w1 := rfl
@[simp] theorem setDim_w2 (k : Fin 8) (v : DWord) : (setDim k v s).w2 = s.w2 := rfl
@[simp] theorem setDim_lsb (k : Fin 8) (v : DWord) : (setDim k v s).lsb = s.lsb := rfl
@[simp] theorem setDim_ob (k : Fin 8) (v : DWord) : (setDim k v s).ob = s.ob := rfl
@[simp] theorem setDim_host (k : Fin 8) (v : DWord) : (setDim k v s).host = s.host := rfl
@[simp] theorem setDim_response (k : Fin 8) (v : DWord) : (setDim k v s).response = s.response := rfl

@[simp] theorem setCounts_a (c l : Word) : (setCounts c l s).a = s.a := rfl
@[simp] theorem setCounts_b (c l : Word) : (setCounts c l s).b = s.b := rfl
@[simp] theorem setCounts_c (c l : Word) : (setCounts c l s).c = s.c := rfl
@[simp] theorem setCounts_r (c l : Word) : (setCounts c l s).r = s.r := rfl
@[simp] theorem setCounts_f (c l : Word) : (setCounts c l s).f = s.f := rfl
@[simp] theorem setCounts_s0 (c l : Word) : (setCounts c l s).s0 = s.s0 := rfl
@[simp] theorem setCounts_s1 (c l : Word) : (setCounts c l s).s1 = s.s1 := rfl
@[simp] theorem setCounts_s2 (c l : Word) : (setCounts c l s).s2 = s.s2 := rfl
@[simp] theorem setCounts_s3 (c l : Word) : (setCounts c l s).s3 = s.s3 := rfl
@[simp] theorem setCounts_s4 (c l : Word) : (setCounts c l s).s4 = s.s4 := rfl
@[simp] theorem setCounts_s5 (c l : Word) : (setCounts c l s).s5 = s.s5 := rfl
@[simp] theorem setCounts_seedw (c l : Word) : (setCounts c l s).seedw = s.seedw := rfl
@[simp] theorem setCounts_nstreams (c l : Word) : (setCounts c l s).nstreams = s.nstreams := rfl
@[simp] theorem setCounts_nsub (c l : Word) : (setCounts c l s).nsub = s.nsub := rfl
@[simp] theorem setCounts_lanes (c l : Word) : (setCounts c l s).lanes = s.lanes := rfl
@[simp] theorem setCounts_rank (c l : Word) : (setCounts c l s).rank = s.rank := rfl
@[simp] theorem setCounts_dims (c l : Word) : (setCounts c l s).dims = s.dims := rfl
@[simp] theorem setCounts_status (c l : Word) : (setCounts c l s).status = s.status := rfl
@[simp] theorem setCounts_esticky (c l : Word) : (setCounts c l s).esticky = s.esticky := rfl
@[simp] theorem setCounts_n (c l : Word) : (setCounts c l s).n = c := rfl
@[simp] theorem setCounts_spl (c l : Word) : (setCounts c l s).spl = l := rfl
@[simp] theorem setCounts_w1 (c l : Word) : (setCounts c l s).w1 = s.w1 := rfl
@[simp] theorem setCounts_w2 (c l : Word) : (setCounts c l s).w2 = s.w2 := rfl
@[simp] theorem setCounts_lsb (c l : Word) : (setCounts c l s).lsb = s.lsb := rfl
@[simp] theorem setCounts_ob (c l : Word) : (setCounts c l s).ob = s.ob := rfl
@[simp] theorem setCounts_host (c l : Word) : (setCounts c l s).host = s.host := rfl
@[simp] theorem setCounts_response (c l : Word) : (setCounts c l s).response = s.response := rfl

@[simp] theorem setW_a (w : Mat3 × Mat3) : (setW w s).a = s.a := rfl
@[simp] theorem setW_b (w : Mat3 × Mat3) : (setW w s).b = s.b := rfl
@[simp] theorem setW_c (w : Mat3 × Mat3) : (setW w s).c = s.c := rfl
@[simp] theorem setW_r (w : Mat3 × Mat3) : (setW w s).r = s.r := rfl
@[simp] theorem setW_f (w : Mat3 × Mat3) : (setW w s).f = s.f := rfl
@[simp] theorem setW_s0 (w : Mat3 × Mat3) : (setW w s).s0 = s.s0 := rfl
@[simp] theorem setW_s1 (w : Mat3 × Mat3) : (setW w s).s1 = s.s1 := rfl
@[simp] theorem setW_s2 (w : Mat3 × Mat3) : (setW w s).s2 = s.s2 := rfl
@[simp] theorem setW_s3 (w : Mat3 × Mat3) : (setW w s).s3 = s.s3 := rfl
@[simp] theorem setW_s4 (w : Mat3 × Mat3) : (setW w s).s4 = s.s4 := rfl
@[simp] theorem setW_s5 (w : Mat3 × Mat3) : (setW w s).s5 = s.s5 := rfl
@[simp] theorem setW_seedw (w : Mat3 × Mat3) : (setW w s).seedw = s.seedw := rfl
@[simp] theorem setW_nstreams (w : Mat3 × Mat3) : (setW w s).nstreams = s.nstreams := rfl
@[simp] theorem setW_nsub (w : Mat3 × Mat3) : (setW w s).nsub = s.nsub := rfl
@[simp] theorem setW_lanes (w : Mat3 × Mat3) : (setW w s).lanes = s.lanes := rfl
@[simp] theorem setW_rank (w : Mat3 × Mat3) : (setW w s).rank = s.rank := rfl
@[simp] theorem setW_dims (w : Mat3 × Mat3) : (setW w s).dims = s.dims := rfl
@[simp] theorem setW_status (w : Mat3 × Mat3) : (setW w s).status = s.status := rfl
@[simp] theorem setW_esticky (w : Mat3 × Mat3) : (setW w s).esticky = s.esticky := rfl
@[simp] theorem setW_n (w : Mat3 × Mat3) : (setW w s).n = s.n := rfl
@[simp] theorem setW_spl (w : Mat3 × Mat3) : (setW w s).spl = s.spl := rfl
@[simp] theorem setW_w1 (w : Mat3 × Mat3) : (setW w s).w1 = w.1 := rfl
@[simp] theorem setW_w2 (w : Mat3 × Mat3) : (setW w s).w2 = w.2 := rfl
@[simp] theorem setW_lsb (w : Mat3 × Mat3) : (setW w s).lsb = s.lsb := rfl
@[simp] theorem setW_ob (w : Mat3 × Mat3) : (setW w s).ob = s.ob := rfl
@[simp] theorem setW_host (w : Mat3 × Mat3) : (setW w s).host = s.host := rfl
@[simp] theorem setW_response (w : Mat3 × Mat3) : (setW w s).response = s.response := rfl

@[simp] theorem setLsb_a (mem : Memory) : (setLsb mem s).a = s.a := rfl
@[simp] theorem setLsb_b (mem : Memory) : (setLsb mem s).b = s.b := rfl
@[simp] theorem setLsb_c (mem : Memory) : (setLsb mem s).c = s.c := rfl
@[simp] theorem setLsb_r (mem : Memory) : (setLsb mem s).r = s.r := rfl
@[simp] theorem setLsb_f (mem : Memory) : (setLsb mem s).f = s.f := rfl
@[simp] theorem setLsb_s0 (mem : Memory) : (setLsb mem s).s0 = s.s0 := rfl
@[simp] theorem setLsb_s1 (mem : Memory) : (setLsb mem s).s1 = s.s1 := rfl
@[simp] theorem setLsb_s2 (mem : Memory) : (setLsb mem s).s2 = s.s2 := rfl
@[simp] theorem setLsb_s3 (mem : Memory) : (setLsb mem s).s3 = s.s3 := rfl
@[simp] theorem setLsb_s4 (mem : Memory) : (setLsb mem s).s4 = s.s4 := rfl
@[simp] theorem setLsb_s5 (mem : Memory) : (setLsb mem s).s5 = s.s5 := rfl
@[simp] theorem setLsb_seedw (mem : Memory) : (setLsb mem s).seedw = s.seedw := rfl
@[simp] theorem setLsb_nstreams (mem : Memory) : (setLsb mem s).nstreams = s.nstreams := rfl
@[simp] theorem setLsb_nsub (mem : Memory) : (setLsb mem s).nsub = s.nsub := rfl
@[simp] theorem setLsb_lanes (mem : Memory) : (setLsb mem s).lanes = s.lanes := rfl
@[simp] theorem setLsb_rank (mem : Memory) : (setLsb mem s).rank = s.rank := rfl
@[simp] theorem setLsb_dims (mem : Memory) : (setLsb mem s).dims = s.dims := rfl
@[simp] theorem setLsb_status (mem : Memory) : (setLsb mem s).status = s.status := rfl
@[simp] theorem setLsb_esticky (mem : Memory) : (setLsb mem s).esticky = s.esticky := rfl
@[simp] theorem setLsb_n (mem : Memory) : (setLsb mem s).n = s.n := rfl
@[simp] theorem setLsb_spl (mem : Memory) : (setLsb mem s).spl = s.spl := rfl
@[simp] theorem setLsb_w1 (mem : Memory) : (setLsb mem s).w1 = s.w1 := rfl
@[simp] theorem setLsb_w2 (mem : Memory) : (setLsb mem s).w2 = s.w2 := rfl
@[simp] theorem setLsb_lsb (mem : Memory) : (setLsb mem s).lsb = mem := rfl
@[simp] theorem setLsb_ob (mem : Memory) : (setLsb mem s).ob = s.ob := rfl
@[simp] theorem setLsb_host (mem : Memory) : (setLsb mem s).host = s.host := rfl
@[simp] theorem setLsb_response (mem : Memory) : (setLsb mem s).response = s.response := rfl

@[simp] theorem setOb_a (ob : OutBuf) : (setOb ob s).a = s.a := rfl
@[simp] theorem setOb_b (ob : OutBuf) : (setOb ob s).b = s.b := rfl
@[simp] theorem setOb_c (ob : OutBuf) : (setOb ob s).c = s.c := rfl
@[simp] theorem setOb_r (ob : OutBuf) : (setOb ob s).r = s.r := rfl
@[simp] theorem setOb_f (ob : OutBuf) : (setOb ob s).f = s.f := rfl
@[simp] theorem setOb_s0 (ob : OutBuf) : (setOb ob s).s0 = s.s0 := rfl
@[simp] theorem setOb_s1 (ob : OutBuf) : (setOb ob s).s1 = s.s1 := rfl
@[simp] theorem setOb_s2 (ob : OutBuf) : (setOb ob s).s2 = s.s2 := rfl
@[simp] theorem setOb_s3 (ob : OutBuf) : (setOb ob s).s3 = s.s3 := rfl
@[simp] theorem setOb_s4 (ob : OutBuf) : (setOb ob s).s4 = s.s4 := rfl
@[simp] theorem setOb_s5 (ob : OutBuf) : (setOb ob s).s5 = s.s5 := rfl
@[simp] theorem setOb_seedw (ob : OutBuf) : (setOb ob s).seedw = s.seedw := rfl
@[simp] theorem setOb_nstreams (ob : OutBuf) : (setOb ob s).nstreams = s.nstreams := rfl
@[simp] theorem setOb_nsub (ob : OutBuf) : (setOb ob s).nsub = s.nsub := rfl
@[simp] theorem setOb_lanes (ob : OutBuf) : (setOb ob s).lanes = s.lanes := rfl
@[simp] theorem setOb_rank (ob : OutBuf) : (setOb ob s).rank = s.rank := rfl
@[simp] theorem setOb_dims (ob : OutBuf) : (setOb ob s).dims = s.dims := rfl
@[simp] theorem setOb_status (ob : OutBuf) : (setOb ob s).status = s.status := rfl
@[simp] theorem setOb_esticky (ob : OutBuf) : (setOb ob s).esticky = s.esticky := rfl
@[simp] theorem setOb_n (ob : OutBuf) : (setOb ob s).n = s.n := rfl
@[simp] theorem setOb_spl (ob : OutBuf) : (setOb ob s).spl = s.spl := rfl
@[simp] theorem setOb_w1 (ob : OutBuf) : (setOb ob s).w1 = s.w1 := rfl
@[simp] theorem setOb_w2 (ob : OutBuf) : (setOb ob s).w2 = s.w2 := rfl
@[simp] theorem setOb_lsb (ob : OutBuf) : (setOb ob s).lsb = s.lsb := rfl
@[simp] theorem setOb_ob (ob : OutBuf) : (setOb ob s).ob = some ob := rfl
@[simp] theorem setOb_host (ob : OutBuf) : (setOb ob s).host = s.host := rfl
@[simp] theorem setOb_response (ob : OutBuf) : (setOb ob s).response = s.response := rfl

@[simp] theorem writeLane_a (l : Word) (v : StateVec) : (writeLane l v s).a = s.a := rfl
@[simp] theorem writeLane_b (l : Word) (v : StateVec) : (writeLane l v s).b = s.b := rfl
@[simp] theorem writeLane_c (l : Word) (v : StateVec) : (writeLane l v s).c = s.c := rfl
@[simp] theorem writeLane_r (l : Word) (v : StateVec) : (writeLane l v s).r = s.r := rfl
@[simp] theorem writeLane_f (l : Word) (v : StateVec) : (writeLane l v s).f = s.f := rfl
@[simp] theorem writeLane_s0 (l : Word) (v : StateVec) : (writeLane l v s).s0 = s.s0 := rfl
@[simp] theorem writeLane_s1 (l : Word) (v : StateVec) : (writeLane l v s).s1 = s.s1 := rfl
@[simp] theorem writeLane_s2 (l : Word) (v : StateVec) : (writeLane l v s).s2 = s.s2 := rfl
@[simp] theorem writeLane_s3 (l : Word) (v : StateVec) : (writeLane l v s).s3 = s.s3 := rfl
@[simp] theorem writeLane_s4 (l : Word) (v : StateVec) : (writeLane l v s).s4 = s.s4 := rfl
@[simp] theorem writeLane_s5 (l : Word) (v : StateVec) : (writeLane l v s).s5 = s.s5 := rfl
@[simp] theorem writeLane_seedw (l : Word) (v : StateVec) : (writeLane l v s).seedw = s.seedw := rfl
@[simp] theorem writeLane_nstreams (l : Word) (v : StateVec) : (writeLane l v s).nstreams = s.nstreams := rfl
@[simp] theorem writeLane_nsub (l : Word) (v : StateVec) : (writeLane l v s).nsub = s.nsub := rfl
@[simp] theorem writeLane_lanes (l : Word) (v : StateVec) : (writeLane l v s).lanes = s.lanes := rfl
@[simp] theorem writeLane_rank (l : Word) (v : StateVec) : (writeLane l v s).rank = s.rank := rfl
@[simp] theorem writeLane_dims (l : Word) (v : StateVec) : (writeLane l v s).dims = s.dims := rfl
@[simp] theorem writeLane_status (l : Word) (v : StateVec) : (writeLane l v s).status = s.status := rfl
@[simp] theorem writeLane_esticky (l : Word) (v : StateVec) : (writeLane l v s).esticky = s.esticky := rfl
@[simp] theorem writeLane_n (l : Word) (v : StateVec) : (writeLane l v s).n = s.n := rfl
@[simp] theorem writeLane_spl (l : Word) (v : StateVec) : (writeLane l v s).spl = s.spl := rfl
@[simp] theorem writeLane_w1 (l : Word) (v : StateVec) : (writeLane l v s).w1 = s.w1 := rfl
@[simp] theorem writeLane_w2 (l : Word) (v : StateVec) : (writeLane l v s).w2 = s.w2 := rfl
@[simp] theorem writeLane_lsb (l : Word) (v : StateVec) : (writeLane l v s).lsb = s.lsb.write l.toNat v := rfl
@[simp] theorem writeLane_ob (l : Word) (v : StateVec) : (writeLane l v s).ob = s.ob := rfl
@[simp] theorem writeLane_host (l : Word) (v : StateVec) : (writeLane l v s).host = s.host := rfl
@[simp] theorem writeLane_response (l : Word) (v : StateVec) : (writeLane l v s).response = s.response := rfl

@[simp] theorem hostReset_a : (hostReset s).a = State.reset.a := rfl
@[simp] theorem hostReset_b : (hostReset s).b = State.reset.b := rfl
@[simp] theorem hostReset_c : (hostReset s).c = State.reset.c := rfl
@[simp] theorem hostReset_r : (hostReset s).r = State.reset.r := rfl
@[simp] theorem hostReset_f : (hostReset s).f = State.reset.f := rfl
@[simp] theorem hostReset_s0 : (hostReset s).s0 = State.reset.s0 := rfl
@[simp] theorem hostReset_s1 : (hostReset s).s1 = State.reset.s1 := rfl
@[simp] theorem hostReset_s2 : (hostReset s).s2 = State.reset.s2 := rfl
@[simp] theorem hostReset_s3 : (hostReset s).s3 = State.reset.s3 := rfl
@[simp] theorem hostReset_s4 : (hostReset s).s4 = State.reset.s4 := rfl
@[simp] theorem hostReset_s5 : (hostReset s).s5 = State.reset.s5 := rfl
@[simp] theorem hostReset_seedw : (hostReset s).seedw = State.reset.seedw := rfl
@[simp] theorem hostReset_nstreams : (hostReset s).nstreams = State.reset.nstreams := rfl
@[simp] theorem hostReset_nsub : (hostReset s).nsub = State.reset.nsub := rfl
@[simp] theorem hostReset_lanes : (hostReset s).lanes = State.reset.lanes := rfl
@[simp] theorem hostReset_rank : (hostReset s).rank = State.reset.rank := rfl
@[simp] theorem hostReset_dims : (hostReset s).dims = State.reset.dims := rfl
@[simp] theorem hostReset_status : (hostReset s).status = State.reset.status := rfl
@[simp] theorem hostReset_esticky : (hostReset s).esticky = State.reset.esticky := rfl
@[simp] theorem hostReset_n : (hostReset s).n = State.reset.n := rfl
@[simp] theorem hostReset_spl : (hostReset s).spl = State.reset.spl := rfl
@[simp] theorem hostReset_w1 : (hostReset s).w1 = State.reset.w1 := rfl
@[simp] theorem hostReset_w2 : (hostReset s).w2 = State.reset.w2 := rfl
@[simp] theorem hostReset_lsb : (hostReset s).lsb = State.reset.lsb := rfl
@[simp] theorem hostReset_ob : (hostReset s).ob = State.reset.ob := rfl
@[simp] theorem hostReset_host : (hostReset s).host = s.host := rfl
@[simp] theorem hostReset_response : (hostReset s).response = State.reset.response := rfl

@[simp] theorem writeReg_a (v : Word) : writeReg .a v s = { s with a := v } := rfl
@[simp] theorem writeReg_b (v : Word) : writeReg .b v s = { s with b := v } := rfl
@[simp] theorem writeReg_c (v : Word) : writeReg .c v s = { s with c := v } := rfl
@[simp] theorem writeReg_s0 (v : Word) : writeReg .s0 v s = { s with s0 := v } := rfl
@[simp] theorem writeReg_s1 (v : Word) : writeReg .s1 v s = { s with s1 := v } := rfl
@[simp] theorem writeReg_s2 (v : Word) : writeReg .s2 v s = { s with s2 := v } := rfl
@[simp] theorem writeReg_s3 (v : Word) : writeReg .s3 v s = { s with s3 := v } := rfl
@[simp] theorem writeReg_s4 (v : Word) : writeReg .s4 v s = { s with s4 := v } := rfl
@[simp] theorem writeReg_s5 (v : Word) : writeReg .s5 v s = { s with s5 := v } := rfl
@[simp] theorem writeReg_seedw (v : Word) : writeReg .seedw v s = { s with seedw := v } := rfl
@[simp] theorem writeReg_nstreams (v : Word) : writeReg .nstreams v s = { s with nstreams := v } := rfl
@[simp] theorem writeReg_nsub (v : Word) : writeReg .nsub v s = { s with nsub := v } := rfl
@[simp] theorem writeReg_lanes (v : Word) : writeReg .lanes v s = { s with lanes := v } := rfl
@[simp] theorem writeReg_rank (v : Word) : writeReg .rank v s = { s with rank := v } := rfl
@[simp] theorem writeReg_r (v : Word) : writeReg .r v s = s := rfl
@[simp] theorem writeReg_f (v : Word) : writeReg .f v s = s := rfl
@[simp] theorem writeReg_status (v : Word) : writeReg .status v s = s := rfl
@[simp] theorem writeReg_esticky (v : Word) : writeReg .esticky v s = s := rfl
@[simp] theorem writeReg_n (v : Word) : writeReg .n v s = s := rfl
@[simp] theorem writeReg_spl (v : Word) : writeReg .spl v s = s := rfl
@[simp] theorem writeReg_id (v : Word) : writeReg .id v s = s := rfl
@[simp] theorem writeReg_version (v : Word) : writeReg .version v s = s := rfl
@[simp] theorem writeReg_dim (k : Fin 8) (v : Word) : writeReg (.dim k) v s = s := rfl

@[simp] theorem readReg_a : readReg .a s = zextWord s.a := rfl
@[simp] theorem readReg_b : readReg .b s = zextWord s.b := rfl
@[simp] theorem readReg_c : readReg .c s = zextWord s.c := rfl
@[simp] theorem readReg_r : readReg .r s = zextWord s.r := rfl
@[simp] theorem readReg_s0 : readReg .s0 s = zextWord s.s0 := rfl
@[simp] theorem readReg_s1 : readReg .s1 s = zextWord s.s1 := rfl
@[simp] theorem readReg_s2 : readReg .s2 s = zextWord s.s2 := rfl
@[simp] theorem readReg_s3 : readReg .s3 s = zextWord s.s3 := rfl
@[simp] theorem readReg_s4 : readReg .s4 s = zextWord s.s4 := rfl
@[simp] theorem readReg_s5 : readReg .s5 s = zextWord s.s5 := rfl
@[simp] theorem readReg_seedw : readReg .seedw s = zextWord s.seedw := rfl
@[simp] theorem readReg_nstreams : readReg .nstreams s = zextWord s.nstreams := rfl
@[simp] theorem readReg_nsub : readReg .nsub s = zextWord s.nsub := rfl
@[simp] theorem readReg_lanes : readReg .lanes s = zextWord s.lanes := rfl
@[simp] theorem readReg_rank : readReg .rank s = zextWord s.rank := rfl
@[simp] theorem readReg_n : readReg .n s = zextWord s.n := rfl
@[simp] theorem readReg_spl : readReg .spl s = zextWord s.spl := rfl
@[simp] theorem readReg_f : readReg .f s = s.f := rfl
@[simp] theorem readReg_dim (k : Fin 8) : readReg (.dim k) s = s.dims[k] := rfl
@[simp] theorem readReg_status : readReg .status s = zextByte s.status := rfl
@[simp] theorem readReg_esticky : readReg .esticky s = zextByte s.esticky := rfl
@[simp] theorem readReg_id : readReg .id s = zextWord idValue := rfl
@[simp] theorem readReg_version : readReg .version s = zextWord versionValue := rfl

end

end Sys2Proof.Machine
end

