-- ==== Sys2Proof/Laws/Memory.lean ====
section
/-! SUPPORT. The laws of the lane state buffer: what a read gives after each operation, and that every operation keeps the
canonical form. -/

namespace Sys2Proof.Machine

/-! ## Reads -/

@[simp] theorem Memory.read_nil (l : Nat) : Memory.read [] l = none := rfl

theorem Memory.read_cons (k : Nat) (v : StateVec) (rest : Memory) (l : Nat) :
    Memory.read ((k, v) :: rest) l = if k = l then some v else Memory.read rest l := rfl

/-- A read of the lane just written gives what was written, any other lane reads as before. -/
theorem Memory.read_write (mem : Memory) (l : Nat) (v : StateVec) (l' : Nat) :
    (mem.write l v).read l' = if l = l' then some v else mem.read l' := by
  induction mem with
  | nil => rfl
  | cons entry rest ih =>
    obtain ⟨k, u⟩ := entry
    unfold Memory.write
    split
    · simp only [Memory.read_cons]
    · split
      · rename_i h
        subst h
        simp only [Memory.read_cons]
        split <;> rfl
      · rename_i h
        simp only [Memory.read_cons, ih]
        by_cases hk : k = l'
        · rw [if_pos hk, if_neg (by omega), if_pos hk]
        · rw [if_neg hk, if_neg hk]

@[simp] theorem Memory.read_write_same (mem : Memory) (l : Nat) (v : StateVec) : (mem.write l v).read l = some v := by
  simp [Memory.read_write]

theorem Memory.read_write_other (mem : Memory) {l l' : Nat} (v : StateVec) (h : l' ≠ l) :
    (mem.write l v).read l' = mem.read l' := by
  rw [Memory.read_write, if_neg (fun e => h e.symm)]

/-- Two writes to one lane are the second one. -/
theorem Memory.write_write (mem : Memory) (l : Nat) (u v : StateVec) : (mem.write l u).write l v = mem.write l v := by
  induction mem with
  | nil => simp [Memory.write]
  | cons entry rest ih =>
    obtain ⟨k, w⟩ := entry
    by_cases h1 : l < k
    · simp [Memory.write, h1]
    · by_cases h2 : l = k
      · simp [Memory.write, h2]
      · simp [Memory.write, h1, h2, ih]

theorem Memory.read_entriesFrom (base : Nat) (vs : List StateVec) (l : Nat) :
    (Memory.entriesFrom base vs).read l = if base ≤ l then vs[l - base]? else none := by
  induction vs generalizing base with
  | nil => simp [Memory.entriesFrom]
  | cons v vs ih =>
    rw [Memory.entriesFrom, Memory.read_cons, ih]
    by_cases h : base = l
    · subst h; simp
    · rw [if_neg h]
      by_cases hl : base ≤ l
      · have : l - base = (l - (base + 1)) + 1 := by omega
        rw [if_pos hl, if_pos (by omega), this, List.getElem?_cons_succ]
      · rw [if_neg hl, if_neg (by omega)]

theorem Memory.read_append (m₁ m₂ : Memory) (l : Nat) : (m₁ ++ m₂ : Memory).read l = (m₁.read l).or (m₂.read l) := by
  induction m₁ with
  | nil => rfl
  | cons entry rest ih =>
    obtain ⟨k, v⟩ := entry
    simp only [List.cons_append, Memory.read_cons, ih]
    split <;> rfl

theorem Memory.read_filter_ge (mem : Memory) (bound l : Nat) (h : bound ≤ l) :
    Memory.read (mem.filter (fun p => decide (bound ≤ p.1))) l = mem.read l := by
  induction mem with
  | nil => rfl
  | cons entry rest ih =>
    obtain ⟨k, v⟩ := entry
    by_cases hk : bound ≤ k
    · simp only [List.filter_cons, hk, decide_true, if_true, Memory.read_cons, ih]
    · simp only [List.filter_cons, hk, decide_false, Bool.false_eq_true, if_false, Memory.read_cons, ih]
      rw [if_neg (by omega)]

theorem Memory.read_filter_lt (mem : Memory) (bound l : Nat) (h : l < bound) :
    Memory.read (mem.filter (fun p => decide (bound ≤ p.1))) l = none := by
  induction mem with
  | nil => rfl
  | cons entry rest ih =>
    obtain ⟨k, v⟩ := entry
    by_cases hk : bound ≤ k
    · simp only [List.filter_cons, hk, decide_true, if_true, Memory.read_cons, ih]
      rw [if_neg (by omega)]
    · simp only [List.filter_cons, hk, decide_false, Bool.false_eq_true, if_false, ih]

/-- After a fill the lanes below its length read as the new State Vectors, the others as before. -/
theorem Memory.read_fill (mem : Memory) (vs : List StateVec) (l : Nat) :
    (mem.fill vs).read l = if l < vs.length then vs[l]? else mem.read l := by
  rw [Memory.fill, Memory.read_append, Memory.read_entriesFrom]
  by_cases h : l < vs.length
  · simp [h, Memory.read_filter_lt]
  · simp [h, Memory.read_filter_ge mem vs.length l (by omega)]

/-- `readFrom` answers exactly when every lane it covers is valid, and then with what those lanes hold. -/
theorem Memory.readFrom_eq_some (mem : Memory) (l count : Nat) (vs : List StateVec) :
    mem.readFrom l count = some vs ↔ vs.length = count ∧ ∀ i, i < count → mem.read (l + i) = vs[i]? := by
  induction count generalizing l vs with
  | zero => cases vs <;> simp [Memory.readFrom]
  | succ count ih =>
    unfold Memory.readFrom
    constructor
    · intro h
      split at h
      · cases h
      · rename_i v hv
        split at h
        · cases h
        · rename_i ws hws
          cases h
          obtain ⟨hlen, hread⟩ := (ih (l + 1) ws).mp hws
          refine ⟨by simp [hlen], fun i hi => ?_⟩
          cases i with
          | zero => simpa using hv
          | succ i => rw [show l + (i + 1) = (l + 1) + i by omega, hread i (by omega), List.getElem?_cons_succ]
    · rintro ⟨hlen, hread⟩
      cases vs with
      | nil => cases hlen
      | cons v vs =>
        have h0 := hread 0 (by omega)
        have hrest : mem.readFrom (l + 1) count = some vs :=
          (ih (l + 1) vs).mpr ⟨by simpa using hlen, fun i hi => by
            rw [show (l + 1) + i = l + (i + 1) by omega, hread (i + 1) (by omega), List.getElem?_cons_succ]⟩
        simp only [Nat.add_zero, List.getElem?_cons_zero] at h0
        simp [h0, hrest]

/-- `readFrom` answers none exactly when a lane it covers is not valid. -/
theorem Memory.readFrom_eq_none (mem : Memory) (l count : Nat) :
    mem.readFrom l count = none ↔ ∃ i, i < count ∧ mem.read (l + i) = none := by
  induction count generalizing l with
  | zero => simp [Memory.readFrom]
  | succ count ih =>
    unfold Memory.readFrom
    cases hv : mem.read l with
    | none => simp only [true_iff]; exact ⟨0, by omega, by simpa using hv⟩
    | some v =>
      have key : (∃ i, i < count + 1 ∧ mem.read (l + i) = none) ↔ ∃ i, i < count ∧ mem.read (l + 1 + i) = none := by
        constructor
        · rintro ⟨i, hi, h⟩
          cases i with
          | zero => rw [Nat.add_zero, hv] at h; cases h
          | succ i => exact ⟨i, by omega, by rw [← h]; congr 1; omega⟩
        · rintro ⟨i, hi, h⟩
          exact ⟨i + 1, by omega, by rw [← h]; congr 1; omega⟩
      rw [key, ← ih]
      cases mem.readFrom (l + 1) count <;> simp

/-! ## The canonical form -/

theorem Memory.wf_nil {lanes : Nat} : Memory.wfBelow lanes [] := by simp [Memory.wfBelow]

theorem Memory.mem_write {mem : Memory} {l : Nat} {v : StateVec} {q : Nat × StateVec} (h : q ∈ mem.write l v) :
    q = (l, v) ∨ q ∈ mem := by
  induction mem with
  | nil => simpa [Memory.write] using h
  | cons entry rest ih =>
    obtain ⟨k, u⟩ := entry
    unfold Memory.write at h
    split at h
    · simpa using h
    · split at h
      · rcases List.mem_cons.mp h with h | h
        · exact .inl h
        · exact .inr (List.mem_cons_of_mem _ h)
      · rcases List.mem_cons.mp h with h | h
        · exact .inr (by simp [h])
        · rcases ih h with h | h
          · exact .inl h
          · exact .inr (List.mem_cons_of_mem _ h)

/-- A write to a lane that exists keeps the canonical form. -/
theorem Memory.write_wf {lanes : Nat} {mem : Memory} {l : Nat} (v : StateVec) (h : mem.wfBelow lanes) (hl : l < lanes) :
    (mem.write l v).wfBelow lanes := by
  refine ⟨?_, fun q hq => ?_⟩
  · have hs := h.1
    clear h
    induction mem with
    | nil => simp [Memory.write]
    | cons entry rest ih =>
      obtain ⟨k, u⟩ := entry
      obtain ⟨hk, hr⟩ := List.pairwise_cons.mp hs
      unfold Memory.write
      split
      · rename_i hlk
        refine List.pairwise_cons.mpr ⟨fun q hq => ?_, hs⟩
        rcases List.mem_cons.mp hq with rfl | hq
        · exact hlk
        · exact Nat.lt_trans hlk (hk q hq)
      · split
        · rename_i hlk
          subst hlk
          exact List.pairwise_cons.mpr ⟨hk, hr⟩
        · refine List.pairwise_cons.mpr ⟨fun q hq => ?_, ih hr⟩
          rcases Memory.mem_write hq with rfl | hq
          · show k < l; omega
          · exact hk q hq
  · rcases Memory.mem_write hq with rfl | hq
    · exact hl
    · exact h.2 q hq

theorem Memory.mem_entriesFrom {base : Nat} {vs : List StateVec} {q : Nat × StateVec}
    (h : q ∈ Memory.entriesFrom base vs) : base ≤ q.1 ∧ q.1 < base + vs.length ∧ q.2 ∈ vs := by
  induction vs generalizing base with
  | nil => cases h
  | cons v vs ih =>
    rcases List.mem_cons.mp h with rfl | h
    · simp
    · obtain ⟨h1, h2, h3⟩ := ih h
      simp only [List.length_cons]
      exact ⟨by omega, by omega, List.mem_cons_of_mem _ h3⟩

theorem Memory.entriesFrom_sorted (base : Nat) (vs : List StateVec) :
    (Memory.entriesFrom base vs).Pairwise (fun p q => p.1 < q.1) := by
  induction vs generalizing base with
  | nil => exact List.Pairwise.nil
  | cons v vs ih =>
    refine List.pairwise_cons.mpr ⟨fun q hq => ?_, ih (base + 1)⟩
    have := (Memory.mem_entriesFrom hq).1
    show base < q.1
    omega

/-- What a filled buffer lists: the new State Vectors, and old entries at or above their number. -/
theorem Memory.mem_fill {mem : Memory} {vs : List StateVec} {q : Nat × StateVec} (h : q ∈ mem.fill vs) :
    (q.1 < vs.length ∧ q.2 ∈ vs) ∨ (vs.length ≤ q.1 ∧ q ∈ mem) := by
  rcases List.mem_append.mp h with h | h
  · obtain ⟨_, h2, h3⟩ := Memory.mem_entriesFrom h
    exact .inl ⟨by omega, h3⟩
  · obtain ⟨h1, h2⟩ := List.mem_filter.mp h
    exact .inr ⟨by simpa using h2, h1⟩

/-- A fill of lanes that exist keeps the canonical form. -/
theorem Memory.fill_wf {lanes : Nat} {mem : Memory} {vs : List StateVec} (h : mem.wfBelow lanes)
    (hl : vs.length ≤ lanes) : (mem.fill vs).wfBelow lanes := by
  refine ⟨?_, fun q hq => ?_⟩
  · refine List.pairwise_append.mpr ⟨Memory.entriesFrom_sorted 0 vs, h.1.filter _, fun p hp q hq => ?_⟩
    have h1 := (Memory.mem_entriesFrom hp).2.1
    have h2 : vs.length ≤ q.1 := by simpa using (List.mem_filter.mp hq).2
    omega
  · rcases Memory.mem_fill hq with ⟨h1, _⟩ | ⟨_, h2⟩
    · omega
    · exact h.2 q h2

/-- A lane that reads as valid is listed. -/
theorem Memory.mem_of_read {mem : Memory} {l : Nat} {v : StateVec} (h : mem.read l = some v) : (l, v) ∈ mem := by
  induction mem with
  | nil => cases h
  | cons entry rest ih =>
    obtain ⟨k, u⟩ := entry
    rw [Memory.read_cons] at h
    split at h
    · rename_i hk
      cases h
      simp [hk]
    · exact List.mem_cons_of_mem _ (ih h)

/-- In canonical form an entry that is listed is what its lane reads as. -/
theorem Memory.read_of_mem {mem : Memory} (h : mem.Pairwise (fun p q => p.1 < q.1)) {l : Nat} {v : StateVec}
    (hm : (l, v) ∈ mem) : mem.read l = some v := by
  induction mem with
  | nil => cases hm
  | cons entry rest ih =>
    obtain ⟨k, u⟩ := entry
    obtain ⟨hk, hr⟩ := List.pairwise_cons.mp h
    rw [Memory.read_cons]
    rcases List.mem_cons.mp hm with hm | hm
    · cases hm
      exact if_pos rfl
    · have : k < l := hk _ hm
      rw [if_neg (by omega)]
      exact ih hr hm

/-- Two buffers in canonical form that read alike are equal. -/
theorem Memory.ext {lanes : Nat} {m₁ m₂ : Memory} (h₁ : m₁.wfBelow lanes) (h₂ : m₂.wfBelow lanes)
    (h : ∀ l, m₁.read l = m₂.read l) : m₁ = m₂ := by
  have hmem : ∀ q, q ∈ m₁ ↔ q ∈ m₂ := fun q =>
    ⟨fun hq => Memory.mem_of_read ((h q.1).symm.trans (Memory.read_of_mem h₁.1 hq)),
     fun hq => Memory.mem_of_read ((h q.1).trans (Memory.read_of_mem h₂.1 hq))⟩
  have hnd : ∀ {m : Memory}, m.wfBelow lanes → m.Nodup := fun hm =>
    hm.1.imp (fun {p q} hlt heq => absurd (congrArg Prod.fst heq) (Nat.ne_of_lt hlt))
  exact ((List.perm_ext_iff_of_nodup (hnd h₁) (hnd h₂)).mpr hmem).eq_of_pairwise
    (fun p q _ _ hpq hqp => absurd (Nat.lt_trans hpq hqp) (Nat.lt_irrefl _)) h₁.1 h₂.1

/-- The reset state's lane state buffer is in canonical form. -/
theorem reset_lsb_wf : State.reset.lsb.wf := Memory.wf_nil

end Sys2Proof.Machine
end

