-- ==== Sys2Proof/Laws/Operations.lean ====
section
/-! SUPPORT. What each shared operation of the meanings can do, said once: the lane a command reads, the host's port, the
guard, the layout of streams, and the rounds of GENERATE. -/

namespace Sys2Proof.Machine

/-! ## Operands -/

theorem readLane_eq_ok (p : Config.Params) (lane : Word) (s : State) (v : StateVec) :
    readLane p lane s = .ok v ↔ lane.toNat < p.lanesMax ∧ s.lsb.read lane.toNat = some v := by
  unfold readLane
  by_cases h : p.lanesMax ≤ lane.toNat
  · simp [h]
  · simp only [h, if_false]
    cases s.lsb.read lane.toNat with
    | none => simp
    | some u => simp; omega

theorem readLane_eq_error (p : Config.Params) (lane : Word) (s : State) (e : Status) :
    readLane p lane s = .error e ↔
      (e = .errLane ∧ p.lanesMax ≤ lane.toNat) ∨
      (e = .errUnseeded ∧ lane.toNat < p.lanesMax ∧ s.lsb.read lane.toNat = none) := by
  unfold readLane
  by_cases h : p.lanesMax ≤ lane.toNat
  · simp only [h, if_true, Except.error.injEq]
    constructor
    · rintro rfl; exact .inl ⟨rfl, trivial⟩
    · rintro (⟨rfl, _⟩ | ⟨_, h', _⟩)
      · rfl
      · omega
  · simp only [h, if_false]
    cases hr : s.lsb.read lane.toNat with
    | none =>
      simp only [Except.error.injEq, and_true, and_false, false_or]
      constructor
      · rintro rfl; exact ⟨rfl, by omega⟩
      · rintro ⟨rfl, _⟩; rfl
    | some v => simp

/-- The two working matrices of a pair read back. -/
@[simp] theorem setW_pair (w : Mat3 × Mat3) (s : State) : ((setW w s).w1, (setW w s).w2) = w := rfl

/-! ## The host's port -/

@[simp] theorem takeAction_nil {s : State} (h : s.host = []) : takeAction s = none := by simp [takeAction, h]

theorem takeAction_cons {s : State} {act : HostAction} {rest : List HostAction} (h : s.host = act :: rest) :
    takeAction s = some (act, { s with host := rest }) := by simp [takeAction, h]

section
variable {dec : DWord → Except Illegal Instr} {run : Instr → State → Host.Outcome State Fault Refusal}
  {s : State} {rest : List HostAction} {cw : DWord}

/-- An idle unit does not change. -/
theorem runHostAction_idle (h : s.host = []) : runHostAction dec run s = .next s := by
  simp only [runHostAction, takeAction_nil h]

theorem runHostAction_reset (h : s.host = .reset :: rest) :
    runHostAction dec run s = .next { State.reset with host := rest } := by
  simp only [runHostAction, takeAction_cons h]
  rfl

/-- A word that decodes runs its command. -/
theorem runHostAction_ok {i : Instr} (h : s.host = .command cw :: rest) (hd : dec cw = .ok i) :
    runHostAction dec run s = run i { s with host := rest } := by
  simp only [runHostAction, takeAction_cons h, hd]

/-- A word that does not decode fails with ERR_ILLEGAL. -/
theorem runHostAction_error {e : Illegal} (h : s.host = .command cw :: rest) (hd : dec cw = .error e) :
    runHostAction dec run s = .next (raise .errIllegal { s with host := rest }) := by
  simp only [runHostAction, takeAction_cons h, hd]

end

/-! ## Formats -/

/-- The default unit has every format. -/
@[simp] theorem params_dtypes_contains (dt : Dtype) : Config.params.dtypes.contains dt = true := by cases dt <;> rfl

/-- CVT in the default unit never fails. -/
theorem execCvt_eq (dt : Dtype) (s : State) :
    execCvt dt s =
      .next (respond (zextElement (toFloat dt s.r.toNat)) (setF (zextElement (toFloat dt s.r.toNat)) s)) :=
  if_pos (params_dtypes_contains dt)

/-- GENERATE of a format the unit has: the guard, then the lanes, then the rounds. -/
theorem execGenerateOf_eq {p : Config.Params} {dt : Dtype} (s : State) (h : p.dtypes.contains dt = true) :
    execGenerateOf p dt s =
      match capacityGuard p s with
      | .error e => .next (raise e s)
      | .ok (n, spl) =>
        match s.lsb.readFrom 0 s.lanes.toNat with
        | none => .next (raise .errUnseeded s)
        | some vs =>
          .next (respond (countsData (BitVec.ofNat 32 n) (BitVec.ofNat 32 spl))
            (setCounts (BitVec.ofNat 32 n) (BitVec.ofNat 32 spl)
              (setOb ⟨dt, (shapeDims s).map Int.toNat, (sampleRounds p dt spl vs).2.take n⟩
                (setLsb (s.lsb.fill (sampleRounds p dt spl vs).1) s)))) := if_pos h

/-! ## The guard -/

/-- The running product of positive dimensions is the product, or none exactly where that exceeds N_MAX: the test at
every prefix and one test at the end agree (`45_capacity_guard.md` rule R230). -/
theorem runningProduct_eq (nMax acc : Nat) (ds : List Int) (hpos : ∀ d ∈ ds, 0 < d) (hacc : acc ≤ nMax) :
    runningProduct nMax acc ds =
      if acc * (ds.map Int.toNat).prod ≤ nMax then some (acc * (ds.map Int.toNat).prod) else none := by
  induction ds generalizing acc with
  | nil => simp [runningProduct, hacc]
  | cons d ds ih =>
    have htail : ∀ d ∈ ds, 0 < d := fun x hx => hpos x (List.mem_cons_of_mem _ hx)
    have hprod : 1 ≤ (ds.map Int.toNat).prod := by
      refine List.one_le_prod_of_one_le fun x hx => ?_
      obtain ⟨y, hy, rfl⟩ := List.mem_map.mp hx
      have := htail y hy
      omega
    simp only [runningProduct, List.map_cons, List.prod_cons]
    by_cases h : nMax < acc * d.toNat
    · have : nMax < acc * (d.toNat * (ds.map Int.toNat).prod) := by
        rw [← Nat.mul_assoc]; exact Nat.lt_of_lt_of_le h (Nat.le_mul_of_pos_right _ hprod)
      rw [if_pos h, if_neg (by omega)]
    · rw [if_neg h, ih (acc * d.toNat) htail (by omega), Nat.mul_assoc]

/-- The guard's answers: the four checks in their order, and `(n, spl)` where all pass
(`45_capacity_guard.md` rule R227). -/
theorem capacityGuard_cases (p : Config.Params) (s : State) :
    (capacityGuard p s = .error .errShape ∧ (s.rank.toNat < 1 ∨ p.rankMax < s.rank.toNat)) ∨
    (capacityGuard p s = .error .errShape ∧ 1 ≤ s.rank.toNat ∧ s.rank.toNat ≤ p.rankMax
      ∧ ∃ d ∈ shapeDims s, d ≤ 0) ∨
    (1 ≤ s.rank.toNat ∧ s.rank.toNat ≤ p.rankMax ∧ (∀ d ∈ shapeDims s, 0 < d) ∧
      ((capacityGuard p s = .error .errLane ∧ (s.lanes.toNat < 1 ∨ p.lanesMax < s.lanes.toNat)) ∨
       (1 ≤ s.lanes.toNat ∧ s.lanes.toNat ≤ p.lanesMax ∧
         capacityGuard p s =
           match runningProduct p.nMax 1 (shapeDims s) with
           | none => .error .errCapacity
           | some n => .ok (n, ceilDiv n s.lanes.toNat)))) := by
  unfold capacityGuard
  by_cases h1 : s.rank.toNat < 1 ∨ p.rankMax < s.rank.toNat
  · exact .inl ⟨by rw [if_pos h1], h1⟩
  · have hr : 1 ≤ s.rank.toNat ∧ s.rank.toNat ≤ p.rankMax := by omega
    rw [if_neg h1]
    by_cases h2 : (shapeDims s).any (fun d => decide (d ≤ 0)) = true
    · obtain ⟨d, hd, hle⟩ := List.any_eq_true.mp h2
      exact .inr (.inl ⟨by rw [if_pos h2], hr.1, hr.2, d, hd, by simpa using hle⟩)
    · refine .inr (.inr ⟨hr.1, hr.2, fun d hd => ?_, ?_⟩)
      · have h2' : ¬ d ≤ 0 := fun hle => h2 (List.any_eq_true.mpr ⟨d, hd, by simpa using hle⟩)
        omega
      · rw [if_neg h2]
        by_cases h3 : s.lanes.toNat < 1 ∨ p.lanesMax < s.lanes.toNat
        · exact .inl ⟨by rw [if_pos h3], h3⟩
        · exact .inr ⟨by omega, by omega, (if_neg h3).trans rfl⟩

/-! ## Layout -/

theorem substreams_length (j72 : Mat3 × Mat3) (count : Nat) (v : StateVec) :
    (substreams j72 count v).length = count := by
  induction count generalizing v with
  | zero => rfl
  | succ count ih => simp [substreams, ih]

theorem substreams_getElem? (j72 : Mat3 × Mat3) (count j : Nat) (v : StateVec) (h : j < count) :
    (substreams j72 count v)[j]? = some ((jumpVector j72)^[j] v) := by
  induction count generalizing v j with
  | zero => omega
  | succ count ih =>
    cases j with
    | zero => rfl
    | succ j =>
      rw [substreams, List.getElem?_cons_succ, ih j _ (by omega), Function.iterate_succ_apply]

theorem streams_length (j134 j72 : Mat3 × Mat3) (nsub count : Nat) (root : StateVec) :
    (streams j134 j72 nsub count root).length = count * nsub := by
  induction count generalizing root with
  | zero => simp [streams]
  | succ count ih => simp [streams, ih, substreams_length, Nat.succ_mul, Nat.add_comm]

/-- Lane `i·NSUB + j` is substream j of stream i (`43_stream_layout.md` rules R180, R183). -/
theorem streams_getElem? (j134 j72 : Mat3 × Mat3) (nsub count i j : Nat) (root : StateVec) (hi : i < count)
    (hj : j < nsub) :
    (streams j134 j72 nsub count root)[i * nsub + j]? =
      some ((jumpVector j72)^[j] ((jumpVector j134)^[i] root)) := by
  induction count generalizing root i with
  | zero => omega
  | succ count ih =>
    rw [streams]
    cases i with
    | zero =>
      rw [Nat.zero_mul, Nat.zero_add, List.getElem?_append_left (by rw [substreams_length]; exact hj),
        substreams_getElem? _ _ _ _ hj]
      rfl
    | succ i =>
      rw [List.getElem?_append_right (by rw [substreams_length, Nat.succ_mul]; omega), substreams_length,
        show (i + 1) * nsub + j - nsub = i * nsub + j by rw [Nat.succ_mul]; omega, ih i _ (by omega),
        Function.iterate_succ_apply]

/-! ## The rounds of GENERATE -/

theorem sampleRounds_states (p : Config.Params) (dt : Dtype) (rounds : Nat) (vs : List StateVec) :
    (sampleRounds p dt rounds vs).1 = vs.map (fun v => (fun u => (stepVector p u).1)^[rounds] v) := by
  induction rounds generalizing vs with
  | zero => simp [sampleRounds]
  | succ rounds ih =>
    simp only [sampleRounds, sampleRound, ih, List.map_map]
    rfl

theorem sampleRounds_length (p : Config.Params) (dt : Dtype) (rounds : Nat) (vs : List StateVec) :
    (sampleRounds p dt rounds vs).2.length = rounds * vs.length := by
  induction rounds generalizing vs with
  | zero => simp [sampleRounds]
  | succ rounds ih =>
    simp [sampleRounds, sampleRound, ih, Nat.succ_mul, Nat.add_comm]

/-- Value `k·L + l` of the rounds is step k of lane l (`44_uniform_sampling.md` rule R203). -/
theorem sampleRounds_getElem? (p : Config.Params) (dt : Dtype) (rounds k l : Nat) (vs : List StateVec) (v : StateVec)
    (hk : k < rounds) (hv : vs[l]? = some v) :
    (sampleRounds p dt rounds vs).2[k * vs.length + l]? =
      some (p.toFloat dt (stepVector p ((fun u => (stepVector p u).1)^[k] v)).2.toNat) := by
  have hl : l < vs.length := (List.getElem?_eq_some_iff.mp hv).1
  induction rounds generalizing vs v k with
  | zero => omega
  | succ rounds ih =>
    simp only [sampleRounds, sampleRound]
    cases k with
    | zero =>
      rw [Nat.zero_mul, Nat.zero_add, List.getElem?_append_left (by simpa using hl), List.getElem?_map, hv]
      rfl
    | succ k =>
      have hlen : (vs.map (fun v => (stepVector p v).1)).length = vs.length := by simp
      rw [List.getElem?_append_right (by simp only [List.length_map, Nat.succ_mul]; omega), List.length_map,
        show (k + 1) * vs.length + l - vs.length = k * (vs.map (fun v => (stepVector p v).1)).length + l by
          rw [hlen, Nat.succ_mul]; omega,
        ih k (vs.map (fun v => (stepVector p v).1)) (stepVector p v).1 (by omega) (by simp [hv]) (by simpa using hl),
        Function.iterate_succ_apply]

end Sys2Proof.Machine
end

