-- ==== Sys2Proof/Laws/FloatConv.lean ====
section
/-! SUPPORT. The laws of ToFloat's parts: what the binade search finds, that rounding to an integer is a nearest one, and
the ranges of the significand before and after the clamps (`41_recurrence_step.md` rules R136, R137). -/

namespace Sys2Proof.Machine

/-! ## The binade -/

theorem leadingShift_ge (num den fuel t : Nat) : t ≤ leadingShift num den fuel t := by
  induction fuel generalizing t with
  | zero => exact Nat.le_refl t
  | succ fuel ih =>
    unfold leadingShift
    split
    · exact Nat.le_refl t
    · exact Nat.le_trans (Nat.le_succ t) (ih (t + 1))

theorem leadingShift_le (num den fuel t : Nat) : leadingShift num den fuel t ≤ t + fuel := by
  induction fuel generalizing t with
  | zero => exact Nat.le_refl t
  | succ fuel ih =>
    unfold leadingShift
    split
    · omega
    · have := ih (t + 1)
      omega

/-- Every shift below the one found is too small. -/
theorem leadingShift_minimal (num den fuel t : Nat) {t' : Nat} (h1 : t ≤ t') (h2 : t' < leadingShift num den fuel t) :
    num * 2 ^ t' < den := by
  induction fuel generalizing t with
  | zero => simp only [leadingShift] at h2; omega
  | succ fuel ih =>
    unfold leadingShift at h2
    split at h2
    · omega
    · rename_i h
      by_cases ht : t = t'
      · subst ht; omega
      · exact ih (t + 1) (by omega) h2

/-- The shift found is large enough, unless the search ended at its limit. -/
theorem leadingShift_found (num den fuel t : Nat) :
    den ≤ num * 2 ^ leadingShift num den fuel t ∨ leadingShift num den fuel t = t + fuel := by
  induction fuel generalizing t with
  | zero => exact .inr rfl
  | succ fuel ih =>
    unfold leadingShift
    split
    · rename_i h; exact .inl h
    · rcases ih (t + 1) with h | h
      · exact .inl h
      · exact .inr (by omega)

/-- Every format of the table has its least exponent below −1 and a precision of at least 2. -/
theorem floatFormat_bounds (dt : Dtype) : 2 ≤ (floatFormat dt).precision ∧ 2 ≤ (floatFormat dt).eminAbs
    ∧ (floatFormat dt).bias = (floatFormat dt).eminAbs + 1 := by
  cases dt <;> decide

/-- What the binade of a number below 1 is: between 1 and −emin, the number is below twice its power, and at least its
power unless it is below the normal range. -/
theorem binade_spec (fmt : FloatFormat) (hf : 2 ≤ fmt.eminAbs) {num den : Nat} (h : num < den) :
    1 ≤ binade fmt num den ∧ binade fmt num den ≤ fmt.eminAbs ∧ num * 2 ^ binade fmt num den < 2 * den ∧
      (den ≤ num * 2 ^ binade fmt num den ∨
        binade fmt num den = fmt.eminAbs ∧ num * 2 ^ binade fmt num den < den) := by
  have hge := leadingShift_ge num den (fmt.eminAbs - 1) 1
  have hle := leadingShift_le num den (fmt.eminAbs - 1) 1
  have hfound := leadingShift_found num den (fmt.eminAbs - 1) 1
  refine ⟨hge, by show leadingShift _ _ _ _ ≤ _; omega, ?_, ?_⟩
  · rcases Nat.eq_or_lt_of_le hge with ht | ht
    · show num * 2 ^ leadingShift num den (fmt.eminAbs - 1) 1 < 2 * den
      rw [← ht]
      omega
    · have hmin := leadingShift_minimal num den (fmt.eminAbs - 1) 1
        (t' := leadingShift num den (fmt.eminAbs - 1) 1 - 1) (by omega) (by omega)
      have hpow : 2 ^ leadingShift num den (fmt.eminAbs - 1) 1
          = 2 ^ (leadingShift num den (fmt.eminAbs - 1) 1 - 1) * 2 := by
        rw [← pow_succ]; congr 1; omega
      show num * 2 ^ leadingShift num den (fmt.eminAbs - 1) 1 < 2 * den
      rw [hpow, ← Nat.mul_assoc]
      omega
  · by_cases hd : den ≤ num * 2 ^ binade fmt num den
    · exact .inl hd
    · refine .inr ⟨?_, by omega⟩
      rcases hfound with hfound | hfound
      · exact absurd hfound hd
      · show leadingShift _ _ _ _ = _
        omega

/-! ## Rounding -/

/-- Rounding lands within half a unit: `2·|k·den − num| ≤ den`, as two inequalities. -/
theorem roundHalfEven_close (num : Nat) {den : Nat} (hden : 0 < den) :
    2 * num ≤ 2 * (roundHalfEven num den * den) + den ∧ 2 * (roundHalfEven num den * den) ≤ 2 * num + den := by
  have hdm := Nat.div_add_mod num den
  have hmul : num / den * den = den * (num / den) := Nat.mul_comm _ _
  unfold roundHalfEven
  dsimp only
  split
  · rename_i h
    rw [Nat.add_mul, Nat.one_mul, hmul]
    have hlt := Nat.mod_lt num hden
    omega
  · rename_i h
    rw [hmul]
    omega

/-- No integer is nearer to `num / den` than the rounded one. -/
theorem roundHalfEven_nearest (num k : Nat) {den : Nat} (hden : 0 < den) :
    |(roundHalfEven num den * den : ℤ) - num| ≤ |(k * den : ℤ) - num| := by
  have h := roundHalfEven_close num hden
  have h1 : (2 * num : ℤ) ≤ 2 * (roundHalfEven num den * den) + den := by exact_mod_cast h.1
  have h2 : (2 * (roundHalfEven num den * den) : ℤ) ≤ 2 * num + den := by exact_mod_cast h.2
  generalize roundHalfEven num den = r at *
  rcases lt_trichotomy r k with hk | hk | hk
  · have : ((r : ℤ) + 1) * den ≤ k * den := by
      exact_mod_cast Nat.mul_le_mul_right den hk
    rw [add_mul, one_mul] at this
    rw [abs_le, le_abs, neg_le, le_abs]
    constructor <;> left <;> omega
  · rw [hk]
  · have : ((k : ℤ) + 1) * den ≤ r * den := by
      exact_mod_cast Nat.mul_le_mul_right den hk
    rw [add_mul, one_mul] at this
    rw [abs_le, le_abs, neg_le, le_abs]
    constructor <;> right <;> omega

/-- An integer is its own rounding. -/
theorem roundHalfEven_exact (k : Nat) {den : Nat} (h : 0 < den) : roundHalfEven (k * den) den = k := by
  unfold roundHalfEven
  simp [Nat.mul_mod_left, Nat.mul_div_cancel k h]
  omega

/-- Rounding is monotone against integer bounds. -/
theorem roundHalfEven_le {num den k : Nat} (h : 0 < den) (hk : num ≤ k * den) : roundHalfEven num den ≤ k := by
  have hc := (roundHalfEven_close num h).2
  by_contra hlt
  have := Nat.mul_le_mul_right den (show k + 1 ≤ roundHalfEven num den by omega)
  rw [Nat.add_mul, Nat.one_mul] at this
  omega

theorem le_roundHalfEven {num den k : Nat} (h : 0 < den) (hk : k * den ≤ num) : k ≤ roundHalfEven num den := by
  have hc := (roundHalfEven_close num h).1
  by_contra hlt
  have := Nat.mul_le_mul_right den (show roundHalfEven num den + 1 ≤ k by omega)
  rw [Nat.add_mul, Nat.one_mul] at this
  omega

/-- The significand of a rounded number below 1 has at most `precision` bits, or is the next power of 2; at least half of
that where the number is in the normal range. -/
theorem roundNearestEven_sig (fmt : FloatFormat) (hf : 2 ≤ fmt.eminAbs) (hp : 2 ≤ fmt.precision) {num den : Nat}
    (h : num < den) :
    (roundNearestEven fmt num den).sig ≤ 2 ^ fmt.precision ∧
      (den ≤ num * 2 ^ binade fmt num den → 2 ^ (fmt.precision - 1) ≤ (roundNearestEven fmt num den).sig) := by
  obtain ⟨-, -, hlt, -⟩ := binade_spec fmt hf h
  have hscale : binade fmt num den + fmt.precision - 1 = binade fmt num den + (fmt.precision - 1) := by omega
  have hpow : 2 ^ fmt.precision = 2 * 2 ^ (fmt.precision - 1) := by rw [← pow_succ']; congr 1; omega
  have hpos : 0 < den := by omega
  simp only [roundNearestEven, hscale, pow_add, ← Nat.mul_assoc]
  constructor
  · refine roundHalfEven_le hpos ?_
    rw [hpow]
    calc num * 2 ^ binade fmt num den * 2 ^ (fmt.precision - 1)
        ≤ 2 * den * 2 ^ (fmt.precision - 1) := Nat.mul_le_mul_right _ (Nat.le_of_lt hlt)
      _ = 2 * 2 ^ (fmt.precision - 1) * den := by ring
  · intro hd
    refine le_roundHalfEven hpos ?_
    rw [Nat.mul_comm]
    exact Nat.mul_le_mul_right _ hd

/-! ## The bit pattern -/

/-- The binade is the one exponent −t that puts the number between its power and twice its power. -/
theorem binade_unique (fmt : FloatFormat) {num den t : Nat} (ht : 1 ≤ t) (ht' : t ≤ fmt.eminAbs)
    (h1 : den ≤ num * 2 ^ t) (h2 : num * 2 ^ t < 2 * den) : binade fmt num den = t := by
  have hge := leadingShift_ge num den (fmt.eminAbs - 1) 1
  rcases lt_trichotomy (binade fmt num den) t with hlt | heq | hgt
  · exfalso
    rcases leadingShift_found num den (fmt.eminAbs - 1) 1 with hf | hf
    · have hf' : den ≤ num * 2 ^ binade fmt num den := hf
      have hle : num * 2 ^ (binade fmt num den + 1) ≤ num * 2 ^ t :=
        Nat.mul_le_mul_left _ (Nat.pow_le_pow_right (by omega) hlt)
      rw [pow_succ, ← Nat.mul_assoc] at hle
      omega
    · have hf' : binade fmt num den = 1 + (fmt.eminAbs - 1) := hf
      omega
  · exact heq
  · have := leadingShift_minimal num den (fmt.eminAbs - 1) 1 (t' := t) ht hgt
    omega

/-- The bit pattern of a normal number `m / 2^(t + precision − 1)`: biased exponent `bias − t`, then the significand
without its leading bit. -/
theorem floatBits_normal (fmt : FloatFormat) (hp : 1 ≤ fmt.precision) (u : Dyadic) {t m : Nat} (ht : 1 ≤ t)
    (ht' : t ≤ fmt.eminAbs) (h1 : 2 ^ (fmt.precision - 1) ≤ m) (h2 : m < 2 ^ fmt.precision)
    (hm : u.sig * 2 ^ (t + fmt.precision - 1) = m * 2 ^ u.scale) :
    floatBits fmt u = (fmt.bias - t) * 2 ^ (fmt.precision - 1) + (m - 2 ^ (fmt.precision - 1)) := by
  have hs : t + fmt.precision - 1 = t + (fmt.precision - 1) := by omega
  have hm' : u.sig * 2 ^ t * 2 ^ (fmt.precision - 1) = m * 2 ^ u.scale := by rw [← hm, hs, pow_add, Nat.mul_assoc]
  have hpos : 0 < 2 ^ (fmt.precision - 1) := Nat.two_pow_pos _
  have hspos : 0 < 2 ^ u.scale := Nat.two_pow_pos _
  have hpow : 2 ^ fmt.precision = 2 * 2 ^ (fmt.precision - 1) := by rw [← pow_succ']; congr 1; omega
  have hlow : 2 ^ u.scale ≤ u.sig * 2 ^ t := by
    refine Nat.le_of_mul_le_mul_right ?_ hpos
    rw [hm', Nat.mul_comm]
    exact Nat.mul_le_mul_right _ h1
  have hhigh : u.sig * 2 ^ t < 2 * 2 ^ u.scale := by
    refine Nat.lt_of_mul_lt_mul_right (a := 2 ^ (fmt.precision - 1)) ?_
    rw [hm', show 2 * 2 ^ u.scale * 2 ^ (fmt.precision - 1) = 2 * 2 ^ (fmt.precision - 1) * 2 ^ u.scale by ring, ← hpow]
    exact Nat.mul_lt_mul_of_pos_right h2 hspos
  have hb : binade fmt u.sig (2 ^ u.scale) = t := binade_unique fmt ht ht' hlow hhigh
  have hcond : 2 ^ u.scale ≤ u.sig * 2 ^ fmt.eminAbs :=
    Nat.le_trans hlow (Nat.mul_le_mul_left _ (Nat.pow_le_pow_right (by omega) ht'))
  rw [floatBits, if_pos hcond]
  simp only [hb, hm, Nat.mul_div_cancel _ hspos]

/-- The bit pattern of a number `m / 2^(eminAbs + precision − 1)` below the normal range: `m` itself. -/
theorem floatBits_subnormal (fmt : FloatFormat) (hp : 1 ≤ fmt.precision) (u : Dyadic) {m : Nat}
    (h : m < 2 ^ (fmt.precision - 1)) (hm : u.sig * 2 ^ (fmt.eminAbs + fmt.precision - 1) = m * 2 ^ u.scale) :
    floatBits fmt u = m := by
  have hs : fmt.eminAbs + fmt.precision - 1 = fmt.eminAbs + (fmt.precision - 1) := by omega
  have hspos : 0 < 2 ^ u.scale := Nat.two_pow_pos _
  have hcond : ¬ 2 ^ u.scale ≤ u.sig * 2 ^ fmt.eminAbs := by
    have : u.sig * 2 ^ fmt.eminAbs * 2 ^ (fmt.precision - 1) < 2 ^ u.scale * 2 ^ (fmt.precision - 1) := by
      rw [Nat.mul_assoc, ← pow_add, ← hs, hm, Nat.mul_comm]
      exact Nat.mul_lt_mul_of_pos_left h hspos
    have := Nat.lt_of_mul_lt_mul_right this
    omega
  rw [floatBits, if_neg hcond, hm, Nat.mul_div_cancel _ hspos]

/-- ToFloat takes 0 as 1. -/
theorem toFloatBits_zero (fmt : FloatFormat) : toFloatBits fmt 0 = toFloatBits fmt 1 := rfl

end Sys2Proof.Machine
end

