-- ==== Sys2Proof/Laws/Matrix.lean ====
section
/-! SUPPORT. The algebra of the matrix engine: MatMul and MatVec are the product and the action of matrices over the
integers modulo m, so the powers of one matrix add, double and commute (`42_jump_ahead.md` rules R151, R158, R165). -/

namespace Sys2Proof.Machine

/-! ## Entries below the modulus -/

/-- Every word of a triple is below m. -/
def Triple.Below (t : Triple) (m : Nat) : Prop := t.t1.toNat < m ∧ t.t2.toNat < m ∧ t.t3.toNat < m

/-- Every entry of a matrix is below m. -/
def Mat3.Below (x : Mat3) (m : Nat) : Prop := x.r0.Below m ∧ x.r1.Below m ∧ x.r2.Below m

/-- A dot product is the exact sum reduced once. -/
theorem dot_toNat (u v : Triple) {m : Nat} (hm : 0 < m) (hm' : m ≤ 2 ^ 32) :
    (dot u v m).toNat =
      (u.t1.toNat * v.t1.toNat + u.t2.toNat * v.t2.toNat + u.t3.toNat * v.t3.toNat) % m := by
  rw [dot, BitVec.toNat_ofNat]
  exact Nat.mod_eq_of_lt (Nat.lt_of_lt_of_le (Nat.mod_lt _ hm) hm')

theorem dot_lt (u v : Triple) {m : Nat} (hm : 0 < m) (hm' : m ≤ 2 ^ 32) : (dot u v m).toNat < m := by
  rw [dot_toNat u v hm hm']
  exact Nat.mod_lt _ hm

theorem matVec_below (x : Mat3) (v : Triple) {m : Nat} (hm : 0 < m) (hm' : m ≤ 2 ^ 32) : (matVec x v m).Below m :=
  ⟨dot_lt _ _ hm hm', dot_lt _ _ hm hm', dot_lt _ _ hm hm'⟩

theorem matMul_below (x y : Mat3) {m : Nat} (hm : 0 < m) (hm' : m ≤ 2 ^ 32) : (matMul x y m).Below m :=
  ⟨⟨dot_lt _ _ hm hm', dot_lt _ _ hm hm', dot_lt _ _ hm hm'⟩, ⟨dot_lt _ _ hm hm', dot_lt _ _ hm hm', dot_lt _ _ hm hm'⟩,
   ⟨dot_lt _ _ hm hm', dot_lt _ _ hm hm', dot_lt _ _ hm hm'⟩⟩

theorem identity_below {m : Nat} (hm : 1 < m) : Mat3.identity.Below m := by
  simp only [Mat3.identity, Mat3.Below, Triple.Below]
  simp
  omega

theorem matPow_below (x : Mat3) (e : Nat) {m : Nat} (hm : 1 < m) (hm' : m ≤ 2 ^ 32) : (matPow m x e).Below m := by
  cases e with
  | zero => exact identity_below hm
  | succ e => exact matMul_below _ _ (by omega) hm'

/-! ## Matrices over the integers modulo m -/

/-- A triple as a column vector over the integers modulo m. -/
def colOf (m : Nat) (t : Triple) : Fin 3 → ZMod m := ![t.t1.toNat, t.t2.toNat, t.t3.toNat]

/-- A matrix over the integers modulo m. -/
def matOf (m : Nat) (x : Mat3) : Matrix (Fin 3) (Fin 3) (ZMod m) :=
  Matrix.of ![colOf m x.r0, colOf m x.r1, colOf m x.r2]

theorem word_eq_of_cast {m : Nat} {a b : Word} (ha : a.toNat < m) (hb : b.toNat < m)
    (h : (a.toNat : ZMod m) = (b.toNat : ZMod m)) : a = b := by
  have := (ZMod.natCast_eq_natCast_iff' _ _ _).mp h
  rw [Nat.mod_eq_of_lt ha, Nat.mod_eq_of_lt hb] at this
  exact BitVec.eq_of_toNat_eq this

theorem colOf_injective {m : Nat} {s t : Triple} (hs : s.Below m) (ht : t.Below m) (h : colOf m s = colOf m t) :
    s = t := by
  have h0 := congrFun h 0
  have h1 := congrFun h 1
  have h2 := congrFun h 2
  simp only [colOf, Matrix.cons_val_zero, Matrix.cons_val_one, Matrix.cons_val] at h0 h1 h2
  cases s; cases t
  simp only [Triple.mk.injEq]
  exact ⟨word_eq_of_cast hs.1 ht.1 h0, word_eq_of_cast hs.2.1 ht.2.1 h1, word_eq_of_cast hs.2.2 ht.2.2 h2⟩

theorem matOf_injective {m : Nat} {x y : Mat3} (hx : x.Below m) (hy : y.Below m) (h : matOf m x = matOf m y) :
    x = y := by
  have h0 : colOf m x.r0 = colOf m y.r0 := congrFun h 0
  have h1 : colOf m x.r1 = colOf m y.r1 := congrFun h 1
  have h2 : colOf m x.r2 = colOf m y.r2 := congrFun h 2
  cases x; cases y
  simp only [Mat3.mk.injEq]
  exact ⟨colOf_injective hx.1 hy.1 h0, colOf_injective hx.2.1 hy.2.1 h1, colOf_injective hx.2.2 hy.2.2 h2⟩

theorem dot_cast (u v : Triple) {m : Nat} (hm : 0 < m) (hm' : m ≤ 2 ^ 32) :
    ((dot u v m).toNat : ZMod m) =
      u.t1.toNat * v.t1.toNat + u.t2.toNat * v.t2.toNat + u.t3.toNat * v.t3.toNat := by
  rw [dot_toNat u v hm hm', ZMod.natCast_mod]
  push_cast
  rfl

/-- MatVec is the action of a matrix. -/
theorem colOf_matVec (x : Mat3) (v : Triple) {m : Nat} (hm : 0 < m) (hm' : m ≤ 2 ^ 32) :
    colOf m (matVec x v m) = (matOf m x).mulVec (colOf m v) := by
  funext i
  fin_cases i <;>
    simp [colOf, matVec, matOf, Matrix.mulVec, dotProduct, Fin.sum_univ_three, dot_cast _ _ hm hm']

/-- MatMul is the product of matrices. -/
theorem matOf_matMul (x y : Mat3) {m : Nat} (hm : 0 < m) (hm' : m ≤ 2 ^ 32) :
    matOf m (matMul x y m) = matOf m x * matOf m y := by
  funext i j
  fin_cases i <;> fin_cases j <;>
    simp [colOf, matMul, transpose, matOf, Matrix.mul_apply, Fin.sum_univ_three, dot_cast _ _ hm hm']

theorem matOf_identity (m : Nat) : matOf m .identity = 1 := by
  funext i j
  fin_cases i <;> fin_cases j <;> simp [matOf, colOf, Mat3.identity]

theorem matOf_matPow (x : Mat3) (e : Nat) {m : Nat} (hm : 0 < m) (hm' : m ≤ 2 ^ 32) :
    matOf m (matPow m x e) = matOf m x ^ e := by
  induction e with
  | zero => rw [pow_zero]; exact matOf_identity m
  | succ e ih => rw [matPow, matOf_matMul _ _ hm hm', ih, pow_succ']

/-- Powers of one matrix multiply by adding their exponents. -/
theorem matMul_matPow (x : Mat3) (e f : Nat) {m : Nat} (hm : 1 < m) (hm' : m ≤ 2 ^ 32) :
    matMul (matPow m x e) (matPow m x f) m = matPow m x (e + f) := by
  refine matOf_injective (matMul_below _ _ (by omega) hm') (matPow_below x _ hm hm') ?_
  simp only [matOf_matMul _ _ (show 0 < m by omega) hm', matOf_matPow _ _ (show 0 < m by omega) hm', pow_add]

/-- Pow2 of a power multiplies its exponent by 2^k (rule R165). -/
theorem matPow2_matPow (x : Mat3) (k e : Nat) {m : Nat} (hm : 1 < m) (hm' : m ≤ 2 ^ 32) :
    matPow2 m k (matPow m x e) = matPow m x (e * 2 ^ k) := by
  induction k generalizing e with
  | zero => simp [matPow2]
  | succ k ih => rw [matPow2, matMul_matPow x e e hm hm', ih, pow_succ]; congr 1; ring

/-- Powers act one after the other by adding their exponents. -/
theorem matVec_matPow_add (x : Mat3) (e f : Nat) (v : Triple) {m : Nat} (hm : 1 < m) (hm' : m ≤ 2 ^ 32) :
    matVec (matPow m x e) (matVec (matPow m x f) v m) m = matVec (matPow m x (e + f)) v m := by
  refine colOf_injective (matVec_below _ _ (by omega) hm') (matVec_below _ _ (by omega) hm') ?_
  simp only [colOf_matVec _ _ (show 0 < m by omega) hm', matOf_matPow _ _ (show 0 < m by omega) hm', pow_add,
    Matrix.mulVec_mulVec]

/-- The identity leaves a triple below the modulus as it is. -/
theorem matVec_identity (v : Triple) {m : Nat} (hm : 1 < m) (hm' : m ≤ 2 ^ 32) (hv : v.Below m) :
    matVec .identity v m = v := by
  refine colOf_injective (matVec_below _ _ (by omega) hm') hv ?_
  rw [colOf_matVec _ _ (by omega) hm', matOf_identity, Matrix.one_mulVec]

/-- The first power of a matrix with entries below the modulus is the matrix. -/
theorem matPow_one (x : Mat3) {m : Nat} (hm : 1 < m) (hm' : m ≤ 2 ^ 32) (hx : x.Below m) : matPow m x 1 = x := by
  refine matOf_injective (matPow_below x 1 hm hm') hx ?_
  rw [matOf_matPow _ _ (by omega) hm', pow_one]

end Sys2Proof.Machine
end

