-- ==== Sys2Proof/Laws/Primes.lean ====
section
/-! SUPPORT. M1 and M2 are prime, the fact that `00_scope.md` rule R8 (b) uses (`93_implementation_defined.md` G2), by
Lucas's criterion. -/

namespace Sys2Proof.Config

/-- `acc·a^e` modulo m by repeated squaring, for an exponent of at most `fuel` bits. -/
def powMod (m : Nat) : Nat → Nat → Nat → Nat → Nat
  | 0, _, _, acc => acc
  | fuel + 1, a, e, acc => powMod m fuel (a * a % m) (e / 2) (if e % 2 = 1 then acc * a % m else acc)

theorem powMod_cast (m fuel : Nat) : ∀ a e acc : Nat, e < 2 ^ fuel →
    ((powMod m fuel a e acc : Nat) : ZMod m) = acc * (a : ZMod m) ^ e := by
  induction fuel with
  | zero =>
    intro a e acc h
    obtain rfl : e = 0 := by simpa using h
    simp [powMod]
  | succ fuel ih =>
    intro a e acc h
    have he : (a : ZMod m) ^ e = ((a : ZMod m) * a) ^ (e / 2) * (a : ZMod m) ^ (e % 2) := by
      rw [← pow_two, ← pow_mul, ← pow_add, Nat.div_add_mod]
    rw [powMod, ih _ _ _ (by omega), he]
    rcases Nat.mod_two_eq_zero_or_one e with h2 | h2
    · simp [h2, ZMod.natCast_mod]
    · simp only [h2, if_true, ZMod.natCast_mod, Nat.cast_mul, pow_one]; ring

/-- A power computed modulo m decides whether it is 1. -/
theorem pow_eq_one_iff {m a e : Nat} (fuel : Nat) (h : e < 2 ^ fuel) :
    (a : ZMod m) ^ e = 1 ↔ powMod m fuel a e 1 % m = 1 % m := by
  have := powMod_cast m fuel a e 1 h
  rw [Nat.cast_one, one_mul] at this
  rw [← this, ← ZMod.natCast_eq_natCast_iff', Nat.cast_one]

/-- Lucas's criterion for a number whose predecessor factors over a list of primes, by evaluation. -/
theorem prime_of_lucas (m a : Nat) (qs : List Nat) (hm : 1 < m) (hlt : m < 2 ^ 32) (hq : ∀ q ∈ qs, q.Prime)
    (hprod : qs.prod = m - 1) (h1 : powMod m 32 a (m - 1) 1 % m = 1 % m)
    (hne : ∀ q ∈ qs, powMod m 32 a ((m - 1) / q) 1 % m ≠ 1 % m) : m.Prime := by
  refine lucas_primality m (a : ZMod m) ((pow_eq_one_iff 32 (by omega)).mpr h1) fun q hqp hqd => ?_
  have hmem : q ∈ qs := by
    rw [← hprod] at hqd
    obtain ⟨r, hr, hdvd⟩ := (Prime.dvd_prod_iff hqp.prime).mp hqd
    rwa [(Nat.prime_dvd_prime_iff_eq hqp (hq r hr)).mp hdvd]
  have hle : (m - 1) / q < 2 ^ 32 := Nat.lt_of_le_of_lt (Nat.div_le_self _ _) (by omega)
  exact fun h => hne q hmem ((pow_eq_one_iff 32 hle).mp h)

theorem prime_2147483543 : Nat.Prime 2147483543 := by
  refine prime_of_lucas 2147483543 5 [2, 3137, 342283] (by decide) (by decide) ?_ (by decide) (by decide) (by decide)
  intro q hq
  simp only [List.mem_cons, List.not_mem_nil, or_false] at hq
  rcases hq with rfl | rfl | rfl <;> norm_num

theorem prime_2147472221 : Nat.Prime 2147472221 := by
  refine prime_of_lucas 2147472221 2 [2, 2, 5, 109, 985079] (by decide) (by decide) ?_ (by decide) (by decide)
    (by decide)
  intro q hq
  simp only [List.mem_cons, List.not_mem_nil, or_false] at hq
  rcases hq with rfl | rfl | rfl | rfl | rfl <;> norm_num

theorem m1_prime : Nat.Prime m1 := by
  refine prime_of_lucas 4294967087 5 [2, 2147483543] (by decide) (by decide) ?_ (by decide) (by decide) (by decide)
  intro q hq
  simp only [List.mem_cons, List.not_mem_nil, or_false] at hq
  rcases hq with rfl | rfl
  · norm_num
  · exact prime_2147483543

theorem m2_prime : Nat.Prime m2 := by
  refine prime_of_lucas 4294944443 2 [2, 2147472221] (by decide) (by decide) ?_ (by decide) (by decide) (by decide)
  intro q hq
  simp only [List.mem_cons, List.not_mem_nil, or_false] at hq
  rcases hq with rfl | rfl
  · norm_num
  · exact prime_2147472221

/-- The default parameters meet the constraints of rule R8. -/
theorem params_admissible : params.Admissible := by
  constructor <;> decide

end Sys2Proof.Config
end

