-- ==== Sys2Proof/Laws/Operands.lean ====
section
/-! SUPPORT. What the operands of a command stand for, said once: the selected matrix pair as a power of the one-step
pair, the words of the constant store, a valid State Vector, the checks of SEED, the requested shape, a written DIM
register, and an outcome through `after`. -/

namespace Sys2Proof.Machine

theorem m1_bounds : 1 < Config.m1 ∧ Config.m1 ≤ 2 ^ 32 := by decide

theorem m2_bounds : 1 < Config.m2 ∧ Config.m2 ≤ 2 ^ 32 := by decide

theorem toNat_ofNat_of_lt {a m : Nat} (h : a < m) (hm : m ≤ 2 ^ 32) : (BitVec.ofNat 32 a).toNat = a := by
  rw [BitVec.toNat_ofNat]
  exact Nat.mod_eq_of_lt (Nat.lt_of_lt_of_le h hm)

/-! ## Matrix pairs -/

theorem stepMatrix1_below {p : Config.Params} (hp : p.Admissible) : (stepMatrix1 p).Below Config.m1 := by
  have h0 : (0 : Word).toNat < Config.m1 := by decide
  have h1 : (1 : Word).toNat < Config.m1 := by decide
  refine ⟨⟨h0, h1, h0⟩, ⟨h0, h0, h1⟩, ?_⟩
  simp only [stepMatrix1, Triple.Below, toNat_ofNat_of_lt hp.a13_lt m1_bounds.2, toNat_ofNat_of_lt hp.a12_lt m1_bounds.2,
    toNat_ofNat_of_lt hp.a11_lt m1_bounds.2]
  exact ⟨hp.a13_lt, hp.a12_lt, hp.a11_lt⟩

theorem stepMatrix2_below {p : Config.Params} (hp : p.Admissible) : (stepMatrix2 p).Below Config.m2 := by
  have h0 : (0 : Word).toNat < Config.m2 := by decide
  have h1 : (1 : Word).toNat < Config.m2 := by decide
  refine ⟨⟨h0, h1, h0⟩, ⟨h0, h0, h1⟩, ?_⟩
  simp only [stepMatrix2, Triple.Below, toNat_ofNat_of_lt hp.a23_lt m2_bounds.2, toNat_ofNat_of_lt hp.a22_lt m2_bounds.2,
    toNat_ofNat_of_lt hp.a21_lt m2_bounds.2]
  exact ⟨hp.a23_lt, hp.a22_lt, hp.a21_lt⟩

/-- The one-step pair is the first power. -/
theorem stepPower_one {p : Config.Params} (hp : p.Admissible) : stepPower p 1 = stepPair p := by
  simp only [stepPower, stepPair, matPow_one _ m1_bounds.1 m1_bounds.2 (stepMatrix1_below hp),
    matPow_one _ m2_bounds.1 m2_bounds.2 (stepMatrix2_below hp)]

/-- J_k is the power 2^k of the one-step pair (`42_jump_ahead.md` rules R152, R165). -/
theorem jumpPair_eq_stepPower {p : Config.Params} (hp : p.Admissible) (k : Nat) : jumpPair p k = stepPower p (2 ^ k) := by
  have h1 := matPow2_matPow (stepMatrix1 p) k 1 m1_bounds.1 m1_bounds.2
  have h2 := matPow2_matPow (stepMatrix2 p) k 1 m2_bounds.1 m2_bounds.2
  rw [matPow_one _ m1_bounds.1 m1_bounds.2 (stepMatrix1_below hp), Nat.one_mul] at h1
  rw [matPow_one _ m2_bounds.1 m2_bounds.2 (stepMatrix2_below hp), Nat.one_mul] at h2
  simp only [jumpPair, pairPow2, stepPair, stepPower, h1, h2]

/-- The pair a selector other than W selects is the power it leaps (`30_encoding.md` rule R93). -/
theorem selectedPair_eq {p : Config.Params} (hp : p.Admissible) {sel : MatSel} (s : State) (h : sel ≠ .w) :
    selectedPair p sel s = stepPower p (leap 0 sel) := by
  cases sel with
  | i => rfl
  | a => exact (stepPower_one hp).symm
  | j67 => exact jumpPair_eq_stepPower hp 67
  | j72 => exact jumpPair_eq_stepPower hp 72
  | j134 => exact jumpPair_eq_stepPower hp 134
  | w => exact absurd rfl h

theorem selectedPair_w (p : Config.Params) (s : State) : selectedPair p .w s = (s.w1, s.w2) := rfl

/-! ## The constant store -/

/-- The matrix words of the constant store, `20_memory.md` rule R61. -/
theorem romWord_matrix (p : Config.Params) {n : Nat} (h1 : 16 ≤ n) (h2 : n ≤ 87) :
    romWord p n = some (romMatrixWord p (n - 16)) := by
  unfold romWord
  split <;> try omega
  rw [if_pos ⟨h1, h2⟩]

/-- A ROM index is defined exactly where rule R61 lists it. -/
theorem romWord_isSome (p : Config.Params) (n : Nat) : (romWord p n).isSome = romIndexDefined n := by
  by_cases h : n < 16
  · interval_cases n <;> rfl
  · by_cases h' : n ≤ 87
    · rw [romWord_matrix p (by omega) h']
      simp [romIndexDefined, h', show 16 ≤ n by omega]
    · unfold romWord
      split <;> try omega
      rw [if_neg (by omega)]
      simp [romIndexDefined]
      omega

/-! ## State Vectors -/

theorem validTriple_iff (t : Triple) (m : Nat) :
    validTriple t m = true ↔ t.Below m ∧ ¬(t.t1 = 0 ∧ t.t2 = 0 ∧ t.t3 = 0) := by
  simp only [validTriple, Triple.Below, Bool.and_eq_true, decide_eq_true_eq, Bool.not_eq_true', ← Bool.not_eq_true]
  tauto

/-- ValidState, `43_stream_layout.md` rule R186. -/
theorem validState_iff (v : StateVec) :
    validState v = true ↔ validTriple v.x Config.m1 = true ∧ validTriple v.y Config.m2 = true := by
  simp [validState]

/-- A seed word is valid exactly from 1 to M2 − 1 (`43_stream_layout.md` rule R182). -/
theorem seedRoot_valid_iff (w : Word) : validState (seedRoot w) = true ↔ 1 ≤ w.toNat ∧ w.toNat < 4294944443 := by
  have hz : w = 0 ↔ w.toNat = 0 := ⟨fun h => by rw [h]; rfl, fun h => BitVec.eq_of_toNat_eq h⟩
  rw [validState_iff, validTriple_iff, validTriple_iff]
  simp only [Triple.Below, seedRoot, Config.m1, Config.m2, and_self, hz]
  omega

/-- The three answers of SEED's checks, in their order. -/
theorem seedCheck_cases (p : Config.Params) (s : State) :
    (seedCheck p s = some .errState ∧ validState (seedRoot s.seedw) = false) ∨
    (seedCheck p s = some .errLane ∧ validState (seedRoot s.seedw) = true ∧
      (s.nstreams.toNat < 1 ∨ s.nsub.toNat < 1 ∨ p.lanesMax < s.nstreams.toNat * s.nsub.toNat)) ∨
    (seedCheck p s = none ∧ validState (seedRoot s.seedw) = true ∧ 1 ≤ s.nstreams.toNat ∧ 1 ≤ s.nsub.toNat ∧
      s.nstreams.toNat * s.nsub.toNat ≤ p.lanesMax) := by
  unfold seedCheck
  cases hv : validState (seedRoot s.seedw) with
  | false => exact .inl ⟨rfl, rfl⟩
  | true =>
    by_cases h : s.nstreams.toNat < 1 ∨ s.nsub.toNat < 1 ∨ p.lanesMax < s.nstreams.toNat * s.nsub.toNat
    · exact .inr (.inl ⟨by rw [if_pos h]; rfl, rfl, h⟩)
    · exact .inr (.inr ⟨by rw [if_neg h]; rfl, rfl, by omega, by omega, by omega⟩)

/-! ## Shapes -/

/-- The dimensions the guard reads are the requested ones, for a rank the registers can hold. -/
theorem shapeDims_eq (s : State) (h : s.rank.toNat ≤ 8) : shapeDims s = requestedDims s := by
  unfold shapeDims requestedDims
  refine List.ext_getElem? fun k => ?_
  simp only [List.getElem?_map, List.getElem?_take]
  by_cases hk : k < s.rank.toNat
  · have h8 : k < 8 := by omega
    simp [hk, h8]
  · simp [hk]

@[simp] theorem setDim_same (k : Fin 8) (v : DWord) (s : State) : (setDim k v s).dims[k] = v := by simp [setDim]

theorem setDim_other {k j : Fin 8} (v : DWord) (s : State) (h : j ≠ k) : (setDim k v s).dims[j] = s.dims[j] := by
  simp only [setDim, Fin.getElem_fin]
  exact Vector.getElem_set_ne _ _ (fun e => h (Fin.ext e.symm))

/-! ## Outcomes -/

theorem after_eq_some {i : Instr} {s t : State} : after i s = some t ↔ exec i s = .next t := by
  unfold after
  cases exec i s <;> simp

/-- A word with the given numbers in its fields is the assembly of those fields. -/
theorem assemble_eq_wordOf (op sel : Byte) (imm : Word) : assemble op sel imm = wordOf op.toNat sel.toNat imm.toNat := by
  apply BitVec.eq_of_toNat_eq
  rw [assemble_toNat, wordOf, BitVec.toNat_ofNat]
  refine (Nat.mod_eq_of_lt ?_).symm
  have := op.isLt
  have := sel.isLt
  have := imm.isLt
  omega

end Sys2Proof.Machine
end

