-- ==== Sys2Proof/Laws/PerInstr.lean ====
section
/-! SUPPORT. The family EncodingIsLegal: the word of each well-formed command is one that a row of the opcode table
(`30_encoding.md` rule R90) selects, with an allowed value in every field the row uses. -/

namespace Sys2Proof.Laws.EncodingIsLegal

open Sys2Proof.Machine

/-- The statement of the family: the word of a well-formed command is legal. -/
def Statement (i : Instr) : Prop := i.wellFormed = true → legalWord (encode i)

/-- A row admits an assembled word that meets the row's mask field by field and whose fields it allows. -/
theorem legal_of_row {op sel mop msel : Byte} {imm mimm : Word} {mrsv : BitVec 16} {row : OpcodeRow}
    (hrow : row ∈ opcodeRows) (hmask : row.mask = mop ++ msel ++ mrsv ++ mimm)
    (hpat : assemble (op &&& mop) (sel &&& msel) (imm &&& mimm) = row.pattern)
    (hallowed : row.allowed sel.toNat imm.toNat = true) : legalWord (assemble op sel imm) :=
  ⟨row, hrow, by rw [hmask, assemble_and, hpat], by rw [assemble_sel, assemble_imm]; exact hallowed⟩

theorem and_full (op : Byte) : op &&& 0xFF#8 = op := BitVec.and_allOnes

/-- Format Z: the whole word is the match. -/
theorem legal_z {op : Byte} {row : OpcodeRow} (hrow : row ∈ opcodeRows)
    (hmask : row.mask = 0xFF#8 ++ 0xFF#8 ++ 0xFFFF#16 ++ 0xFFFFFFFF#32) (hpat : assemble op 0 0 = row.pattern)
    (hallowed : row.allowed 0 0 = true) : legalWord (assemble op 0 0) :=
  legal_of_row hrow hmask (by rw [← hpat, and_full]; simp) hallowed

/-- Format S: SEL is free. -/
theorem legal_s {op sel : Byte} {row : OpcodeRow} (hrow : row ∈ opcodeRows)
    (hmask : row.mask = 0xFF#8 ++ 0#8 ++ 0xFFFF#16 ++ 0xFFFFFFFF#32) (hpat : assemble op 0 0 = row.pattern)
    (hallowed : row.allowed sel.toNat 0 = true) : legalWord (assemble op sel 0) :=
  legal_of_row hrow hmask (by rw [← hpat, and_full]; simp) hallowed

/-- Format I: IMM is free. -/
theorem legal_i {op : Byte} {imm : Word} {row : OpcodeRow} (hrow : row ∈ opcodeRows)
    (hmask : row.mask = 0xFF#8 ++ 0xFF#8 ++ 0xFFFF#16 ++ 0#32) (hpat : assemble op 0 0 = row.pattern)
    (hallowed : row.allowed 0 imm.toNat = true) : legalWord (assemble op 0 imm) :=
  legal_of_row hrow hmask (by rw [← hpat, and_full]; simp) hallowed

/-- Format SI: SEL and IMM are free. -/
theorem legal_si {op sel : Byte} {imm : Word} {row : OpcodeRow} (hrow : row ∈ opcodeRows)
    (hmask : row.mask = 0xFF#8 ++ 0#8 ++ 0xFFFF#16 ++ 0#32) (hpat : assemble op 0 0 = row.pattern)
    (hallowed : row.allowed sel.toNat imm.toNat = true) : legalWord (assemble op sel imm) :=
  legal_of_row hrow hmask (by rw [← hpat, and_full]; simp) hallowed

theorem row_mem {k : Nat} (h : k < opcodeRows.length) : opcodeRows[k] ∈ opcodeRows := List.getElem_mem h

theorem nop : Statement .nop := fun _ => legal_z (op := 0x00) (row_mem (k := 0) (by decide)) rfl (by decide) rfl

theorem sreset : Statement .sreset := fun _ => legal_z (op := 0x01) (row_mem (k := 1) (by decide)) rfl (by decide) rfl

theorem wrreg (reg : Reg) (value : Word) : Statement (.wrreg reg value) := fun h =>
  legal_si (op := 0x02) (row_mem (k := 2) (by decide)) rfl (by decide) (by
    have hw : reg.writable = true := h
    cases reg <;> first | rfl | cases hw)

theorem rdreg (reg : Reg) : Statement (.rdreg reg) := fun _ =>
  legal_s (op := 0x03) (row_mem (k := 3) (by decide)) rfl (by decide) (by
    cases reg with
    | dim k => revert k; decide
    | _ => rfl)

theorem rdconst (index : Word) : Statement (.rdconst index) := fun h =>
  legal_i (op := 0x04) (row_mem (k := 4) (by decide)) rfl (by decide) h

theorem wrdims (k : Fin 8) (value : Word) : Statement (.wrdims k value) := fun _ =>
  legal_si (op := 0x08) (row_mem (k := 5) (by decide)) rfl (by decide) (by fin_cases k <;> rfl)

theorem wrdimu (k : Fin 8) (value : Word) : Statement (.wrdimu k value) := fun _ =>
  legal_si (op := 0x09) (row_mem (k := 6) (by decide)) rfl (by decide) (by fin_cases k <;> rfl)

theorem wrdimh (k : Fin 8) (value : Word) : Statement (.wrdimh k value) := fun _ =>
  legal_si (op := 0x0A) (row_mem (k := 7) (by decide)) rfl (by decide) (by fin_cases k <;> rfl)

theorem addmod (m : Modulus) : Statement (.addmod m) := fun _ =>
  legal_s (op := 0x10) (row_mem (k := 8) (by decide)) rfl (by decide) (by cases m <;> rfl)

theorem mulmod (m : Modulus) : Statement (.mulmod m) := fun _ =>
  legal_s (op := 0x11) (row_mem (k := 9) (by decide)) rfl (by decide) (by cases m <;> rfl)

theorem macmod (m : Modulus) : Statement (.macmod m) := fun _ =>
  legal_s (op := 0x12) (row_mem (k := 10) (by decide)) rfl (by decide) (by cases m <;> rfl)

theorem step (lane : Word) : Statement (.step lane) := fun _ =>
  legal_i (op := 0x20) (row_mem (k := 11) (by decide)) rfl (by decide) rfl

theorem cvt (dt : Dtype) : Statement (.cvt dt) := fun _ =>
  legal_s (op := 0x21) (row_mem (k := 12) (by decide)) rfl (by decide) (by cases dt <;> rfl)

theorem jump (sel : MatSel) (lane : Word) : Statement (.jump sel lane) := fun _ =>
  legal_si (op := 0x28) (row_mem (k := 13) (by decide)) rfl (by decide) (by cases sel <;> rfl)

theorem matld (sel : MatSel) : Statement (.matld sel) := fun h =>
  legal_s (op := 0x30) (row_mem (k := 14) (by decide)) rfl (by decide) (by
    have hs : (sel != .w) = true := h
    cases sel <;> first | rfl | cases hs)

theorem matsqr : Statement .matsqr := fun _ => legal_z (op := 0x31) (row_mem (k := 15) (by decide)) rfl (by decide) rfl

theorem matpow2 (k : Word) : Statement (.matpow2 k) := fun h =>
  legal_i (op := 0x32) (row_mem (k := 16) (by decide)) rfl (by decide) h

theorem matmul (sel : MatSel) : Statement (.matmul sel) := fun h =>
  legal_s (op := 0x33) (row_mem (k := 17) (by decide)) rfl (by decide) (by
    have hs : (sel != .w) = true := h
    cases sel <;> first | rfl | cases hs)

theorem matrd (m : Modulus) (index : Word) : Statement (.matrd m index) := fun h =>
  legal_si (op := 0x34) (row_mem (k := 18) (by decide)) rfl (by decide) (by
    have hi : decide (index.toNat ≤ 8) = true := h
    cases m <;> exact hi)

theorem seed : Statement .seed := fun _ => legal_z (op := 0x40) (row_mem (k := 19) (by decide)) rfl (by decide) rfl

theorem ldstate (lane : Word) : Statement (.ldstate lane) := fun _ =>
  legal_i (op := 0x41) (row_mem (k := 20) (by decide)) rfl (by decide) rfl

theorem rdstate (word : StateWord) (lane : Word) : Statement (.rdstate word lane) := fun _ =>
  legal_si (op := 0x42) (row_mem (k := 21) (by decide)) rfl (by decide) (by cases word <;> rfl)

theorem check : Statement .check := fun _ => legal_z (op := 0x50) (row_mem (k := 22) (by decide)) rfl (by decide) rfl

theorem generate (dt : Dtype) : Statement (.generate dt) := fun _ =>
  legal_s (op := 0x51) (row_mem (k := 23) (by decide)) rfl (by decide) (by cases dt <;> rfl)

end Sys2Proof.Laws.EncodingIsLegal
end

