-- ==== Sys2Proof/Tests/Slice0.lean ====
section
/-! SUPPORT. The model's own tests: the decoder on words written out from `30_encoding.md`, one smoke test for each check of
`wellFormed`, single steps against the vectors of `95_test_vectors.md` (their names in the comments), and a witness for
every obligation that has hypotheses. -/

namespace Sys2Proof.Tests

open Sys2Proof.Machine

-- The kernel evaluates each test on its own before the next is read; at once they would need a thread and its stack each.
set_option Elab.async false

/-! ## Helpers -/

/-- The response of one command. -/
def reply (i : Instr) (s : State) : Option Response := (after i s).bind State.response

/-- The state after one command that completes. -/
def nextOf (i : Instr) (s : State) : State := (after i s).getD s

/-- The next state of one step, where there is one. -/
def stepNext (s : State) : Option State :=
  match step s with
  | .next t => some t
  | .fault _ => none
  | .refused _ => none

/-- The state after one step that completes. -/
def stepped (s : State) : State := (stepNext s).getD s

/-- The response (OK, data). -/
def okay (data : DWord) : Option Response := some ⟨.ok, data⟩

/-- The response of a failure. -/
def failure (e : Status) : Option Response := some ⟨e, 0⟩

/-- A State Vector from its six words. -/
def vec (x1 x2 x3 y1 y2 y3 : Word) : StateVec := ⟨⟨x1, x2, x3⟩, ⟨y1, y2, y3⟩⟩

/-- The reset state with the all-12345 State Vector in lane 0. -/
def lane0 : State := { State.reset with lsb := [(0, seedRoot 12345)] }

/-- The reset state with the operand registers written. -/
def operands (a b c : Word) : State := { State.reset with a := a, b := b, c := c }

/-- The reset state with the registers of SEED written. -/
def seeding (seedw nstreams nsub : Word) : State :=
  { State.reset with seedw := seedw, nstreams := nstreams, nsub := nsub }

/-- The reset state with a shape of one dimension, a lane count and lanes. -/
def request (dim : DWord) (lanes : Word) (mem : Memory) : State :=
  { State.reset with rank := 1, dims := #v[dim, 0, 0, 0, 0, 0, 0, 0], lanes := lanes, lsb := mem }

/-- Lanes 0 and 1 of SEED 12345 with one stream (`95_test_vectors.md` section 3.4). -/
def twoLanes : Memory :=
  [(0, seedRoot 12345), (1, vec 4290119770 276546653 4223930142 46669486 1441992334 3067404446)]

theorem exec_nextOf (i : Instr) (s : State) (h : (after i s).isSome = true) : exec i s = .next (nextOf i s) := by
  obtain ⟨t, ht⟩ := Option.isSome_iff_exists.mp h
  rw [nextOf, ht]
  exact after_eq_some.mp ht

theorem step_stepped (s : State) (h : (stepNext s).isSome = true) : step s = .next (stepped s) := by
  unfold stepped stepNext at *
  cases hs : step s with
  | next t => rfl
  | fault f => rw [hs] at h; cases h
  | refused r => rw [hs] at h; cases h

/-! ## Decoding: one word of every command, `30_encoding.md` rules R86, R90 -/

theorem test_decode_nop : decode 0x0000000000000000 = .ok .nop := by decide
theorem test_decode_sreset : decode 0x0100000000000000 = .ok .sreset := by decide
theorem test_decode_wrreg : decode 0x0214000000000003 = .ok (.wrreg .rank 3) := by decide
theorem test_decode_rdreg : decode 0x0327000000000000 = .ok (.rdreg (.dim 7)) := by decide
theorem test_decode_rdconst : decode 0x0400000000000057 = .ok (.rdconst 87) := by decide
theorem test_decode_wrdims : decode 0x0807000080000000 = .ok (.wrdims 7 0x80000000) := by decide
theorem test_decode_wrdimu : decode 0x0900000080000000 = .ok (.wrdimu 0 0x80000000) := by decide
theorem test_decode_wrdimh : decode 0x0A00000000000001 = .ok (.wrdimh 0 1) := by decide
theorem test_decode_addmod : decode 0x1001000000000000 = .ok (.addmod .m1) := by decide
theorem test_decode_mulmod : decode 0x1102000000000000 = .ok (.mulmod .m2) := by decide
theorem test_decode_macmod : decode 0x1202000000000000 = .ok (.macmod .m2) := by decide
theorem test_decode_step : decode 0x200000000000FFFF = .ok (.step 65535) := by decide
theorem test_decode_cvt : decode 0x2101000000000000 = .ok (.cvt .fp32) := by decide
theorem test_decode_jump : decode 0x2805000000000000 = .ok (.jump .w 0) := by decide
theorem test_decode_matld : decode 0x3004000000000000 = .ok (.matld .j134) := by decide
theorem test_decode_matsqr : decode 0x3100000000000000 = .ok .matsqr := by decide
theorem test_decode_matpow2 : decode 0x32000000000000FF = .ok (.matpow2 255) := by decide
theorem test_decode_matmul : decode 0x3302000000000000 = .ok (.matmul .j67) := by decide
theorem test_decode_matrd : decode 0x3401000000000005 = .ok (.matrd .m1 5) := by decide
theorem test_decode_seed : decode 0x4000000000000000 = .ok .seed := by decide
theorem test_decode_ldstate : decode 0x4100000000010000 = .ok (.ldstate 65536) := by decide
theorem test_decode_rdstate : decode 0x4203000000000003 = .ok (.rdstate .y1 3) := by decide
theorem test_decode_check : decode 0x5000000000000000 = .ok .check := by decide
theorem test_decode_generate : decode 0x5100000000000000 = .ok (.generate .fp64) := by decide

/-- Words that are not legal, one for each reason of `Illegal`, in its order. -/
theorem test_decode_illegal :
    decode 0x0500000000000000 = .error .undefinedOpcode ∧ decode 0x0000000100000000 = .error .reservedField ∧
    decode 0x4001000000000000 = .error .unusedSel ∧ decode 0x0300000000000001 = .error .unusedImm ∧
    decode 0x0205000000000000 = .error .undefinedRegister ∧ decode 0x0203000000000000 = .error .readOnlyRegister ∧
    decode 0x0808000000000000 = .error .dimensionIndex ∧ decode 0x1000000000000000 = .error .modulusSelector ∧
    decode 0x2103000000000000 = .error .dtypeSelector ∧ decode 0x3005000000000000 = .error .matrixSelector ∧
    decode 0x4206000000000000 = .error .stateWordIndex ∧ decode 0x0400000000000006 = .error .romIndex ∧
    decode 0x3200000000000100 = .error .squaringCount ∧ decode 0x3401000000000009 = .error .entryIndex := by
  decide

/-- The opcode table's numbering: one row's word, and a word that does not fit a command. -/
theorem test_decode_table_word :
    decodeTableWord 64 0x2803000000000005 = some (.jump .j72 5) ∧ decodeTableWord 72 (2 ^ 64) = none ∧
    decodeTableWord 64 0x2806000000000000 = none := by
  decide

/-! ## WellFormed: each check refuses an ill-formed term -/

theorem test_wf_wrreg : (Instr.wrreg .status 0).wellFormed = false ∧ (Instr.wrreg .s5 0).wellFormed = true := by decide
theorem test_wf_rdconst : (Instr.rdconst 7).wellFormed = false ∧ (Instr.rdconst 8).wellFormed = true := by decide
theorem test_wf_matld : (Instr.matld .w).wellFormed = false ∧ (Instr.matld .j134).wellFormed = true := by decide
theorem test_wf_matmul : (Instr.matmul .w).wellFormed = false ∧ (Instr.matmul .i).wellFormed = true := by decide
theorem test_wf_matpow2 : (Instr.matpow2 256).wellFormed = false ∧ (Instr.matpow2 255).wellFormed = true := by decide
theorem test_wf_matrd : (Instr.matrd .m1 9).wellFormed = false ∧ (Instr.matrd .m1 8).wellFormed = true := by decide

/-! ## Single commands -/

theorem test_nop : reply .nop { lane0 with status := 7, esticky := 0x80 } = okay 0 := by decide +kernel

/-- SRESET clears the lanes and ESTICKY (rule R254). -/
theorem test_sreset : (nextOf .sreset { lane0 with esticky := 0x80, r := 5 }).lsb = [] ∧
    (nextOf .sreset { lane0 with esticky := 0x80, r := 5 }).esticky = 0 := by decide +kernel

theorem test_wrreg : (nextOf (.wrreg .s3 12345) .reset).s3 = 12345 ∧ (nextOf (.wrreg .s3 12345) .reset).s2 = 0 := by decide +kernel

/-- RDREG STATUS returns the code the failed command before it left (program P5), then leaves 0. -/
theorem test_rdreg_status : reply (.rdreg .status) (nextOf .check .reset) = okay 3 ∧
    (nextOf (.rdreg .status) (nextOf .check .reset)).status = 0 := by decide +kernel

theorem test_rdreg_id : reply (.rdreg .id) .reset = okay 0x4D524755 := by decide +kernel

/-- Spot checks of section 2.3. -/
theorem test_rdconst_step_matrix : reply (.rdconst 22) .reset = okay 4294156359 ∧
    reply (.rdconst 33) .reset = okay 527612 := by decide +kernel

theorem test_rdconst_jump_matrix : reply (.rdconst 34) .reset = okay 3894793123 ∧
    reply (.rdconst 87) .reset = okay 4092197741 := by decide +kernel

/-- 0x80000000 by WRDIMS is −2^31: ERR_SHAPE (program P5). -/
theorem test_wrdims : (nextOf (.wrdims 0 0x80000000) .reset).dims[0] = 0xFFFFFFFF80000000 := by decide +kernel

theorem test_wrdimu : (nextOf (.wrdimu 0 0x80000000) .reset).dims[0] = 0x80000000 := by decide +kernel

theorem test_wrdimh : (nextOf (.wrdimh 0 1) (request 7 0 [])).dims[0] = 0x100000007 := by decide +kernel

/-- MV4. -/
theorem test_addmod : reply (.addmod .m1) (operands 4294944443 5 0) = okay 4294944448 := by decide +kernel

/-- MV7. -/
theorem test_addmod_operand : reply (.addmod .m2) (operands 4294944443 0 0) = failure .errOperand ∧
    (nextOf (.addmod .m2) (operands 4294944443 0 0)).esticky = 0x40 := by decide +kernel

/-- MV16, MV19. -/
theorem test_mulmod : reply (.mulmod .m2) (operands 527612 12345 0) = okay 2218425697 ∧
    (nextOf (.mulmod .m1) (operands 4294944443 4294944443 0)).r = 512750736 := by decide +kernel

/-- MV20, MV28. -/
theorem test_macmod : reply (.macmod .m1) (operands 4294156359 12345 147326752) = okay 3023790853 ∧
    reply (.macmod .m2) (operands 2 3 4294944443) = failure .errOperand := by decide +kernel

/-- SV1. -/
theorem test_step : reply (.step 0) lane0 = okay 545508589 ∧
    (nextOf (.step 0) lane0).lsb.read 0 = some (vec 12345 12345 3023790853 12345 12345 2478282264) := by decide +kernel

/-- SV3, where the difference wraps. -/
theorem test_step_wrap : reply (.step 0) { lane0 with lsb := [(0, vec 1 0 0 1 0 0)] } = okay 582505 := by decide +kernel

/-- The table of section 2.4 at z = 545508589 and at the clamps. -/
theorem test_cvt : reply (.cvt .fp64) { lane0 with r := 545508589 } = okay 0x3FC041E683C5CD32 ∧
    (nextOf (.cvt .fp32) { lane0 with r := 545508589 }).f = 0x3E020F34 ∧
    reply (.cvt .fp16) { lane0 with r := 545508589 } = okay 0x3010 := by decide +kernel

theorem test_cvt_clamps : reply (.cvt .fp32) { lane0 with r := 4294967086 } = okay 0x3F7FFFFF ∧
    reply (.cvt .fp16) lane0 = okay 0x0001 ∧ reply (.cvt .fp16) { lane0 with r := 384 } = okay 0x0002 := by decide +kernel

/-- JV4, JV5. -/
theorem test_jump : (nextOf (.jump .j72 0) lane0).lsb.read 0 =
      some (vec 4290119770 276546653 4223930142 46669486 1441992334 3067404446) ∧
    (nextOf (.jump .j134 0) lane0).lsb.read 0 =
      some (vec 546457566 874492071 380178815 2145604372 711387940 3112098037) := by decide +kernel

theorem test_jump_unseeded : reply (.jump .i 7) lane0 = failure .errUnseeded ∧
    reply (.jump .j72 65536) lane0 = failure .errLane := by decide +kernel

/-- The J67 rows of section 2.3. -/
theorem test_matld : (nextOf (.matld .j67) .reset).w1.r0 = ⟨3894793123, 921712152, 596236860⟩ ∧
    (nextOf (.matld .j67) .reset).w2.r2 = ⟨4058246217, 1308958254, 2070907998⟩ := by decide +kernel

/-- The squares of the one-step matrices, section 2.3. -/
theorem test_matsqr : (nextOf .matsqr (nextOf (.matld .a) .reset)).w1.r1 = ⟨4294156359, 1403580, 0⟩ ∧
    (nextOf .matsqr (nextOf (.matld .a) .reset)).w2.r2 = ⟨2706407399, 4293573854, 3497978192⟩ := by decide +kernel

/-- MATLD.J67 ; MATPOW2 5 leaves J72 (section 3.3). -/
theorem test_matpow2 : (nextOf (.matpow2 5) (nextOf (.matld .j67) .reset)).w1.r0 =
    ⟨4092801160, 3749431174, 542781592⟩ := by decide +kernel

/-- A^3 by MATSQR ; MATMUL.A: its first two rows are the last two of A^2 (section 2.3). -/
theorem test_matmul : (nextOf (.matmul .a) (nextOf .matsqr (nextOf (.matld .a) .reset))).w1.r1 =
    ⟨0, 4294156359, 1403580⟩ := by decide +kernel

/-- A1 read back row by row (section 2.3): row 2 is entries 6, 7, 8. -/
theorem test_matrd : reply (.matrd .m1 6) (nextOf (.matld .a) .reset) = okay 4294156359 ∧
    reply (.matrd .m2 8) (nextOf (.matld .a) .reset) = okay 527612 := by decide +kernel

/-- SEED 12345 of 2 × 2 (section 3.4). -/
theorem test_seed : reply .seed (seeding 12345 2 2) = okay 4 ∧
    (nextOf .seed (seeding 12345 2 2)).lsb.read 3 =
      some (vec 4077691289 823815457 728265414 876581285 743670177 773571307) := by decide +kernel

/-- SD14, SD9: the order of the checks and the exact product. -/
theorem test_seed_checks : reply .seed (seeding 0 0 0) = failure .errState ∧
    reply .seed (seeding 12345 257 256) = failure .errLane := by decide +kernel

/-- LV2 and LV5. -/
theorem test_ldstate : (nextOf (.ldstate 65535) { lane0 with s0 := 1, s4 := 1 }).lsb.read 65535 =
      some (vec 1 0 0 0 1 0) ∧
    reply (.ldstate 0) { lane0 with s3 := 1, s4 := 1, s5 := 1 } = failure .errState := by decide +kernel

/-- The lane check comes first. -/
theorem test_ldstate_lane : reply (.ldstate 65536) .reset = failure .errLane := by decide +kernel

/-- Section 3.4, last paragraph. -/
theorem test_rdstate : reply (.rdstate .y2 3) { lane0 with lsb := [(3, vec 1 2 3 4 5 6)] } = okay 5 ∧
    reply (.rdstate .x1 2) { lane0 with lsb := [(3, vec 1 2 3 4 5 6)] } = failure .errUnseeded := by decide +kernel

/-- GC10, GC1. -/
theorem test_check : reply .check (request 7 4 []) = okay 0x200000007 ∧
    reply .check (request 0x80000000 1 []) = failure .errCapacity := by decide +kernel

/-- Program P5's ERR_SHAPE, and ERR_LANE with LANES = 0 (GN9). -/
theorem test_check_order : reply .check (request 0xFFFFFFFF80000000 0 []) = failure .errShape ∧
    reply .check (request 4 0 []) = failure .errLane := by decide +kernel

/-- GN6's first call over three elements: the value of lane 1 of the second round is dropped, both lanes stepped. -/
theorem test_generate : (nextOf (.generate .fp16) (request 3 2 twoLanes)).ob =
      some ⟨.fp16, [3], [.fp16 0x3010, .fp16 0x37EE, .fp16 0x3519]⟩ ∧
    (nextOf (.generate .fp16) (request 3 2 twoLanes)).lsb.read 1 =
      some (vec 4223930142 1956429373 3382643795 3067404446 4122660695 3509890245) := by decide +kernel

/-- GN9: lane 1 not valid, lane 0 is not advanced. -/
theorem test_generate_unseeded : reply (.generate .fp64) (request 4 2 lane0.lsb) = failure .errUnseeded ∧
    (nextOf (.generate .fp64) (request 4 2 lane0.lsb)).lsb = lane0.lsb := by decide +kernel

/-- A word through the port, an illegal one, and reset. -/
theorem test_step_port : (stepped (lane0.withFetchWord 64 0x2000000000000000)).r = 545508589 ∧
    (stepped (lane0.withFetchWord 64 0x0001000000000000)).status = 7 ∧
    (stepped { lane0 with host := [.reset] }).lsb = [] := by decide +kernel

/-! ## Witnesses: states and operands that meet the hypotheses of the obligations

Each names its obligation, and its clause where an obligation has several with hypotheses of their own; the values stand
at a boundary of their range where it has one. -/

/-- The state with the host about to issue a word. -/
def issuing (cw : DWord) (s : State) : State := { s with host := [.command cw] }

/-- Words with the opcode of a command that are the word of none of its forms, for each command of the table. -/
theorem witness_rejected_words :
    opNumber 0x0001000000000000 = 0x00 ∧ opNumber 0x0200000100000000 = 0x02 ∧ opNumber 0x3005000000000000 = 0x30 ∧
    (0x0001000000000000 : DWord) ≠ 0 ∧
    (∀ sel : MatSel, sel ≠ .w → (0x3005000000000000 : DWord) ≠ encode (.matld sel)) := by
  refine ⟨by decide, by decide, by decide, by decide, fun sel h => ?_⟩
  cases sel <;> first | decide | exact absurd rfl h

theorem witness_DecodeInvertsEncode :
    (Instr.rdconst 87).wellFormed = true ∧ (Instr.wrreg .rank 0xFFFFFFFF).wellFormed = true := by decide

theorem witness_EncodeInvertsDecode : decode 0x5102000000000000 = .ok (.generate .fp16) := by decide

theorem witness_IllegalWord_illegal :
    (issuing 0x3401000000000009 lane0).host = [.command 0x3401000000000009] ∧ ¬ legalWord 0x3401000000000009 := by
  unfold legalWord OpcodeRow.admits
  decide +kernel

theorem witness_IllegalWord_legal :
    legalWord 0x3401000000000008 ∧ (issuing 0x3401000000000008 lane0).host = [.command 0x3401000000000008] ∧
    step (issuing 0x3401000000000008 lane0) = .next (stepped (issuing 0x3401000000000008 lane0)) ∧
    (stepped (issuing 0x3401000000000008 lane0)).response = okay 1 :=
  ⟨by unfold legalWord OpcodeRow.admits; decide +kernel, rfl, step_stepped _ (by decide +kernel), by decide +kernel⟩

theorem witness_StepRunsTheDecodedCommand :
    (issuing 0x2000000000000000 lane0).host = [.command 0x2000000000000000] ∧
    decode 0x2000000000000000 = .ok (.step 0) ∧ decode (encode (.matpow2 255)) = .ok (.matpow2 255) := by
  decide +kernel

theorem witness_IdleAndResetActions : lane0.host = [] ∧ { lane0 with host := [.reset] }.host = [.reset] := by decide +kernel

theorem witness_ResetValues : Reg.version ≠ .id ∧ Reg.spl ≠ .id ∧ Reg.spl ≠ .version ∧
    (65535 : Word).toNat < Config.params.lanesMax ∧ validState (vec 0 0 1 0 4294944442 0) = true := by decide

theorem witness_ErrorEntryChangesOnlyStatus :
    (issuing 0x5000000000000000 lane0).host = [.command 0x5000000000000000] ∧
    step (issuing 0x5000000000000000 lane0) = .next (stepped (issuing 0x5000000000000000 lane0)) ∧
    (stepped (issuing 0x5000000000000000 lane0)).response = failure .errShape ∧ Status.errShape ≠ .ok :=
  ⟨rfl, step_stepped _ (by decide +kernel), by decide +kernel, by decide⟩

/-- SRESET, a command that succeeds and one that fails. -/
theorem witness_StatusRegisters :
    step (issuing 0x0100000000000000 lane0) = .next (stepped (issuing 0x0100000000000000 lane0)) ∧
    decode 0x0100000000000000 = .ok .sreset ∧
    step (issuing 0x2000000000000000 lane0) = .next (stepped (issuing 0x2000000000000000 lane0)) ∧
    decode 0x2000000000000000 ≠ .ok .sreset ∧
    (stepped (issuing 0x2000000000000000 lane0)).response = okay 545508589 ∧
    step (issuing 0x0500000000000000 lane0) = .next (stepped (issuing 0x0500000000000000 lane0)) ∧
    decode 0x0500000000000000 ≠ .ok .sreset ∧
    (stepped (issuing 0x0500000000000000 lane0)).response = failure .errIllegal ∧
    lane0.esticky.getLsbD 0 = false :=
  ⟨step_stepped _ (by decide +kernel), by decide, step_stepped _ (by decide +kernel), by decide, by decide +kernel,
    step_stepped _ (by decide +kernel), by decide, by decide +kernel, by decide⟩

theorem witness_EveryCommandResponds : hasNoResult (.jump .w 0) = true ∧ Status.errLane ≠ .ok := by decide

theorem witness_OnlyTabledStatusCodes :
    (Instr.step 65536).wellFormed = true ∧ exec (.step 65536) lane0 = .next (nextOf (.step 65536) lane0) ∧
    (nextOf (.step 65536) lane0).response = failure .errLane :=
  ⟨by decide, exec_nextOf _ _ (by decide +kernel), by decide +kernel⟩

theorem witness_StatusRegistersSteerNoCommand : Instr.rdreg .n ≠ .rdreg .status ∧ Instr.rdreg .n ≠ .rdreg .esticky := by
  decide

theorem witness_FailedCommandFailsAgain :
    exec .seed (seeding 12345 257 256) = .next (nextOf .seed (seeding 12345 257 256)) ∧
    (nextOf .seed (seeding 12345 257 256)).response = failure .errLane ∧ Status.errLane ≠ .ok :=
  ⟨exec_nextOf _ _ (by decide +kernel), by decide +kernel, by decide⟩

/-- A state with a lane seeded, W = A and a result, about to step its lane. -/
def busy : State :=
  { lane0 with
    r := 4294967086, w1 := stepMatrix1 Config.params, w2 := stepMatrix2 Config.params
    n := 2147483647, spl := 2147483647
    ob := some ⟨.fp16, [1], [.fp16 0x3010]⟩
    host := [.command 0x2000000000000000] }

theorem witness_StepKeepsStateOk : StateOk busy ∧ step busy = .next (stepped busy) :=
  ⟨{ r_lt := by decide
     status_lt := by decide
     esticky_bit0 := by decide
     lsb_wf := by decide +kernel
     lanes_valid := by decide +kernel
     w_power := ⟨1, by decide +kernel⟩
     counts_le := by decide
     ob_ok := fun ob h => by
       cases h
       exact ⟨by decide, by decide, by decide, by decide, by decide, by decide⟩ },
   step_stepped _ (by decide +kernel)⟩

theorem witness_StepKeepsLaneBufferCanonical : busy.lsb.wf ∧ step busy = .next (stepped busy) :=
  ⟨by decide +kernel, step_stepped _ (by decide +kernel)⟩

theorem witness_ResultRegisterStaysBelowM1 :
    busy.r.toNat < 4294967087 ∧ step busy = .next (stepped busy) ∧
    exec .matsqr busy = .next (nextOf .matsqr busy) ∧ (∀ m, Instr.matsqr ≠ .addmod m) ∧
    (∀ m, Instr.matsqr ≠ .mulmod m) ∧ (∀ m, Instr.matsqr ≠ .macmod m) ∧ (∀ l, Instr.matsqr ≠ .step l) ∧
    Instr.matsqr ≠ .sreset :=
  ⟨by decide, step_stepped _ (by decide +kernel), exec_nextOf _ _ (by decide +kernel), fun _ h => (nomatch h),
    fun _ h => (nomatch h), fun _ h => (nomatch h), fun _ h => (nomatch h), by decide⟩

/-- ADDMOD, MULMOD and MACMOD: the largest operands in range, and the smallest out of range, for each modulus. -/
theorem witness_ModularResults :
    ((operands 4294967086 4294967086 4294967086).a.toNat < modulusOf .m1 ∧
      (operands 4294967086 4294967086 4294967086).b.toNat < modulusOf .m1 ∧
      (operands 4294967086 4294967086 4294967086).c.toNat < modulusOf .m1) ∧
    ((operands 4294944442 4294944442 4294944442).a.toNat < modulusOf .m2 ∧
      (operands 4294944442 4294944442 4294944442).b.toNat < modulusOf .m2 ∧
      (operands 4294944442 4294944442 4294944442).c.toNat < modulusOf .m2) ∧
    modulusOf .m1 ≤ (operands 4294967087 0 0).a.toNat ∧ modulusOf .m2 ≤ (operands 0 4294944443 0).b.toNat ∧
    modulusOf .m2 ≤ (operands 0 0 4294944443).c.toNat := by
  decide

/-- The lane commands STEP, JUMP and RDSTATE: the last lane valid, the last lane not valid, the first index that is no
lane. -/
theorem witness_LaneCommands :
    ((65535 : Word).toNat < Config.params.lanesMax ∧
      { lane0 with lsb := [(65535, seedRoot 1)] }.lsb.read (65535 : Word).toNat = some (seedRoot 1)) ∧
    lane0.lsb.read (65535 : Word).toNat = none ∧ Config.params.lanesMax ≤ (65536 : Word).toNat := by
  decide +kernel

theorem witness_RawValueOfTwoTerms :
    (4294967086 : Nat) < 4294967087 ∧ (4294944442 : Nat) < 4294944443 ∧ (4294944442 : Nat) ≤ 4294967086 ∧
    (0 : Nat) < 4294944442 := by
  decide

theorem witness_StateVectorsStayValid : Config.params.Admissible ∧ validState (vec 0 0 1 0 4294944442 0) = true :=
  ⟨Config.params_admissible, by decide⟩

/-- The largest raw value, and the smallest FP16 number above 0. -/
theorem witness_ToFloat :
    (4294967086 : Nat) < 4294967087 ∧ 1 < 2 ^ ((floatFormat .fp16).precision + exponentBits .fp16) ∧
    finitePattern .fp16 1 ∧ 0 < patternValue .fp16 1 ∧ patternValue .fp16 1 < 1 := by
  refine ⟨by decide, by decide, by unfold finitePattern; decide, ?_, ?_⟩ <;>
    norm_num [patternValue, exponentField, fractionField, signField, floatFormat, exponentBits]

theorem witness_ToFloatClampRanges :
    (4294966960 ≤ 4294966960 ∧ 4294966960 < 4294967087) ∧ 127 ≤ 127 ∧
    (4293918512 ≤ 4293918512 ∧ 4293918512 < 4294967087) := by
  decide

theorem witness_JumpEqualsRepeatedSteps :
    (busy.w1, busy.w2) = stepPower Config.params 1 ∧ (0 : Word).toNat < Config.params.lanesMax ∧
    busy.lsb.read (0 : Word).toNat = some (seedRoot 12345) ∧ validState (seedRoot 12345) = true := by
  decide +kernel

theorem witness_JumpsAndStepsAddUp :
    [Instr.step 0, .jump .j67 0, .jump .w 0].map (laneMove 1 0) = [1, 2 ^ 67, 1].map some ∧
    [Instr.jump .w 0, .step 0, .jump .j67 0].Perm [Instr.step 0, .jump .j67 0, .jump .w 0] := by
  decide +kernel

theorem witness_MatrixCommands : (busy.w1, busy.w2) = stepPower Config.params 1 ∧
    MatSel.j134 ≠ .w ∧ (255 : Word).toNat ≤ 255 ∧ 255 < (256 : Word).toNat ∧ (8 : Word).toNat ≤ 8 ∧
    8 < (9 : Word).toNat := by
  decide +kernel

theorem witness_WorkingMatrixExponent :
    (busy.w1, busy.w2) = stepPower Config.params 1 ∧ exec .seed busy = .next (nextOf .seed busy) ∧
    (∀ sel, Instr.seed ≠ .matld sel) ∧ Instr.seed ≠ .matsqr ∧ (∀ k, Instr.seed ≠ .matpow2 k) ∧
    (∀ sel, Instr.seed ≠ .matmul sel) ∧ Instr.seed ≠ .sreset :=
  ⟨by decide +kernel, exec_nextOf _ _ (by decide +kernel), fun _ h => (nomatch h), by decide, fun _ h => (nomatch h),
    fun _ h => (nomatch h), by decide⟩

/-- SEED and the positions it fills: the smallest and the largest seed word, one lane and all lanes. -/
theorem witness_SeedResult :
    (1 ≤ (seeding 1 1 1).seedw.toNat ∧ (seeding 1 1 1).seedw.toNat < 4294944443 ∧
      1 ≤ (seeding 1 1 1).nstreams.toNat ∧ 1 ≤ (seeding 1 1 1).nsub.toNat ∧
      (seeding 1 1 1).nstreams.toNat * (seeding 1 1 1).nsub.toNat ≤ Config.params.lanesMax) ∧
    ((seeding 4294944442 256 256).seedw.toNat < 4294944443 ∧
      (seeding 4294944442 256 256).nstreams.toNat * (seeding 4294944442 256 256).nsub.toNat
        ≤ Config.params.lanesMax) ∧
    (seeding 0 1 1).seedw.toNat = 0 ∧ 4294944443 ≤ (seeding 4294944443 1 1).seedw.toNat ∧
    (seeding 12345 0 1).nstreams.toNat = 0 ∧ (seeding 12345 1 0).nsub.toNat = 0 ∧
    Config.params.lanesMax < (seeding 12345 257 256).nstreams.toNat * (seeding 12345 257 256).nsub.toNat := by
  decide

/-- LDSTATE with the largest words in range, and with a triple all zero. -/
theorem witness_LdstateResult :
    ((65535 : Word).toNat < Config.params.lanesMax ∧ (4294967086 : Word).toNat < 4294967087 ∧
      (4294944442 : Word).toNat < 4294944443 ∧
      ¬((4294967086 : Word) = 0 ∧ (4294967086 : Word) = 0 ∧ (4294967086 : Word) = 0) ∧
      ¬((4294944442 : Word) = 0 ∧ (4294944442 : Word) = 0 ∧ (4294944442 : Word) = 0)) ∧
    Config.params.lanesMax ≤ (65536 : Word).toNat ∧
    (State.reset.s0 = 0 ∧ State.reset.s1 = 0 ∧ State.reset.s2 = 0) := by
  decide

/-- A shape of the largest admitted count over all lanes. -/
theorem request_largest : requestOk (request 2147483647 65536 []) := by
  unfold requestOk shapeOk lanesOk
  decide +kernel

/-- CHECK and GENERATE: a rank of 0, a dimension of 0, no lane, one lane too many, a count of 2^31. -/
theorem witness_CheckResult :
    requestOk (request 2147483647 65536 []) ∧ ¬ shapeOk State.reset ∧ ¬ shapeOk (request 0 1 []) ∧
    (shapeOk (request 4 0 []) ∧ ¬ lanesOk (request 4 0 [])) ∧
    (shapeOk (request 4 65537 []) ∧ ¬ lanesOk (request 4 65537 [])) ∧
    (shapeOk (request 2147483648 1 []) ∧ lanesOk (request 2147483648 1 []) ∧
      Config.params.nMax < requestedCount (request 2147483648 1 [])) :=
  ⟨request_largest, by unfold shapeOk lanesOk; decide +kernel⟩

theorem witness_GuardIgnoresDimensionOrder :
    (requestedDims { request 2 1 [] with rank := 2, dims := #v[2, 3, 0, 0, 0, 0, 0, 0] }).Perm
      (requestedDims { request 2 1 [] with rank := 2, dims := #v[3, 2, 0, 0, 0, 0, 0, 0] }) ∧
    exec .check { request 2 1 [] with rank := 2, dims := #v[2, 3, 0, 0, 0, 0, 0, 0] } =
      .next (nextOf .check { request 2 1 [] with rank := 2, dims := #v[2, 3, 0, 0, 0, 0, 0, 0] }) ∧
    exec .check { request 2 1 [] with rank := 2, dims := #v[3, 2, 0, 0, 0, 0, 0, 0] } =
      .next (nextOf .check { request 2 1 [] with rank := 2, dims := #v[3, 2, 0, 0, 0, 0, 0, 0] }) :=
  ⟨by decide +kernel, exec_nextOf _ _ (by decide +kernel), exec_nextOf _ _ (by decide +kernel)⟩

theorem witness_CheckAndGenerateAgree :
    exec .check (request 4 2 lane0.lsb) = .next (nextOf .check (request 4 2 lane0.lsb)) ∧
    exec (.generate .fp16) (request 4 2 lane0.lsb) = .next (nextOf (.generate .fp16) (request 4 2 lane0.lsb)) ∧
    (nextOf .check (request 4 2 lane0.lsb)).response = okay 0x200000004 ∧
    (nextOf (.generate .fp16) (request 4 2 lane0.lsb)).response = failure .errUnseeded :=
  ⟨exec_nextOf _ _ (by decide +kernel), exec_nextOf _ _ (by decide +kernel), by decide +kernel, by decide +kernel⟩

theorem witness_WrdimResults : (0 : Fin 8) ≠ 7 := by decide

theorem witness_GenerateResult_seeded : requestOk (request 3 2 twoLanes) ∧ lanesSeeded (request 3 2 twoLanes) := by
  unfold requestOk shapeOk lanesOk lanesSeeded
  decide +kernel

/-- The first three failures of GENERATE are those of `witness_CheckResult`. -/
theorem witness_GenerateResult_unseeded : requestOk (request 4 2 lane0.lsb) ∧ ¬ lanesSeeded (request 4 2 lane0.lsb) := by
  unfold requestOk shapeOk lanesOk lanesSeeded
  decide +kernel

theorem witness_GenerateScheduleInvariance :
    (request 3 2 twoLanes).lsb.wf ∧
    exec (.generate .fp16) (request 3 2 twoLanes) = .next (nextOf (.generate .fp16) (request 3 2 twoLanes)) ∧
    (nextOf (.generate .fp16) (request 3 2 twoLanes)).response = okay 0x200000003 ∧
    (nextOf (.generate .fp16) (request 3 2 twoLanes)).ob =
      some ⟨.fp16, [3], [.fp16 0x3010, .fp16 0x37EE, .fp16 0x3519]⟩ ∧
    [1, 0].Perm (List.range (request 3 2 twoLanes).lanes.toNat) :=
  ⟨by decide +kernel, exec_nextOf _ _ (by decide +kernel), by decide +kernel, by decide +kernel, by decide +kernel⟩

/-- One call over four elements, one over eight, and one over one lane: resumed, doubled and serial generation, and a new
output buffer. -/
theorem witness_GenerateComparisons :
    (exec (.generate .fp16) (request 4 2 twoLanes) = .next (nextOf (.generate .fp16) (request 4 2 twoLanes)) ∧
      (nextOf (.generate .fp16) (request 4 2 twoLanes)).response = okay 0x200000004 ∧
      (nextOf (.generate .fp16) (request 4 2 twoLanes)).ob =
        some ⟨.fp16, [4], [.fp16 0x3010, .fp16 0x37EE, .fp16 0x3519, .fp16 0x3BC3]⟩) ∧
    (exec (.generate .fp16) (request 8 2 twoLanes) = .next (nextOf (.generate .fp16) (request 8 2 twoLanes)) ∧
      (nextOf (.generate .fp16) (request 8 2 twoLanes)).response = okay 0x400000008 ∧
      ((nextOf (.generate .fp16) (request 8 2 twoLanes)).ob).isSome = true ∧
      (request 4 2 twoLanes).lanes.toNat ∣ requestedCount (request 4 2 twoLanes) ∧
      requestedCount (request 8 2 twoLanes) = 2 * requestedCount (request 4 2 twoLanes)) ∧
    (exec (.generate .fp16) (request 2 1 lane0.lsb) = .next (nextOf (.generate .fp16) (request 2 1 lane0.lsb)) ∧
      (nextOf (.generate .fp16) (request 2 1 lane0.lsb)).response = okay 0x200000002 ∧
      ((nextOf (.generate .fp16) (request 2 1 lane0.lsb)).ob).isSome = true ∧
      (request 2 1 lane0.lsb).lanes.toNat = 1 ∧
      (request 2 1 lane0.lsb).lsb.read 0 = (request 4 2 twoLanes).lsb.read (2 % 2) ∧
      2 < requestedCount (request 4 2 twoLanes) ∧ 2 / 2 < requestedCount (request 2 1 lane0.lsb)) :=
  ⟨⟨exec_nextOf _ _ (by decide +kernel), by decide +kernel, by decide +kernel⟩,
   ⟨exec_nextOf _ _ (by decide +kernel), by decide +kernel, by decide +kernel, by decide +kernel, by decide +kernel⟩,
   ⟨exec_nextOf _ _ (by decide +kernel), by decide +kernel, by decide +kernel, by decide +kernel, by decide +kernel,
     by decide +kernel, by decide +kernel⟩⟩

/-- A unit with one lane, one format and a conversion of its own: 1/2 for every raw value. -/
def smallUnit : Config.Params :=
  { Config.params with
    lanesMax := 1, nMax := 4, kMax := 3, dtypes := [.fp32], toFloat := fun _ _ => .fp32 0x3F000000 }

theorem witness_EveryUnitKeepsItsInvariants_parameters : smallUnit.Admissible ∧ ConversionAdmissible smallUnit := by
  refine ⟨by constructor <;> decide, ?_⟩
  have hdt : ∀ dt ∈ smallUnit.dtypes, dt = .fp32 := fun dt h => by simpa [smallUnit] using h
  have hhalf : 0 < patternValue .fp32 1056964608 ∧ patternValue .fp32 1056964608 < 1 := by
    norm_num [patternValue, exponentField, fractionField, signField, floatFormat, exponentBits]
  have hfin : finitePattern .fp32 1056964608 := by unfold finitePattern; decide
  exact ⟨fun dt h z _ => (hdt dt h).symm, fun dt _ z _ => ⟨hfin, hhalf.1, hhalf.2⟩,
    fun dt _ z z' _ _ _ => Rat.le_refl, fun h => absurd (hdt _ h) (by decide)⟩

theorem witness_EveryUnitKeepsItsInvariants_state :
    StateOkOf smallUnit { State.reset with host := [.command 0x2101000000000000] } ∧
    stepOf smallUnit { State.reset with host := [.command 0x2101000000000000] } =
      .next (succeeded 0x3F000000 { State.reset with f := 0x3F000000 }) :=
  ⟨{ r_lt := by decide
     status_lt := by decide
     esticky_bit0 := by decide
     lsb_wf := Memory.wf_nil
     lanes_valid := fun q hq => nomatch hq
     w_power := ⟨0, rfl⟩
     counts_le := by decide
     ob_ok := fun ob h => nomatch h }, rfl⟩

/-- In that unit FP64 is illegal, and so is a fourth squaring. -/
theorem test_small_unit_decode : decodeOf smallUnit 0x2101000000000000 = .ok (.cvt .fp32) ∧
    decodeOf smallUnit 0x2100000000000000 = .error .dtypeSelector ∧
    decodeOf smallUnit 0x3200000000000004 = .error .squaringCount := ⟨rfl, rfl, rfl⟩

theorem witness_WrregResult : Reg.version ∈ [Reg.r, .f, .status, .esticky, .n, .spl, .id, .version] := by decide

theorem witness_RdconstResult :
    (MatSel.j134, 3) ∈ [(MatSel.a, 0), (.j67, 1), (.j72, 2), (.j134, 3)] ∧ 1 < 2 ∧ 2 < 3 ∧
    (15 : Word).toNat ∈ [6, 7, 14, 15] ∧ 88 ≤ (88 : Word).toNat := by
  decide

end Sys2Proof.Tests
end

/-! # The family `10_state.md`: the status registers and the reset state

How a command completes, said once for every command of every unit: it succeeds through `respond` or fails through
`raise`, and `ESTICKY` moves in no other way. -/

namespace Sys2Proof.Machine

/-! ## The marks of success and failure -/

/-- A failing status sets the bit of its code (`10_state.md` rule R30). -/
theorem estickyAfter_of_ne_ok (old : Byte) {e : Status} (he : e ≠ .ok) :
    estickyAfter old e = old ||| (1#8 <<< e.code.toNat) := by
  cases e with
  | ok => exact absurd rfl he
  | _ => rfl

/-- `raise` leaves the marks the statements write out as `failed`. -/
theorem raise_eq_failed {e : Status} (he : e ≠ .ok) (s : State) : raise e s = failed e e.code.toNat s := by
  cases e with
  | ok => exact absurd rfl he
  | _ => rfl

/-- Only the code 0 has bit 0, and no failing status has that code. -/
theorem stickyBit_getLsbD_zero {e : Status} (he : e ≠ .ok) : (1#8 <<< e.code.toNat).getLsbD 0 = false := by
  cases e with
  | ok => exact absurd rfl he
  | _ => rfl

/-! ## The error branches of the shared checks -/

theorem readLane_error_ne_ok {p : Config.Params} {lane : Word} {s : State} {e : Status}
    (h : readLane p lane s = .error e) : e ≠ .ok := by
  rcases (readLane_eq_error p lane s e).mp h with ⟨rfl, -⟩ | ⟨rfl, -⟩ <;> decide

theorem capacityGuard_error_ne_ok {p : Config.Params} {s : State} {e : Status}
    (h : capacityGuard p s = .error e) : e ≠ .ok := by
  rintro rfl
  rcases capacityGuard_cases p s with ⟨hg, -⟩ | ⟨hg, -⟩ | ⟨-, -, -, ⟨hg, -⟩ | ⟨-, -, hg⟩⟩
  case inr.inr.inr =>
    rw [hg] at h
    split at h <;> cases h
  all_goals
    rw [hg] at h
    cases h

theorem seedCheck_some_ne_ok {p : Config.Params} {s : State} {e : Status} (h : seedCheck p s = some e) : e ≠ .ok := by
  rintro rfl
  rcases seedCheck_cases p s with ⟨hc, -⟩ | ⟨hc, -⟩ | ⟨hc, -⟩ <;> rw [hc] at h <;> cases h

section
variable {p : Config.Params} {s : State} {e : Status}

theorem execStepOf_of_error {lane : Word} (h : readLane p lane s = .error e) :
    execStepOf p lane s = .next (raise e s) := by
  simp only [execStepOf, h]

theorem execJumpOf_of_error {sel : MatSel} {lane : Word} (h : readLane p lane s = .error e) :
    execJumpOf p sel lane s = .next (raise e s) := by
  simp only [execJumpOf, h]

theorem execRdstateOf_of_error {word : StateWord} {lane : Word} (h : readLane p lane s = .error e) :
    execRdstateOf p word lane s = .next (raise e s) := by
  simp only [execRdstateOf, h]

theorem execSeedOf_of_some (h : seedCheck p s = some e) : execSeedOf p s = .next (raise e s) := by
  simp only [execSeedOf, h]

theorem execCheckOf_of_error (h : capacityGuard p s = .error e) : execCheckOf p s = .next (raise e s) := by
  simp only [execCheckOf, h]

theorem execGenerateOf_of_error {dt : Dtype} (hdt : p.dtypes.contains dt = true) (h : capacityGuard p s = .error e) :
    execGenerateOf p dt s = .next (raise e s) := by
  simp only [execGenerateOf_eq s hdt, h]

end

/-! ## How a command completes -/

/-- The two ways in which a command other than SRESET completes: it succeeds, with `ESTICKY` and the host's further
actions as they were, or it fails through the error entry. -/
inductive Completes (s : State) : Host.Outcome State Fault Refusal → Prop
  | success (d : DWord) (u : State) (hesticky : u.esticky = s.esticky) (hhost : u.host = s.host) :
      Completes s (.next (respond d u))
  | failure (e : Status) (he : e ≠ .ok) : Completes s (.next (raise e s))

theorem Completes.ite {s : State} {c : Prop} [Decidable c] {x y : Host.Outcome State Fault Refusal}
    (hx : Completes s x) (hy : Completes s y) : Completes s (if c then x else y) := by
  split
  · exact hx
  · exact hy

/-- ERR_ILLEGAL or a success, the shape of every command whose only check is on its operand field. -/
theorem Completes.illegal_or {s : State} {c : Prop} [Decidable c] (d : DWord) (u : State)
    (hesticky : u.esticky = s.esticky) (hhost : u.host = s.host) :
    Completes s (if c then .next (raise .errIllegal s) else .next (respond d u)) :=
  .ite (.failure _ (by decide)) (.success d u hesticky hhost)

/-- WRREG writes neither status register (`10_state.md` rules R29, R30). -/
theorem writeReg_esticky_eq (reg : Reg) (v : Word) (s : State) : (writeReg reg v s).esticky = s.esticky := by
  cases reg <;> rfl

theorem writeReg_host_eq (reg : Reg) (v : Word) (s : State) : (writeReg reg v s).host = s.host := by
  cases reg <;> rfl

section
variable (p : Config.Params) (s : State)

theorem execWrreg_completes (reg : Reg) (v : Word) : Completes s (execWrreg reg v s) :=
  .ite (.success 0 _ (writeReg_esticky_eq reg v s) (writeReg_host_eq reg v s)) (.failure _ (by decide))

theorem execRdconstOf_completes (index : Word) : Completes s (execRdconstOf p index s) := by
  unfold execRdconstOf
  split
  · exact .success _ s rfl rfl
  · exact .failure _ (by decide)

/-- ADDMOD, MULMOD and MACMOD: ERR_OPERAND, or a result in R. -/
theorem modular_completes {c : Prop} [Decidable c] (value : Nat) :
    Completes s (if c then .next (raise .errOperand s) else .next (finishModular value s)) :=
  .ite (.failure _ (by decide)) (.success _ (setR _ s) rfl rfl)

theorem execStepOf_completes (lane : Word) : Completes s (execStepOf p lane s) := by
  unfold execStepOf
  split
  · next e he => exact .failure e (readLane_error_ne_ok he)
  · exact .success _ _ rfl rfl

theorem execJumpOf_completes (sel : MatSel) (lane : Word) : Completes s (execJumpOf p sel lane s) := by
  unfold execJumpOf
  split
  · next e he => exact .failure e (readLane_error_ne_ok he)
  · exact .success _ _ rfl rfl

theorem execRdstateOf_completes (word : StateWord) (lane : Word) : Completes s (execRdstateOf p word lane s) := by
  unfold execRdstateOf
  split
  · next e he => exact .failure e (readLane_error_ne_ok he)
  · exact .success _ s rfl rfl

theorem execSeedOf_completes : Completes s (execSeedOf p s) := by
  unfold execSeedOf
  split
  · next e he => exact .failure e (seedCheck_some_ne_ok he)
  · exact .success _ _ rfl rfl

theorem execLdstateOf_completes (lane : Word) : Completes s (execLdstateOf p lane s) :=
  .ite (.failure _ (by decide)) (.ite (.failure _ (by decide)) (.success 0 _ rfl rfl))

theorem execCheckOf_completes : Completes s (execCheckOf p s) := by
  unfold execCheckOf
  split
  · next e he => exact .failure e (capacityGuard_error_ne_ok he)
  · exact .success _ _ rfl rfl

theorem execGenerateOf_completes (dt : Dtype) : Completes s (execGenerateOf p dt s) := by
  unfold execGenerateOf
  refine .ite ?_ (.failure _ (by decide))
  split
  · next e he => exact .failure e (capacityGuard_error_ne_ok he)
  · split
    · exact .failure _ (by decide)
    · exact .success _ _ rfl rfl

/-- Every command but SRESET, in every unit and every state. -/
theorem execOf_completes {i : Instr} (h : i ≠ .sreset) : Completes s (execOf p i s) := by
  cases i with
  | sreset => exact absurd rfl h
  | nop => exact .success 0 s rfl rfl
  | wrreg reg value => exact execWrreg_completes s reg value
  | rdreg reg => exact .success _ s rfl rfl
  | rdconst index => exact execRdconstOf_completes p s index
  | wrdims k value => exact .success 0 _ rfl rfl
  | wrdimu k value => exact .success 0 _ rfl rfl
  | wrdimh k value => exact .success 0 _ rfl rfl
  | addmod m => exact modular_completes s _
  | mulmod m => exact modular_completes s _
  | macmod m => exact modular_completes s _
  | step lane => exact execStepOf_completes p s lane
  | cvt dt => exact .ite (.success _ _ rfl rfl) (.failure _ (by decide))
  | jump sel lane => exact execJumpOf_completes p s sel lane
  | matld sel => exact .illegal_or 0 _ rfl rfl
  | matsqr => exact .success 0 _ rfl rfl
  | matpow2 k => exact .illegal_or 0 _ rfl rfl
  | matmul sel => exact .illegal_or 0 _ rfl rfl
  | matrd m index => exact .illegal_or _ s rfl rfl
  | seed => exact execSeedOf_completes p s
  | ldstate lane => exact execLdstateOf_completes p s lane
  | rdstate word lane => exact execRdstateOf_completes p s word lane
  | check => exact execCheckOf_completes p s
  | generate dt => exact execGenerateOf_completes p s dt

end

/-- `exec` is the meaning of the commands in the unit with the default parameters. -/
theorem exec_eq_execOf (i : Instr) (s : State) : exec i s = execOf Config.params i s := by
  cases i <;> rfl

theorem exec_completes {i : Instr} (s : State) (h : i ≠ .sreset) : Completes s (exec i s) := by
  rw [exec_eq_execOf]
  exact execOf_completes Config.params s h

/-! ## One command from the port -/

/-- A command word is SRESET, which resets and responds, or completes in one of the two ways of `Completes`; a word that
does not decode fails. -/
theorem step_command_cases {s : State} {cw : DWord} {rest : List HostAction} (h : s.host = .command cw :: rest) :
    (decode cw = .ok .sreset ∧ step s = .next (respond 0 { State.reset with host := rest })) ∨
    (decode cw ≠ .ok .sreset ∧ Completes { s with host := rest } (step s)) := by
  cases hd : decode cw with
  | error e =>
    have hstep : step s = .next (raise .errIllegal { s with host := rest }) := runHostAction_error h hd
    exact .inr ⟨nofun, hstep ▸ .failure _ (by decide)⟩
  | ok i =>
    have hstep : step s = exec i { s with host := rest } := runHostAction_ok h hd
    by_cases hi : i = .sreset
    · subst hi
      exact .inl ⟨rfl, hstep⟩
    · exact .inr ⟨fun e => hi (Except.ok.inj e), hstep ▸ exec_completes _ hi⟩

/-- What a completed command leaves in STATUS and ESTICKY, read off its response (`10_state.md` rules R29, R30). -/
theorem Completes.status_esticky {s t : State} (h : Completes s (.next t)) :
    ∃ r : Response, t.response = some r ∧ t.status = r.status.code ∧
      (r.status = .ok → t.esticky = s.esticky) ∧
      (r.status ≠ .ok → t.esticky = s.esticky ||| (1#8 <<< r.status.code.toNat)) := by
  cases h with
  | success d u hesticky hhost => exact ⟨⟨.ok, d⟩, rfl, rfl, fun _ => hesticky, fun hne => absurd rfl hne⟩
  | failure e he => exact ⟨⟨e, 0⟩, rfl, rfl, fun heq => absurd heq he, fun _ => estickyAfter_of_ne_ok _ he⟩

/-- Bit 0 of ESTICKY stays 0 (rule R30). -/
theorem Completes.esticky_bit0 {s t : State} (h : Completes s (.next t)) (h0 : s.esticky.getLsbD 0 = false) :
    t.esticky.getLsbD 0 = false := by
  cases h with
  | success d u hesticky hhost => rw [respond_esticky, hesticky, h0]
  | failure e he =>
    rw [raise_esticky, estickyAfter_of_ne_ok _ he, BitVec.getLsbD_or, h0, stickyBit_getLsbD_zero he, Bool.or_self]

/-- A word the decoder refuses is rejected wherever the host issues it (`30_encoding.md` rule R88). -/
theorem rejected_of_decode_error {cw : DWord} {why : Illegal} (h : decode cw = .error why) : rejected cw := by
  intro s rest hs
  rw [← show Status.errIllegal.code.toNat = 7 from rfl, ← raise_eq_failed (by decide)]
  exact runHostAction_error hs h

/-- A WRREG word decodes where its register has access RW (`46_system_access.md` rule R251). -/
theorem decode_wrreg_word (reg : Reg) (v : Word) :
    decode (wordOf 0x02 reg.number.toNat v.toNat) =
      if reg.writable then .ok (.wrreg reg v) else .error .readOnlyRegister := by
  have hword : wordOf 0x02 reg.number.toNat v.toNat = assemble 0x02 reg.number v :=
    (assemble_eq_wordOf 0x02 reg.number v).symm
  rw [hword, decode, decode_assemble]
  show decodeWrreg reg.number v = _
  rw [decodeWrreg, Reg.number_ofNumber]

theorem rejected_wrreg_readOnly {reg : Reg} (h : reg.writable = false) (v : Word) :
    rejected (wordOf 0x02 reg.number.toNat v.toNat) :=
  rejected_of_decode_error (why := .readOnlyRegister) (by rw [decode_wrreg_word, h]; rfl)

/-- Settles O9: SRESET apart, every command completes through `respond` or `raise`, which fix both registers. -/
theorem statusRegistersFollowTheResponse : Obligations.StatusRegistersFollowTheResponse := by
  unfold Obligations.StatusRegistersFollowTheResponse
  refine ⟨rfl, fun n hn v => ?_, fun s t rest hs ht => ?_, fun s t cw rest hs ht => ?_, fun s => rfl⟩
  · rcases List.mem_pair.mp hn with rfl | rfl
    · exact rejected_wrreg_readOnly (reg := .status) rfl v
    · exact rejected_wrreg_readOnly (reg := .esticky) rfl v
  · have hreset : step s = .next { State.reset with host := rest } := runHostAction_reset hs
    obtain rfl := Host.Outcome.next.inj (hreset.symm.trans ht)
    rfl
  · rcases step_command_cases hs with ⟨hd, hstep⟩ | ⟨hd, hc⟩
    · obtain rfl := Host.Outcome.next.inj (hstep.symm.trans ht)
      exact ⟨⟨.ok, 0⟩, rfl, rfl, fun _ => rfl, fun hne => absurd hd hne, fun hne => absurd hd hne,
        fun _ => BitVec.getLsbD_zero⟩
    · rw [ht] at hc
      obtain ⟨r, hr, hstatus, hok, hfail⟩ := hc.status_esticky
      exact ⟨r, hr, hstatus, fun heq => absurd heq hd, fun _ => hok, fun _ => hfail, hc.esticky_bit0⟩

/-! ## The reset state -/

/-- Every register but ID and VERSION reads 0 after reset (`10_state.md` rule R43). -/
theorem readReg_reset {reg : Reg} (hid : reg ≠ .id) (hversion : reg ≠ .version) : readReg reg State.reset = 0 := by
  cases reg with
  | id => exact absurd rfl hid
  | version => exact absurd rfl hversion
  | dim k => revert k; decide
  | _ => rfl

/-- No seed word of 0 is valid, so SEED stops at its first check. -/
theorem seedCheck_reset (p : Config.Params) : seedCheck p State.reset = some .errState := rfl

/-- A rank of 0 is no shape, so the guard stops at its first check. -/
theorem capacityGuard_reset (p : Config.Params) : capacityGuard p State.reset = .error .errShape := by
  have hrank : State.reset.rank.toNat < 1 ∨ p.rankMax < State.reset.rank.toNat := .inl (by decide)
  rw [capacityGuard, if_pos hrank]

/-- No lane that exists is seeded after reset. -/
theorem readLane_reset {p : Config.Params} {lane : Word} (h : lane.toNat < p.lanesMax) :
    readLane p lane State.reset = .error .errUnseeded :=
  (readLane_eq_error p lane State.reset .errUnseeded).mpr (.inr ⟨rfl, h, Memory.read_nil _⟩)

theorem modulusValue_pos (m : Modulus) : 0 < modulusValue m := by cases m <;> decide

section
variable {m : Modulus} {s : State}

theorem execAddmod_of_lt (ha : s.a.toNat < modulusValue m) (hb : s.b.toNat < modulusValue m) :
    execAddmod m s = .next (finishModular (addMod s.a.toNat s.b.toNat (modulusValue m)) s) :=
  if_neg (by omega)

theorem execMulmod_of_lt (ha : s.a.toNat < modulusValue m) (hb : s.b.toNat < modulusValue m) :
    execMulmod m s = .next (finishModular (mulMod s.a.toNat s.b.toNat (modulusValue m)) s) :=
  if_neg (by omega)

theorem execMacmod_of_lt (ha : s.a.toNat < modulusValue m) (hb : s.b.toNat < modulusValue m)
    (hc : s.c.toNat < modulusValue m) :
    execMacmod m s = .next (finishModular (macMod s.a.toNat s.b.toNat s.c.toNat (modulusValue m)) s) :=
  if_neg (by omega)

end

/-- A modular command whose result is 0 changes nothing of the reset state but the marks of success. -/
theorem finishModular_reset {value : Nat} (h : value = 0) :
    finishModular value State.reset = succeeded 0 State.reset := by
  subst h
  rfl

/-- The modular commands give 0 on the operands 0. -/
theorem modular_reset (m : Modulus) :
    exec (.addmod m) State.reset = .next (succeeded 0 State.reset) ∧
    exec (.mulmod m) State.reset = .next (succeeded 0 State.reset) ∧
    exec (.macmod m) State.reset = .next (succeeded 0 State.reset) := by
  have h0 := modulusValue_pos m
  exact ⟨(execAddmod_of_lt (s := .reset) h0 h0).trans (congrArg _ (finishModular_reset (Nat.zero_mod _))),
    (execMulmod_of_lt (s := .reset) h0 h0).trans (congrArg _ (finishModular_reset (Nat.zero_mod _))),
    (execMacmod_of_lt (s := .reset) h0 h0 h0).trans (congrArg _ (finishModular_reset (Nat.zero_mod _)))⟩

/-- A jump by (I3, I3) leaves a valid State Vector as it is. -/
theorem jumpVector_identityPair {v : StateVec} (hv : validState v = true) : jumpVector identityPair v = v := by
  obtain ⟨hx, hy⟩ := (validState_iff v).mp hv
  have hxb := ((validTriple_iff v.x Config.m1).mp hx).1
  have hyb := ((validTriple_iff v.y Config.m2).mp hy).1
  simp only [jumpVector, identityPair, matVec_identity v.x m1_bounds.1 m1_bounds.2 hxb,
    matVec_identity v.y m2_bounds.1 m2_bounds.2 hyb]

/-- Settles O7: the fields of the reset state, and the first check each command meets there. -/
theorem resetValues : Obligations.ResetValues := by
  unfold Obligations.ResetValues
  have hguard := capacityGuard_reset Config.params
  refine ⟨fun reg hid hversion => readReg_reset hid hversion, by decide, by decide, rfl, rfl, Memory.read_nil, rfl,
    execSeedOf_of_some (seedCheck_reset Config.params), execCheckOf_of_error hguard,
    fun dt => execGenerateOf_of_error (params_dtypes_contains dt) hguard, fun lane hlane => ?_, modular_reset,
    fun v hv => jumpVector_identityPair hv⟩
  have hread := readLane_reset hlane
  exact ⟨execStepOf_of_error hread, fun _ => execJumpOf_of_error hread, fun _ => execRdstateOf_of_error hread⟩

end Sys2Proof.Machine

/-! # The family `30_encoding.md`: legal words

The decoder accepts exactly the words of the opcode table: a decoded command is well-formed and its encoding is the word
it was decoded from, and a row of the table fixes what its mask covers and allows only operands that the decoder
names. -/

namespace Sys2Proof

/-! ## A decoded command and the fields of its word -/

/-- A well-formed command whose word has the given fields. -/
structure Instr.HasFields (p : Config.Params) (i : Instr) (op sel : Byte) (imm : Word) : Prop where
  wellFormed : i.wellFormedOf p = true
  opcode : op.toNat = i.opcode.toNat
  selBits : i.selBits = sel
  immBits : i.immBits = imm

section
variable {p : Config.Params} {op sel : Byte} {imm : Word} {i j : Instr}

theorem Instr.HasFields.encode_eq (h : i.HasFields p op sel imm) : encode i = assemble op sel imm := by
  rw [encode, BitVec.eq_of_toNat_eq h.opcode, h.selBits, h.immBits]

theorem Instr.HasFields.of_formatZ (h : formatZ sel imm i = .ok j) (hi : i.HasFields p op 0 0) :
    j.HasFields p op sel imm := by
  obtain ⟨rfl, rfl, rfl⟩ := formatZ_eq_ok h
  exact hi

theorem Instr.HasFields.of_operand {α : Type} {o : Option α} {why : Illegal} {k : α → Instr}
    (h : operand o why k = .ok i) (hk : ∀ x, o = some x → (k x).HasFields p op sel imm) :
    i.HasFields p op sel imm := by
  obtain ⟨x, hx, rfl⟩ := operand_eq_ok h
  exact hk x hx

theorem Instr.HasFields.of_formatS {α : Type} {o : Option α} {why : Illegal} {k : α → Instr}
    (h : formatS imm (operand o why k) = .ok i) (hk : ∀ x, o = some x → (k x).HasFields p op sel 0) :
    i.HasFields p op sel imm := by
  obtain ⟨rfl, ho⟩ := formatS_eq_ok h
  exact .of_operand ho hk

theorem Instr.HasFields.of_formatI {c : Prop} [Decidable c] {why : Illegal}
    (h : formatI sel (if c then .ok i else .error why) = .ok j) (hi : c → i.HasFields p op 0 imm) :
    j.HasFields p op sel imm := by
  obtain ⟨rfl, ho⟩ := formatI_eq_ok h
  split at ho
  · next hc =>
    cases ho
    exact hi hc
  · cases ho

theorem decodeWrreg_eq_ok (h : decodeWrreg sel imm = .ok i) :
    ∃ reg, Reg.ofNumber sel = some reg ∧ reg.writable = true ∧ i = .wrreg reg imm := by
  unfold decodeWrreg at h
  split at h
  · cases h
  · next reg hreg =>
    split at h
    · next hw =>
      cases h
      exact ⟨reg, hreg, hw, rfl⟩
    · cases h

/-- A decoded command is well-formed and has the fields it was decoded from, opcode by opcode of rule R90. -/
theorem hasFields_of_decodeFieldsOf (h : decodeFieldsOf p op sel imm = .ok i) : i.HasFields p op sel imm := by
  unfold decodeFieldsOf at h
  split at h
  case h_1 hop | h_2 hop | h_16 hop | h_20 hop | h_23 hop => exact .of_formatZ h ⟨rfl, hop, rfl, rfl⟩
  case h_3 hop =>
    obtain ⟨reg, hreg, hw, rfl⟩ := decodeWrreg_eq_ok h
    exact ⟨hw, hop, Reg.ofNumber_eq_some hreg, rfl⟩
  case h_4 hop => exact .of_formatS h fun _ hx => ⟨rfl, hop, Reg.ofNumber_eq_some hx, rfl⟩
  case h_5 hop => exact .of_formatI h fun hc => ⟨hc, hop, rfl, rfl⟩
  case h_6 hop | h_7 hop | h_8 hop =>
    exact .of_operand h fun _ hx => ⟨rfl, hop, dimensionOfSel_eq_some hx, rfl⟩
  case h_9 hop | h_10 hop | h_11 hop =>
    exact .of_formatS h fun _ hx => ⟨rfl, hop, Modulus.ofSel_eq_some hx, rfl⟩
  case h_12 hop | h_21 hop =>
    obtain ⟨rfl, ho⟩ := formatI_eq_ok h
    cases ho
    exact ⟨rfl, hop, rfl, rfl⟩
  case h_13 hop | h_24 hop =>
    refine .of_formatS h fun _ hx => ?_
    obtain ⟨hc, hsel⟩ := supportedDtype_eq_some.mp hx
    exact ⟨hc, hop, hsel, rfl⟩
  case h_14 hop => exact .of_operand h fun _ hx => ⟨rfl, hop, MatSel.ofJumpSel_eq_some hx, rfl⟩
  case h_15 hop | h_18 hop =>
    refine .of_formatS h fun _ hx => ?_
    obtain ⟨hsel, hw⟩ := MatSel.ofMatrixSel_eq_some hx
    exact ⟨bne_iff_ne.mpr hw, hop, hsel, rfl⟩
  case h_17 hop => exact .of_formatI h fun hc => ⟨decide_eq_true hc, hop, rfl, rfl⟩
  case h_19 hop =>
    split at h
    · next hc => exact .of_operand h fun _ hx => ⟨decide_eq_true hc, hop, Modulus.ofSel_eq_some hx, rfl⟩
    · cases h
  case h_22 hop => exact .of_operand h fun _ hx => ⟨rfl, hop, StateWord.ofSel_eq_some hx, rfl⟩
  case h_25 => cases h

/-- In any unit a word that decodes is the word of the well-formed command it decodes to (rule R97). -/
theorem wellFormedOf_and_encode_of_decodeOf {w : DWord} (h : decodeOf p w = .ok i) :
    i.wellFormedOf p = true ∧ encode i = w := by
  unfold decodeOf at h
  split at h
  · cases h
  · next hrsv =>
    have hi := hasFields_of_decodeFieldsOf h
    exact ⟨hi.wellFormed, hi.encode_eq.trans (assemble_fields w (not_not.mp hrsv))⟩

end

/-! ## The operand numbers that name an operand -/

theorem Reg.ofNumber_isSome (sel : Byte) :
    (Reg.ofNumber sel).isSome = Machine.readableNumbers.contains sel.toNat := by
  unfold Reg.ofNumber
  split <;> simp_all [Machine.readableNumbers, Machine.writableNumbers]

/-- The numbers of the registers with access RW (`10_state.md` rule R33). -/
theorem Reg.writable_of_writableNumbers {sel : Byte} (h : Machine.writableNumbers.contains sel.toNat = true) :
    ∃ reg, Reg.ofNumber sel = some reg ∧ reg.writable = true := by
  unfold Reg.ofNumber
  split <;> simp_all [Machine.writableNumbers, Reg.writable]

theorem Modulus.ofSel_isSome (sel : Byte) :
    (Modulus.ofSel sel).isSome = (sel.toNat == 1 || sel.toNat == 2) := by
  unfold Modulus.ofSel
  split <;> simp_all

theorem Dtype.ofSel_isSome (sel : Byte) : (Dtype.ofSel sel).isSome = decide (sel.toNat ≤ 2) := by
  unfold Dtype.ofSel
  split <;> simp_all
  omega

/-- The default unit has every format a dtype selector can name. -/
theorem supportedDtype_params_isSome (sel : Byte) :
    (supportedDtype Config.params sel).isSome = decide (sel.toNat ≤ 2) := by
  rw [← Dtype.ofSel_isSome, supportedDtype]
  cases Dtype.ofSel sel with
  | none => rfl
  | some dt => exact congrArg _ (if_pos (Machine.params_dtypes_contains dt))

theorem MatSel.ofJumpSel_isSome (sel : Byte) : (MatSel.ofJumpSel sel).isSome = decide (sel.toNat ≤ 5) := by
  unfold MatSel.ofJumpSel
  split <;> simp_all
  omega

theorem MatSel.ofMatrixSel_isSome (sel : Byte) : (MatSel.ofMatrixSel sel).isSome = decide (sel.toNat ≤ 4) := by
  unfold MatSel.ofMatrixSel
  split <;> simp_all
  omega

theorem StateWord.ofSel_isSome (sel : Byte) : (StateWord.ofSel sel).isSome = decide (sel.toNat ≤ 5) := by
  unfold StateWord.ofSel
  split <;> simp_all
  omega

theorem dimensionOfSel_isSome (sel : Byte) : (dimensionOfSel sel).isSome = decide (sel.toNat ≤ 7) := by
  unfold dimensionOfSel
  split <;> simp <;> omega

theorem exists_operand_eq_ok {α : Type} {o : Option α} {why : Illegal} {k : α → Instr} (h : o.isSome = true) :
    ∃ i, operand o why k = .ok i := by
  obtain ⟨x, rfl⟩ := Option.isSome_iff_exists.mp h
  exact ⟨k x, rfl⟩

end Sys2Proof

namespace Sys2Proof.Machine

/-! ## The rows of the opcode table -/

/-- A mask over all of OP and RSV: the word has the row's OP, 0 in RSV, and fields that match under the rest of the
mask. -/
theorem exists_assemble_of_mask {w : DWord} {op msel : Byte} {mimm : Word}
    (h : w &&& (0xFF#8 ++ msel ++ 0xFFFF#16 ++ mimm) = assemble op 0 0) :
    ∃ sel imm, w = assemble op sel imm ∧ sel &&& msel = 0 ∧ imm &&& mimm = 0 := by
  have hmask : rsvField (0xFF#8 ++ msel ++ 0xFFFF#16 ++ mimm) = BitVec.allOnes 16 := by
    rw [rsvField, BitVec.extractLsb'_append_eq_of_le (by decide), BitVec.extractLsb'_append_eq_of_add_le (by decide)]
    rfl
  have hrsv : rsvField w = 0 := by
    have hand : rsvField w &&& BitVec.allOnes 16 = rsvField (assemble op 0 0) := by
      rw [← h, ← hmask, rsvField, rsvField, rsvField, BitVec.extractLsb'_and]
    rwa [BitVec.and_allOnes, rsvField_assemble] at hand
  rw [← assemble_fields w hrsv, assemble_and, Laws.EncodingIsLegal.and_full] at h
  have hop := congrArg opField h
  have hsel := congrArg selField h
  have himm := congrArg immField h
  simp only [opField_assemble, selField_assemble, immField_assemble] at hop hsel himm
  exact ⟨_, _, hop ▸ (assemble_fields w hrsv).symm, hsel, himm⟩

section
variable {w : DWord} {op : Byte} {row : OpcodeRow}

/-- A row admits a word where the word's fields match and are allowed, and then the word decodes if its fields do. -/
theorem exists_decode_of_admits {msel : Byte} {mimm : Word} (h : row.admits w)
    (hmask : row.mask = 0xFF#8 ++ msel ++ 0xFFFF#16 ++ mimm) (hpat : row.pattern = assemble op 0 0)
    (hdec : ∀ sel imm, sel &&& msel = 0 → imm &&& mimm = 0 → row.allowed sel.toNat imm.toNat = true →
      ∃ i, decodeFieldsOf Config.params op sel imm = .ok i) : ∃ i, decode w = .ok i := by
  obtain ⟨hword, hallowed⟩ := h
  rw [hmask, hpat] at hword
  obtain ⟨sel, imm, rfl, hsel, himm⟩ := exists_assemble_of_mask hword
  rw [assemble_sel, assemble_imm] at hallowed
  rw [decode, decode_assemble]
  exact hdec sel imm hsel himm hallowed

/-- Format Z: the whole word is the match. -/
theorem exists_decode_of_admits_z (h : row.admits w)
    (hmask : row.mask = 0xFF#8 ++ 0xFF#8 ++ 0xFFFF#16 ++ 0xFFFFFFFF#32) (hpat : row.pattern = assemble op 0 0)
    (hdec : ∃ i, decodeFieldsOf Config.params op 0 0 = .ok i) : ∃ i, decode w = .ok i := by
  refine exists_decode_of_admits h hmask hpat fun sel imm hsel himm _ => ?_
  obtain rfl : sel = 0 := BitVec.and_allOnes.symm.trans hsel
  obtain rfl : imm = 0 := BitVec.and_allOnes.symm.trans himm
  exact hdec

/-- Format S: SEL is free. -/
theorem exists_decode_of_admits_s (h : row.admits w)
    (hmask : row.mask = 0xFF#8 ++ 0#8 ++ 0xFFFF#16 ++ 0xFFFFFFFF#32) (hpat : row.pattern = assemble op 0 0)
    (hdec : ∀ sel, row.allowed sel.toNat 0 = true → ∃ i, decodeFieldsOf Config.params op sel 0 = .ok i) :
    ∃ i, decode w = .ok i := by
  refine exists_decode_of_admits h hmask hpat fun sel imm _ himm hallowed => ?_
  obtain rfl : imm = 0 := BitVec.and_allOnes.symm.trans himm
  exact hdec sel hallowed

/-- Format I: IMM is free. -/
theorem exists_decode_of_admits_i (h : row.admits w)
    (hmask : row.mask = 0xFF#8 ++ 0xFF#8 ++ 0xFFFF#16 ++ 0#32) (hpat : row.pattern = assemble op 0 0)
    (hdec : ∀ imm, row.allowed 0 imm.toNat = true → ∃ i, decodeFieldsOf Config.params op 0 imm = .ok i) :
    ∃ i, decode w = .ok i := by
  refine exists_decode_of_admits h hmask hpat fun sel imm hsel _ hallowed => ?_
  obtain rfl : sel = 0 := BitVec.and_allOnes.symm.trans hsel
  exact hdec imm hallowed

/-- Format SI: SEL and IMM are free. -/
theorem exists_decode_of_admits_si (h : row.admits w)
    (hmask : row.mask = 0xFF#8 ++ 0#8 ++ 0xFFFF#16 ++ 0#32) (hpat : row.pattern = assemble op 0 0)
    (hdec : ∀ sel imm, row.allowed sel.toNat imm.toNat = true →
      ∃ i, decodeFieldsOf Config.params op sel imm = .ok i) : ∃ i, decode w = .ok i :=
  exists_decode_of_admits h hmask hpat fun sel imm _ _ => hdec sel imm

end

/-- WRREG to a register with access RW. -/
theorem exists_decodeWrreg_eq_ok {sel : Byte} (h : writableNumbers.contains sel.toNat = true) (imm : Word) :
    ∃ i, decodeWrreg sel imm = .ok i := by
  obtain ⟨reg, hreg, hw⟩ := Reg.writable_of_writableNumbers h
  exact ⟨.wrreg reg imm, by rw [decodeWrreg, hreg]; exact if_pos hw⟩

/-- Every row of the table selects words that decode. -/
theorem exists_decode_of_legalWord {w : DWord} (h : legalWord w) : ∃ i, decode w = .ok i := by
  obtain ⟨row, hrow, h⟩ := h
  simp only [opcodeRows, List.mem_cons, List.not_mem_nil, or_false] at hrow
  rcases hrow with rfl | rfl | rfl | rfl | rfl | rfl | rfl | rfl | rfl | rfl | rfl | rfl | rfl | rfl | rfl | rfl |
    rfl | rfl | rfl | rfl | rfl | rfl | rfl | rfl
  · exact exists_decode_of_admits_z (op := 0x00) h rfl rfl ⟨.nop, rfl⟩
  · exact exists_decode_of_admits_z (op := 0x01) h rfl rfl ⟨.sreset, rfl⟩
  · exact exists_decode_of_admits_si (op := 0x02) h rfl rfl fun _ imm hsel => exists_decodeWrreg_eq_ok hsel imm
  · exact exists_decode_of_admits_s (op := 0x03) h rfl rfl fun sel hsel =>
      exists_operand_eq_ok ((Reg.ofNumber_isSome sel).trans hsel)
  · exact exists_decode_of_admits_i (op := 0x04) h rfl rfl fun imm himm => ⟨.rdconst imm, if_pos himm⟩
  · exact exists_decode_of_admits_si (op := 0x08) h rfl rfl fun sel _ hsel =>
      exists_operand_eq_ok ((dimensionOfSel_isSome sel).trans hsel)
  · exact exists_decode_of_admits_si (op := 0x09) h rfl rfl fun sel _ hsel =>
      exists_operand_eq_ok ((dimensionOfSel_isSome sel).trans hsel)
  · exact exists_decode_of_admits_si (op := 0x0A) h rfl rfl fun sel _ hsel =>
      exists_operand_eq_ok ((dimensionOfSel_isSome sel).trans hsel)
  · exact exists_decode_of_admits_s (op := 0x10) h rfl rfl fun sel hsel =>
      exists_operand_eq_ok ((Modulus.ofSel_isSome sel).trans hsel)
  · exact exists_decode_of_admits_s (op := 0x11) h rfl rfl fun sel hsel =>
      exists_operand_eq_ok ((Modulus.ofSel_isSome sel).trans hsel)
  · exact exists_decode_of_admits_s (op := 0x12) h rfl rfl fun sel hsel =>
      exists_operand_eq_ok ((Modulus.ofSel_isSome sel).trans hsel)
  · exact exists_decode_of_admits_i (op := 0x20) h rfl rfl fun imm _ => ⟨.step imm, rfl⟩
  · exact exists_decode_of_admits_s (op := 0x21) h rfl rfl fun sel hsel =>
      exists_operand_eq_ok ((supportedDtype_params_isSome sel).trans hsel)
  · exact exists_decode_of_admits_si (op := 0x28) h rfl rfl fun sel _ hsel =>
      exists_operand_eq_ok ((MatSel.ofJumpSel_isSome sel).trans hsel)
  · exact exists_decode_of_admits_s (op := 0x30) h rfl rfl fun sel hsel =>
      exists_operand_eq_ok ((MatSel.ofMatrixSel_isSome sel).trans hsel)
  · exact exists_decode_of_admits_z (op := 0x31) h rfl rfl ⟨.matsqr, rfl⟩
  · exact exists_decode_of_admits_i (op := 0x32) h rfl rfl fun k hk => ⟨.matpow2 k, if_pos (of_decide_eq_true hk)⟩
  · exact exists_decode_of_admits_s (op := 0x33) h rfl rfl fun sel hsel =>
      exists_operand_eq_ok ((MatSel.ofMatrixSel_isSome sel).trans hsel)
  · refine exists_decode_of_admits_si (op := 0x34) h rfl rfl fun sel index hallowed => ?_
    obtain ⟨hsel, hindex⟩ := (Bool.and_eq_true _ _).mp hallowed
    obtain ⟨i, hi⟩ := exists_operand_eq_ok (why := .modulusSelector) (k := (.matrd · index))
      ((Modulus.ofSel_isSome sel).trans hsel)
    exact ⟨i, (if_pos (of_decide_eq_true hindex)).trans hi⟩
  · exact exists_decode_of_admits_z (op := 0x40) h rfl rfl ⟨.seed, rfl⟩
  · exact exists_decode_of_admits_i (op := 0x41) h rfl rfl fun imm _ => ⟨.ldstate imm, rfl⟩
  · exact exists_decode_of_admits_si (op := 0x42) h rfl rfl fun sel _ hsel =>
      exists_operand_eq_ok ((StateWord.ofSel_isSome sel).trans hsel)
  · exact exists_decode_of_admits_z (op := 0x50) h rfl rfl ⟨.check, rfl⟩
  · exact exists_decode_of_admits_s (op := 0x51) h rfl rfl fun sel hsel =>
      exists_operand_eq_ok ((supportedDtype_params_isSome sel).trans hsel)

/-- The word of every well-formed command is legal. -/
theorem legalWord_encode {i : Instr} (h : i.wellFormed = true) : legalWord (encode i) := by
  cases i with
  | nop => exact Laws.EncodingIsLegal.nop h
  | sreset => exact Laws.EncodingIsLegal.sreset h
  | wrreg reg value => exact Laws.EncodingIsLegal.wrreg reg value h
  | rdreg reg => exact Laws.EncodingIsLegal.rdreg reg h
  | rdconst index => exact Laws.EncodingIsLegal.rdconst index h
  | wrdims k value => exact Laws.EncodingIsLegal.wrdims k value h
  | wrdimu k value => exact Laws.EncodingIsLegal.wrdimu k value h
  | wrdimh k value => exact Laws.EncodingIsLegal.wrdimh k value h
  | addmod m => exact Laws.EncodingIsLegal.addmod m h
  | mulmod m => exact Laws.EncodingIsLegal.mulmod m h
  | macmod m => exact Laws.EncodingIsLegal.macmod m h
  | step lane => exact Laws.EncodingIsLegal.step lane h
  | cvt dt => exact Laws.EncodingIsLegal.cvt dt h
  | jump sel lane => exact Laws.EncodingIsLegal.jump sel lane h
  | matld sel => exact Laws.EncodingIsLegal.matld sel h
  | matsqr => exact Laws.EncodingIsLegal.matsqr h
  | matpow2 k => exact Laws.EncodingIsLegal.matpow2 k h
  | matmul sel => exact Laws.EncodingIsLegal.matmul sel h
  | matrd m index => exact Laws.EncodingIsLegal.matrd m index h
  | seed => exact Laws.EncodingIsLegal.seed h
  | ldstate lane => exact Laws.EncodingIsLegal.ldstate lane h
  | rdstate word lane => exact Laws.EncodingIsLegal.rdstate word lane h
  | check => exact Laws.EncodingIsLegal.check h
  | generate dt => exact Laws.EncodingIsLegal.generate dt h

theorem legalWord_iff_decode (w : DWord) : legalWord w ↔ ∃ i, decode w = .ok i := by
  refine ⟨exists_decode_of_legalWord, ?_⟩
  rintro ⟨i, hi⟩
  obtain ⟨hwf, rfl⟩ := wellFormedOf_and_encode_of_decodeOf hi
  exact legalWord_encode hwf

/-! ## The status codes of a well-formed command -/

/-- A command that succeeds, or fails with one of the given status codes. -/
inductive AnswersWithin (codes : List Status) : Host.Outcome State Fault Refusal → Prop
  | success (d : DWord) (u : State) : AnswersWithin codes (.next (respond d u))
  | failure {e : Status} (he : e ∈ codes) (u : State) : AnswersWithin codes (.next (raise e u))

section
variable {codes : List Status} {x y : Host.Outcome State Fault Refusal}

theorem AnswersWithin.ite {c : Prop} [Decidable c] (hx : AnswersWithin codes x) (hy : AnswersWithin codes y) :
    AnswersWithin codes (if c then x else y) := by
  split
  · exact hx
  · exact hy

/-- A check known to pass leaves the arm behind it. -/
theorem AnswersWithin.ite_pos {c : Prop} [Decidable c] (hc : c) (hx : AnswersWithin codes x) :
    AnswersWithin codes (if c then x else y) :=
  (if_pos hc).symm ▸ hx

theorem AnswersWithin.ite_neg {c : Prop} [Decidable c] (hc : ¬c) (hy : AnswersWithin codes y) :
    AnswersWithin codes (if c then x else y) :=
  (if_neg hc).symm ▸ hy

theorem AnswersWithin.status_of_response {t : State} {r : Response} (h : AnswersWithin codes (.next t))
    (hr : t.response = some r) : r.status = .ok ∨ r.status ∈ codes := by
  cases h with
  | success d u =>
    cases hr
    exact .inl rfl
  | failure he u =>
    cases hr
    exact .inr he

end

section
variable {p : Config.Params} {s : State} {e : Status}

theorem readLane_error_mem {lane : Word} (h : readLane p lane s = .error e) : e ∈ [Status.errLane, .errUnseeded] := by
  rcases (readLane_eq_error p lane s e).mp h with ⟨rfl, -⟩ | ⟨rfl, -⟩ <;> decide

theorem seedCheck_some_mem (h : seedCheck p s = some e) : e ∈ [Status.errLane, .errState] := by
  rcases seedCheck_cases p s with ⟨hc, -⟩ | ⟨hc, -⟩ | ⟨hc, -⟩ <;> rw [hc] at h <;> cases h <;> decide

theorem capacityGuard_error_mem (h : capacityGuard p s = .error e) :
    e ∈ [Status.errLane, .errShape, .errCapacity] := by
  rcases capacityGuard_cases p s with ⟨hg, -⟩ | ⟨hg, -⟩ | ⟨-, -, -, ⟨hg, -⟩ | ⟨-, -, hg⟩⟩
  case inr.inr.inr =>
    rw [hg] at h
    split at h <;> cases h
    decide
  all_goals
    rw [hg] at h
    cases h
    decide

end

section
variable (p : Config.Params) (s : State)

theorem execRdconstOf_answersWithin {index : Word} (h : romIndexDefined index.toNat = true) :
    AnswersWithin [] (execRdconstOf p index s) := by
  obtain ⟨w, hw⟩ := Option.isSome_iff_exists.mp ((romWord_isSome p index.toNat).trans h)
  rw [execRdconstOf, hw]
  exact .success _ s

theorem execStepOf_answersWithin (lane : Word) : AnswersWithin [.errLane, .errUnseeded] (execStepOf p lane s) := by
  unfold execStepOf
  split
  · next he => exact .failure (readLane_error_mem he) s
  · exact .success _ _

theorem execJumpOf_answersWithin (sel : MatSel) (lane : Word) :
    AnswersWithin [.errLane, .errUnseeded] (execJumpOf p sel lane s) := by
  unfold execJumpOf
  split
  · next he => exact .failure (readLane_error_mem he) s
  · exact .success _ _

theorem execRdstateOf_answersWithin (word : StateWord) (lane : Word) :
    AnswersWithin [.errLane, .errUnseeded] (execRdstateOf p word lane s) := by
  unfold execRdstateOf
  split
  · next he => exact .failure (readLane_error_mem he) s
  · exact .success _ s

theorem execSeedOf_answersWithin : AnswersWithin [.errLane, .errState] (execSeedOf p s) := by
  unfold execSeedOf
  split
  · next he => exact .failure (seedCheck_some_mem he) s
  · exact .success _ _

theorem execLdstateOf_answersWithin (lane : Word) : AnswersWithin [.errLane, .errState] (execLdstateOf p lane s) :=
  .ite (.failure (by decide) s) (.ite (.failure (by decide) s) (.success _ _))

theorem execCheckOf_answersWithin : AnswersWithin [.errLane, .errShape, .errCapacity] (execCheckOf p s) := by
  unfold execCheckOf
  split
  · next he => exact .failure (capacityGuard_error_mem he) s
  · exact .success _ _

theorem execGenerateOf_answersWithin {dt : Dtype} (h : p.dtypes.contains dt = true) :
    AnswersWithin [.errLane, .errUnseeded, .errShape, .errCapacity] (execGenerateOf p dt s) := by
  rw [execGenerateOf_eq s h]
  split
  · next he =>
    have hsub : [Status.errLane, .errShape, .errCapacity] ⊆ [.errLane, .errUnseeded, .errShape, .errCapacity] := by
      decide
    exact .failure (hsub (capacityGuard_error_mem he)) s
  · split
    · exact .failure (by decide) s
    · exact .success _ _

/-- A well-formed command succeeds or fails with a code that the table of `60_exceptions.md` rule R271 gives it, in
every unit and every state: its operand checks all pass. -/
theorem execOf_answersWithin {i : Instr} (h : i.wellFormedOf p = true) :
    AnswersWithin (mayFailWith i) (execOf p i s) := by
  cases i with
  | nop => exact .success 0 s
  | sreset => exact .success 0 _
  | wrreg reg value => exact .ite_pos h (.success 0 _)
  | rdreg reg => exact .success _ s
  | rdconst index => exact execRdconstOf_answersWithin p s h
  | wrdims k value => exact .success 0 _
  | wrdimu k value => exact .success 0 _
  | wrdimh k value => exact .success 0 _
  | addmod m => exact .ite (.failure (List.mem_singleton.mpr rfl) s) (.success _ _)
  | mulmod m => exact .ite (.failure (List.mem_singleton.mpr rfl) s) (.success _ _)
  | macmod m => exact .ite (.failure (List.mem_singleton.mpr rfl) s) (.success _ _)
  | step lane => exact execStepOf_answersWithin p s lane
  | cvt dt => exact .ite_pos h (.success _ _)
  | jump sel lane => exact execJumpOf_answersWithin p s sel lane
  | matld sel => exact .ite_neg (bne_iff_ne.mp h) (.success 0 _)
  | matsqr => exact .success 0 _
  | matpow2 k => exact .ite_neg (Nat.not_lt.mpr (of_decide_eq_true h)) (.success 0 _)
  | matmul sel => exact .ite_neg (bne_iff_ne.mp h) (.success 0 _)
  | matrd m index => exact .ite_neg (Nat.not_lt.mpr (of_decide_eq_true h)) (.success _ s)
  | seed => exact execSeedOf_answersWithin p s
  | ldstate lane => exact execLdstateOf_answersWithin p s lane
  | rdstate word lane => exact execRdstateOf_answersWithin p s word lane
  | check => exact execCheckOf_answersWithin p s
  | generate dt => exact execGenerateOf_answersWithin p s h

end

/-- The table of rule R271 gives ERR_ILLEGAL to no command. -/
theorem errIllegal_not_mem_mayFailWith (i : Instr) : Status.errIllegal ∉ mayFailWith i := by
  cases i <;> simp [mayFailWith]

/-- Settles O4: the table and the decoder accept the same words, and what a decoded command answers is in its row of the
status table. -/
theorem illegalWordFailsWithErrIllegal : Obligations.IllegalWordFailsWithErrIllegal := by
  unfold Obligations.IllegalWordFailsWithErrIllegal
  refine ⟨legalWord_iff_decode, fun s cw rest hs hillegal => ?_, fun s t cw rest r hs hlegal ht hr hill => ?_⟩
  · cases hd : decode cw with
    | ok i => exact absurd ((legalWord_iff_decode cw).mpr ⟨i, hd⟩) hillegal
    | error why => exact rejected_of_decode_error hd s rest hs
  · obtain ⟨i, hd⟩ := (legalWord_iff_decode cw).mp hlegal
    obtain ⟨hwf, -⟩ := wellFormedOf_and_encode_of_decodeOf hd
    have hstep : step s = execOf Config.params i { s with host := rest } :=
      (runHostAction_ok hs hd).trans (exec_eq_execOf i _)
    have hanswer : AnswersWithin (mayFailWith i) (.next t) :=
      (hstep.symm.trans ht) ▸ execOf_answersWithin Config.params _ hwf
    rcases hanswer.status_of_response hr with hok | hmem
    · exact absurd (hok.symm.trans hill) (by decide)
    · exact errIllegal_not_mem_mayFailWith i (hill ▸ hmem)

end Sys2Proof.Machine

/-! # The family `40_modular_arithmetic.md`: the modular commands

The three commands share their format, their operand check and their end. What they share is said once: which words with
a given opcode the decoder refuses, and what a reduced value leaves in R and in the response. -/

namespace Sys2Proof.Machine

/-! ## Words with a given opcode -/

theorem opField_eq_of_opNumber {cw : DWord} {op : Byte} (h : opNumber cw = op.toNat) : opField cw = op := by
  apply BitVec.eq_of_toNat_eq
  rw [opField, BitVec.extractLsb'_toNat, Nat.shiftRight_eq_div_pow, ← opNumber, h]
  exact Nat.mod_eq_of_lt op.isLt

/-- A word that decodes does so by its fields. -/
theorem decodeFieldsOf_of_decodeOf {p : Config.Params} {cw : DWord} {i : Instr} (h : decodeOf p cw = .ok i) :
    decodeFieldsOf p (opField cw) (selField cw) (immField cw) = .ok i := by
  unfold decodeOf at h
  split at h
  · cases h
  · exact h

/-- A word is rejected where it is not the encoding of any command that its opcode's row of rule R90 decodes to
(`30_encoding.md` rules R88, R97). -/
theorem rejected_of_opNumber {cw : DWord} {op : Byte} (hop : opNumber cw = op.toNat)
    (h : ∀ sel imm i, decodeFieldsOf Config.params op sel imm = .ok i → cw ≠ encode i) : rejected cw := by
  cases hd : decode cw with
  | error why => exact rejected_of_decode_error hd
  | ok i =>
    obtain ⟨-, hcw⟩ := wellFormedOf_and_encode_of_decodeOf hd
    have hfields := decodeFieldsOf_of_decodeOf hd
    rw [opField_eq_of_opNumber hop] at hfields
    exact absurd hcw.symm (h _ _ i hfields)

/-- An opcode whose row is of format S with a modulus selector (rules R87, R91). -/
theorem rejected_of_modulusRow {cw : DWord} {op : Byte} {k : Modulus → Instr} (hop : opNumber cw = op.toNat)
    (hrow : ∀ sel imm, decodeFieldsOf Config.params op sel imm =
      formatS imm (operand (Modulus.ofSel sel) .modulusSelector k))
    (h : ∀ m, cw ≠ encode (k m)) : rejected cw := by
  refine rejected_of_opNumber hop fun sel imm i hi => ?_
  obtain ⟨-, ho⟩ := formatS_eq_ok ((hrow sel imm).symm.trans hi)
  obtain ⟨m, -, rfl⟩ := operand_eq_ok ho
  exact h m

theorem modulus_sel_toNat (m : Modulus) : m.sel.toNat = if m = .m1 then 1 else 2 := by
  cases m <;> rfl

/-- The word of a command of format S with a modulus selector, by its numbers (rules R86, R91). -/
theorem assemble_modulus_sel (op : Byte) (m : Modulus) :
    assemble op m.sel 0 = wordOf op.toNat (if m = .m1 then 1 else 2) 0 := by
  rw [assemble_eq_wordOf, modulus_sel_toNat]
  rfl

/-! ## The result and the failure of a modular command -/

theorem modulusValue_eq_modulusOf (m : Modulus) : modulusValue m = modulusOf m := by
  cases m <;> rfl

theorem modulusValue_le (m : Modulus) : modulusValue m ≤ 2 ^ 32 := by
  cases m <;> decide

theorem zextWord_ofNat {value : Nat} (h : value < 2 ^ 32) :
    zextWord (BitVec.ofNat 32 value) = BitVec.ofNat 64 value :=
  BitVec.setWidth_ofNat_of_le_of_lt (by decide) h

/-- A value reduced modulo M1 or M2 fits R, so R and DATA hold it whole (`40_modular_arithmetic.md` rule R111). -/
theorem finishModular_mod (value : Nat) (m : Modulus) (s : State) :
    finishModular (value % modulusValue m) s =
      succeeded (BitVec.ofNat 64 (value % modulusValue m))
        { s with r := BitVec.ofNat 32 (value % modulusValue m) } := by
  have hlt : value % modulusValue m < 2 ^ 32 :=
    (Nat.mod_lt value (modulusValue_pos m)).trans_le (modulusValue_le m)
  rw [finishModular, zextWord_ofNat hlt]
  rfl

/-- An operand out of range is the failure ERR_OPERAND of code 6, and nothing else changes (`60_exceptions.md`
rule R276). -/
theorem modular_of_operand_out_of_range {c : Prop} [Decidable c] (hc : c) (value : Nat) (s : State) :
    (if c then Host.Outcome.next (raise .errOperand s) else .next (finishModular value s)) =
      (.next (failed .errOperand 6 s) : Host.Outcome State Fault Refusal) :=
  (if_pos hc).trans (congrArg _ (raise_eq_failed (by decide) s))

/-! ## The three commands -/

/-- Settles O19: the row of the opcode, the range check, then the addition reduced into R. -/
theorem addmodResult : Obligations.AddmodResult := by
  unfold Obligations.AddmodResult
  simp only [← modulusValue_eq_modulusOf]
  refine ⟨fun cw hop => rejected_of_modulusRow (op := 0x10) hop fun _ _ => rfl, fun m s =>
    ⟨assemble_modulus_sel 0x10 m, fun ha hb => ?_, fun hout => modular_of_operand_out_of_range hout _ s⟩⟩
  exact (execAddmod_of_lt ha hb).trans (congrArg _ (finishModular_mod _ m s))

/-- Settles O20: the row of the opcode, the range check, then the multiplication reduced into R. -/
theorem mulmodResult : Obligations.MulmodResult := by
  unfold Obligations.MulmodResult
  simp only [← modulusValue_eq_modulusOf]
  refine ⟨fun cw hop => rejected_of_modulusRow (op := 0x11) hop fun _ _ => rfl, fun m s =>
    ⟨assemble_modulus_sel 0x11 m, fun ha hb => ?_, fun hout => modular_of_operand_out_of_range hout _ s⟩⟩
  exact (execMulmod_of_lt ha hb).trans (congrArg _ (finishModular_mod _ m s))

/-- Settles O21: the row of the opcode, the range check, then the multiplication and addition reduced into R. -/
theorem macmodResult : Obligations.MacmodResult := by
  unfold Obligations.MacmodResult
  simp only [← modulusValue_eq_modulusOf]
  refine ⟨fun cw hop => rejected_of_modulusRow (op := 0x12) hop fun _ _ => rfl, fun m s =>
    ⟨assemble_modulus_sel 0x12 m, fun ha hb hc => ?_, fun hout => modular_of_operand_out_of_range hout _ s⟩⟩
  exact (execMacmod_of_lt ha hb hc).trans (congrArg _ (finishModular_mod _ m s))

end Sys2Proof.Machine

/-! # The family `41_recurrence_step.md`: STEP and CVT

The new terms of a step stay in range as residues, and a triple that is not all zero stays so as its modulus is prime.
The commands then follow from what the shared lane check and the conversion answer. -/

namespace Sys2Proof.Machine

/-! ## A step of one triple -/

/-- A prime that divides `c·x`, for a coefficient `c` below it that is not 0, divides no `x` below it but 0. -/
theorem eq_zero_of_mul_mod_prime {m c x : Nat} (hm : m.Prime) (hc : c < m) (hc0 : c ≠ 0) (hx : x < m)
    (h : c * x % m = 0) : x = 0 := by
  rcases hm.dvd_mul.mp (Nat.dvd_of_mod_eq_zero h) with hdvd | hdvd
  · exact absurd (Nat.eq_zero_of_dvd_of_lt hdvd hc) hc0
  · exact Nat.eq_zero_of_dvd_of_lt hdvd hx

/-- The argument of rule R134 for one triple: the new triple is all zero only where the old one was. -/
theorem validTriple_shift {t : Triple} {m c1 c2 c3 : Nat} (hm : m.Prime) (hm' : m ≤ 2 ^ 32) (hc : c3 < m)
    (hc0 : c3 ≠ 0) (ht : validTriple t m = true) :
    validTriple ⟨t.t2, t.t3,
      BitVec.ofNat 32 ((c1 * t.t3.toNat + c2 * t.t2.toNat + c3 * t.t1.toNat) % m)⟩ m = true := by
  obtain ⟨⟨h1, h2, h3⟩, hne⟩ := (validTriple_iff t m).mp ht
  have hnew := toNat_ofNat_of_lt
    (Nat.mod_lt (c1 * t.t3.toNat + c2 * t.t2.toNat + c3 * t.t1.toNat) hm.pos) hm'
  refine (validTriple_iff _ m).mpr ⟨⟨h2, h3, hnew.trans_lt (Nat.mod_lt _ hm.pos)⟩, ?_⟩
  rintro ⟨h2z : t.t2 = 0, h3z : t.t3 = 0, hz⟩
  have hmod : c3 * t.t1.toNat % m = 0 := by
    have hsum := hnew.symm.trans (congrArg BitVec.toNat hz)
    simpa [h2z, h3z] using hsum
  have h1z : t.t1 = 0 := BitVec.eq_of_toNat_eq (eq_zero_of_mul_mod_prime hm hc hc0 h1 hmod)
  exact hne ⟨h1z, h2z, h3z⟩

/-- Settles O24: each triple by `validTriple_shift` in its own modulus (rule R134, `00_scope.md` rule R8). -/
theorem recurrenceKeepsStateVectorsValid : Obligations.RecurrenceKeepsStateVectorsValid := by
  unfold Obligations.RecurrenceKeepsStateVectorsValid
  intro p hp v hv
  obtain ⟨hx, hy⟩ := (validState_iff v).mp hv
  exact (validState_iff _).mpr
    ⟨validTriple_shift Config.m1_prime m1_bounds.2 hp.a13_lt hp.a13_ne hx,
      validTriple_shift Config.m2_prime m2_bounds.2 hp.a23_lt hp.a23_ne hy⟩

/-! ## The raw value -/

theorem nextX_lt (p : Config.Params) (x : Triple) : nextX p x < Config.m1 := Nat.mod_lt _ (by decide)

theorem nextY_lt (p : Config.Params) (y : Triple) : nextY p y < Config.m2 := Nat.mod_lt _ (by decide)

/-- The mathematical mod of rule R132 as the one addition of M1 it takes on two terms in range. -/
theorem combine_eq_ite {nx ny : Nat} (hx : nx < Config.m1) (hy : ny < Config.m2) :
    combine nx ny = if ny ≤ nx then nx - ny else nx + Config.m1 - ny := by
  unfold combine
  simp only [Config.m1, Config.m2] at hx hy ⊢
  split <;> omega

theorem combine_lt (nx ny : Nat) : combine nx ny < Config.m1 := by
  unfold combine
  simp only [Config.m1]
  omega

/-! ## Words with the opcodes of this family -/

/-- An opcode whose row is of format I with every value of IMM allowed (`30_encoding.md` rules R87, R90). -/
theorem rejected_of_immRow {cw : DWord} {op : Byte} {k : Word → Instr} (hop : opNumber cw = op.toNat)
    (hrow : ∀ sel imm, decodeFieldsOf Config.params op sel imm = formatI sel (.ok (k imm)))
    (h : ∀ imm, cw ≠ encode (k imm)) : rejected cw := by
  refine rejected_of_opNumber hop fun sel imm i hi => ?_
  obtain ⟨-, ho⟩ := formatI_eq_ok ((hrow sel imm).symm.trans hi)
  cases ho
  exact h imm

/-- An opcode whose row is of format S with any kind of selector, here the dtypes of rule R92 (rule R87). -/
theorem rejected_of_selectorRow {α : Type} {ofSel : Byte → Option α} {why : Illegal} {cw : DWord} {op : Byte}
    {k : α → Instr} (hop : opNumber cw = op.toNat)
    (hrow : ∀ sel imm, decodeFieldsOf Config.params op sel imm = formatS imm (operand (ofSel sel) why k))
    (h : ∀ a, cw ≠ encode (k a)) : rejected cw := by
  refine rejected_of_opNumber hop fun sel imm i hi => ?_
  obtain ⟨-, ho⟩ := formatS_eq_ok ((hrow sel imm).symm.trans hi)
  obtain ⟨a, -, rfl⟩ := operand_eq_ok ho
  exact h a

/-! ## STEP -/

/-- On a valid lane STEP is the step of the lane's State Vector (rule R133). -/
theorem execStepOf_of_ok {p : Config.Params} {lane : Word} {s : State} {v : StateVec}
    (h : readLane p lane s = .ok v) :
    execStepOf p lane s =
      .next (respond (zextWord (stepVector p v).2)
        (setR (stepVector p v).2 (writeLane lane (stepVector p v).1 s))) := by
  simp only [execStepOf, h]

/-- The check of the lane fails the command with its own status, and nothing else changes (`60_exceptions.md`
rule R276). -/
theorem exec_step_of_error {lane : Word} {s : State} {e : Status} (h : readLane Config.params lane s = .error e) :
    exec (.step lane) s = .next (failed e e.code.toNat s) :=
  (execStepOf_of_error h).trans (congrArg _ (raise_eq_failed (readLane_error_ne_ok h) s))

/-- DATA holds the raw value whole, as it is below M1 (rule R132). -/
theorem zextWord_stepVector (p : Config.Params) (v : StateVec) :
    zextWord (stepVector p v).2 = BitVec.ofNat 64 (combine (nextX p v.x) (nextY p v.y)) :=
  zextWord_ofNat ((combine_lt _ _).trans_le m1_bounds.2)

/-- Settles O22: the lane check has three answers, and a valid lane takes the step of its State Vector. -/
theorem stepResult : Obligations.StepResult := by
  unfold Obligations.StepResult
  refine ⟨fun cw hop => rejected_of_immRow (op := 0x20) hop fun _ _ => rfl, fun lane s =>
    ⟨assemble_eq_wordOf 0x20 0 lane, fun v hlane hread => ?_, fun hlane => ?_, fun hlane hread => ?_⟩⟩
  · intro p nx ny z
    have hz : combine (nextX p v.x) (nextY p v.y) = z := combine_eq_ite (nextX_lt p v.x) (nextY_lt p v.y)
    have hexec : exec (.step lane) s = _ := execStepOf_of_ok ((readLane_eq_ok p lane s v).mpr ⟨hlane, hread⟩)
    rw [zextWord_stepVector] at hexec
    refine ⟨_, hexec, Memory.read_write_same _ _ _, fun l hl => Memory.read_write_other _ _ hl, ?_⟩
    rw [← hz]
    rfl
  · exact exec_step_of_error ((readLane_eq_error _ _ _ _).mpr (.inl ⟨rfl, hlane⟩))
  · exact exec_step_of_error ((readLane_eq_error _ _ _ _).mpr (.inr ⟨rfl, hlane, hread⟩))

/-! ## CVT -/

/-- The 64-bit word of an element is the number of its bit pattern. -/
theorem ofNat_elementBits (e : Element) : BitVec.ofNat 64 (elementBits e) = zextElement e :=
  (BitVec.ofNat_toNat 64 _).trans (BitVec.setWidth_eq _)

/-- Settles O25: the row of the opcode, and the conversion that never fails in the default unit. -/
theorem cvtResult : Obligations.CvtResult := by
  unfold Obligations.CvtResult
  refine ⟨fun cw hop => rejected_of_selectorRow (op := 0x21) hop fun _ _ => rfl, fun dt s => ⟨?_, ?_⟩⟩
  · cases dt <;> exact assemble_eq_wordOf 0x21 _ 0
  · rw [ofNat_elementBits]
    exact execCvt_eq dt s

end Sys2Proof.Machine

/-! # The family `42_jump_ahead.md`: jumps and the matrix engine

A pair that is a power of the one-step pair acts on a State Vector as that many Recurrence Steps. The claims on STEP and
JUMP then follow by induction over the commands, and those on the working matrices from the exponent laws of powers. -/

namespace Sys2Proof.Machine

/-! ## Words with the opcodes of this family -/

/-- An opcode whose row is of format Z (`30_encoding.md` rules R87, R90). -/
theorem rejected_of_plainRow {cw : DWord} {op : Byte} {i : Instr} (hop : opNumber cw = op.toNat)
    (hrow : ∀ sel imm, decodeFieldsOf Config.params op sel imm = formatZ sel imm i) (h : cw ≠ encode i) :
    rejected cw := by
  refine rejected_of_opNumber hop fun sel imm j hj => ?_
  obtain ⟨-, -, rfl⟩ := formatZ_eq_ok ((hrow sel imm).symm.trans hj)
  exact h

/-- An opcode whose row is of format SI, with a selector and every value of IMM allowed (rules R87, R90). -/
theorem rejected_of_selectorImmRow {α : Type} {ofSel : Byte → Option α} {why : Illegal} {cw : DWord} {op : Byte}
    {k : α → Word → Instr} (hop : opNumber cw = op.toNat)
    (hrow : ∀ sel imm, decodeFieldsOf Config.params op sel imm = operand (ofSel sel) why (k · imm))
    (h : ∀ a imm, cw ≠ encode (k a imm)) : rejected cw := by
  refine rejected_of_opNumber hop fun sel imm i hi => ?_
  obtain ⟨a, -, rfl⟩ := operand_eq_ok ((hrow sel imm).symm.trans hi)
  exact h a imm

/-- An opcode whose row is of format S with the matrix selector of MATLD and MATMUL, which W is not (rules R87, R93). -/
theorem rejected_of_matrixRow {cw : DWord} {op : Byte} {k : MatSel → Instr} (hop : opNumber cw = op.toNat)
    (hrow : ∀ sel imm, decodeFieldsOf Config.params op sel imm =
      formatS imm (operand (MatSel.ofMatrixSel sel) .matrixSelector k))
    (h : ∀ sel, sel ≠ .w → cw ≠ encode (k sel)) : rejected cw := by
  refine rejected_of_opNumber hop fun sel imm i hi => ?_
  obtain ⟨-, ho⟩ := formatS_eq_ok ((hrow sel imm).symm.trans hi)
  obtain ⟨ms, hms, rfl⟩ := operand_eq_ok ho
  exact h ms (MatSel.ofMatrixSel_eq_some hms).2

/-- MATPOW2's row: format I with a count of at most K_MAX (`42_jump_ahead.md` rule R162). -/
theorem rejected_of_matpow2Row {cw : DWord} (hop : opNumber cw = 0x32)
    (h : ∀ k : Word, k.toNat ≤ Config.params.kMax → cw ≠ encode (.matpow2 k)) : rejected cw := by
  refine rejected_of_opNumber (op := 0x32) hop fun sel imm i hi => ?_
  obtain ⟨-, ho⟩ := formatI_eq_ok hi
  split at ho
  · next hk =>
    cases ho
    exact h imm hk
  · cases ho

/-- MATRD's row: a modulus selector and an entry index of at most 8 (rule R164). -/
theorem rejected_of_matrdRow {cw : DWord} (hop : opNumber cw = 0x34)
    (h : ∀ (m : Modulus) (index : Word), index.toNat ≤ 8 → cw ≠ encode (.matrd m index)) : rejected cw := by
  refine rejected_of_opNumber (op := 0x34) hop fun sel imm i hi => ?_
  have hrow : (if imm.toNat ≤ 8 then operand (Modulus.ofSel sel) .modulusSelector (.matrd · imm)
    else .error .entryIndex) = .ok i := hi
  split at hrow
  · next hindex =>
    obtain ⟨m, -, rfl⟩ := operand_eq_ok hrow
    exact h m imm hindex
  · cases hrow

/-- An operand that no legal word encodes fails its command with ERR_ILLEGAL, code 7 (`60_exceptions.md` rule R276). -/
theorem next_raise_errIllegal (s : State) :
    (.next (raise .errIllegal s) : Host.Outcome State Fault Refusal) = .next (failed .errIllegal 7 s) :=
  congrArg _ (raise_eq_failed (by decide) s)

/-! ## The exponent laws of a matrix pair -/

theorem pairMul_stepPower (p : Config.Params) (e f : Nat) :
    pairMul (stepPower p e) (stepPower p f) = stepPower p (e + f) := by
  simp only [pairMul, stepPower, matMul_matPow _ e f m1_bounds.1 m1_bounds.2,
    matMul_matPow _ e f m2_bounds.1 m2_bounds.2]

theorem pairPow2_stepPower (p : Config.Params) (k e : Nat) :
    pairPow2 k (stepPower p e) = stepPower p (e * 2 ^ k) := by
  simp only [pairPow2, stepPower, matPow2_matPow _ k e m1_bounds.1 m1_bounds.2,
    matPow2_matPow _ k e m2_bounds.1 m2_bounds.2]

theorem jumpVector_stepPower_add (p : Config.Params) (e f : Nat) (v : StateVec) :
    jumpVector (stepPower p e) (jumpVector (stepPower p f) v) = jumpVector (stepPower p (e + f)) v := by
  simp only [jumpVector, stepPower, matVec_matPow_add _ e f _ m1_bounds.1 m1_bounds.2,
    matVec_matPow_add _ e f _ m2_bounds.1 m2_bounds.2]

theorem leap_of_ne_w {sel : MatSel} (h : sel ≠ .w) (e : Nat) : leap e sel = leap 0 sel := by
  cases sel with
  | w => exact absurd rfl h
  | _ => rfl

/-- The selected pair, W among the selectors, is the power its selector leaps (`30_encoding.md` rule R93). -/
theorem selectedPair_eq_stepPower {p : Config.Params} (hp : p.Admissible) {s : State} {e : Nat}
    (hw : (s.w1, s.w2) = stepPower p e) (sel : MatSel) : selectedPair p sel s = stepPower p (leap e sel) := by
  by_cases h : sel = .w
  · rw [h]
    exact hw
  · rw [leap_of_ne_w h, selectedPair_eq hp s h]

theorem selectedPair_eq_ite {p : Config.Params} (hp : p.Admissible) (sel : MatSel) (s : State) :
    selectedPair p sel s = if sel = .w then (s.w1, s.w2) else stepPower p (leap 0 sel) := by
  split
  · next h => rw [h, selectedPair_w]
  · next h => exact selectedPair_eq hp s h

/-! ## Jumps as repeated Recurrence Steps -/

/-- A companion matrix shifts a triple and appends the recurrence's new term (`42_jump_ahead.md` rule R150). -/
theorem matVec_companion {m c1 c2 c3 : Nat} {t : Triple} (hm' : m ≤ 2 ^ 32) (h1 : c1 < m) (h2 : c2 < m) (h3 : c3 < m)
    (ht : t.Below m) :
    matVec ⟨⟨0, 1, 0⟩, ⟨0, 0, 1⟩, ⟨BitVec.ofNat 32 c3, BitVec.ofNat 32 c2, BitVec.ofNat 32 c1⟩⟩ t m =
      ⟨t.t2, t.t3, BitVec.ofNat 32 ((c1 * t.t3.toNat + c2 * t.t2.toNat + c3 * t.t1.toNat) % m)⟩ := by
  obtain ⟨-, ht2, ht3⟩ := ht
  have hsum : c3 * t.t1.toNat + c2 * t.t2.toNat + c1 * t.t3.toNat =
      c1 * t.t3.toNat + c2 * t.t2.toNat + c3 * t.t1.toNat := by ring
  simp [matVec, dot, toNat_ofNat_of_lt h1 hm', toNat_ofNat_of_lt h2 hm', toNat_ofNat_of_lt h3 hm',
    Nat.mod_eq_of_lt ht2, Nat.mod_eq_of_lt ht3, hsum]

/-- One Recurrence Step of a valid State Vector is the jump by the one-step pair (rule R150). -/
theorem jumpVector_stepPair {p : Config.Params} (hp : p.Admissible) {v : StateVec} (hv : validState v = true) :
    jumpVector (stepPair p) v = stepState p v := by
  obtain ⟨hx, hy⟩ := (validState_iff v).mp hv
  have hx' := matVec_companion m1_bounds.2 hp.a11_lt hp.a12_lt hp.a13_lt ((validTriple_iff _ _).mp hx).1
  have hy' := matVec_companion m2_bounds.2 hp.a21_lt hp.a22_lt hp.a23_lt ((validTriple_iff _ _).mp hy).1
  exact congrArg₂ StateVec.mk hx' hy'

theorem stepMany_succ (p : Config.Params) (k : Nat) (v : StateVec) :
    stepMany p (k + 1) v = stepState p (stepMany p k v) :=
  Function.iterate_succ_apply' _ _ _

theorem stepMany_add (p : Config.Params) (j k : Nat) (v : StateVec) :
    stepMany p (j + k) v = stepMany p j (stepMany p k v) :=
  Function.iterate_add_apply _ _ _ _

theorem validState_stepMany {p : Config.Params} (hp : p.Admissible) {v : StateVec} (hv : validState v = true)
    (k : Nat) : validState (stepMany p k v) = true := by
  induction k with
  | zero => exact hv
  | succ k ih =>
    rw [stepMany_succ]
    exact recurrenceKeepsStateVectorsValid p hp _ ih

/-- The jump by the power e of the one-step pair is e Recurrence Steps (rules R151, R157). -/
theorem jumpVector_stepPower {p : Config.Params} (hp : p.Admissible) {v : StateVec} (hv : validState v = true)
    (e : Nat) : jumpVector (stepPower p e) v = stepMany p e v := by
  induction e with
  | zero => exact jumpVector_identityPair hv
  | succ e ih =>
    calc jumpVector (stepPower p (e + 1)) v
      _ = jumpVector (stepPower p 1) (jumpVector (stepPower p e) v) := by
        rw [jumpVector_stepPower_add, Nat.add_comm]
      _ = jumpVector (stepPair p) (stepMany p e v) := by rw [stepPower_one hp, ih]
      _ = stepState p (stepMany p e v) := jumpVector_stepPair hp (validState_stepMany hp hv e)
      _ = stepMany p (e + 1) v := (stepMany_succ p e v).symm

/-! ## STEP and JUMP commands of one lane -/

/-- On a valid lane JUMP replaces the lane's State Vector by the product (rule R156). -/
theorem execJumpOf_of_ok {p : Config.Params} {sel : MatSel} {lane : Word} {s : State} {v : StateVec}
    (h : readLane p lane s = .ok v) :
    execJumpOf p sel lane s = .next (respond 0 (writeLane lane (jumpVector (selectedPair p sel s) v) s)) := by
  simp only [execJumpOf, h]

/-- The check of the lane fails JUMP as it fails STEP. -/
theorem exec_jump_of_error {sel : MatSel} {lane : Word} {s : State} {e : Status}
    (h : readLane Config.params lane s = .error e) : exec (.jump sel lane) s = .next (failed e e.code.toNat s) :=
  (execJumpOf_of_error h).trans (congrArg _ (raise_eq_failed (readLane_error_ne_ok h) s))

/-- The lane exists and holds the valid State Vector `v`, and W is the power `e`. STEP and JUMP commands of the
lane keep this, with `v` moved on. -/
structure LaneAt (e : Nat) (lane : Word) (v : StateVec) (s : State) : Prop where
  w_eq : (s.w1, s.w2) = stepPower Config.params e
  lane_lt : lane.toNat < Config.params.lanesMax
  read_eq : s.lsb.read lane.toNat = some v
  valid : validState v = true

section
variable {e k : Nat} {lane : Word} {v : StateVec} {s : State}

theorem LaneAt.readLane_eq (h : LaneAt e lane v s) : readLane Config.params lane s = .ok v :=
  (readLane_eq_ok _ _ _ _).mpr ⟨h.lane_lt, h.read_eq⟩

theorem LaneAt.after_step (h : LaneAt e lane v s) :
    ∃ t, after (.step lane) s = some t ∧ LaneAt e lane (stepMany Config.params 1 v) t :=
  ⟨_, after_eq_some.mpr (execStepOf_of_ok h.readLane_eq), h.w_eq, h.lane_lt, Memory.read_write_same _ _ _,
    validState_stepMany Config.params_admissible h.valid 1⟩

theorem LaneAt.after_jump (h : LaneAt e lane v s) (sel : MatSel) :
    ∃ t, after (.jump sel lane) s = some t ∧ LaneAt e lane (stepMany Config.params (leap e sel) v) t := by
  refine ⟨_, after_eq_some.mpr (execJumpOf_of_ok h.readLane_eq), h.w_eq, h.lane_lt, ?_,
    validState_stepMany Config.params_admissible h.valid _⟩
  rw [selectedPair_eq_stepPower Config.params_admissible h.w_eq, jumpVector_stepPower Config.params_admissible h.valid]
  exact Memory.read_write_same _ _ _

/-- The commands that move a lane are its STEP and its JUMP commands. -/
theorem laneMove_eq_some {i : Instr} (h : laneMove e lane i = some k) :
    (i = .step lane ∧ k = 1) ∨ ∃ sel, i = .jump sel lane ∧ k = leap e sel := by
  unfold laneMove at h
  split at h
  · obtain ⟨rfl, hk⟩ := Option.ite_none_right_eq_some.mp h
    exact .inl ⟨rfl, (Option.some.inj hk).symm⟩
  · next sel l =>
    obtain ⟨rfl, hk⟩ := Option.ite_none_right_eq_some.mp h
    exact .inr ⟨sel, rfl, (Option.some.inj hk).symm⟩
  · cases h

theorem LaneAt.after_laneMove (h : LaneAt e lane v s) {i : Instr} (hi : laneMove e lane i = some k) :
    ∃ t, after i s = some t ∧ LaneAt e lane (stepMany Config.params k v) t := by
  obtain ⟨rfl, rfl⟩ | ⟨sel, rfl, rfl⟩ := laneMove_eq_some hi
  · exact h.after_step
  · exact h.after_jump sel

/-- Commands that all move one lane complete one after the other, and their step counts add up (rule R158). -/
theorem LaneAt.afterAll_moves {cmds : List Instr} (h : LaneAt e lane v s)
    (hmoves : ∀ i ∈ cmds, (laneMove e lane i).isSome) :
    ∃ t, afterAll cmds s = some t ∧
      LaneAt e lane (stepMany Config.params (cmds.filterMap (laneMove e lane)).sum v) t := by
  induction cmds generalizing s v with
  | nil => exact ⟨s, rfl, h⟩
  | cons i is ih =>
    obtain ⟨k, hk⟩ := Option.isSome_iff_exists.mp (hmoves i List.mem_cons_self)
    obtain ⟨t, ht, hat⟩ := h.after_laneMove hk
    obtain ⟨u, hu, hau⟩ := ih hat fun j hj => hmoves j (List.mem_cons_of_mem i hj)
    refine ⟨u, by rw [afterAll, ht, Option.bind_some, hu], ?_⟩
    rw [List.filterMap_cons_some hk, List.sum_cons, Nat.add_comm, stepMany_add]
    exact hau

/-- As many STEP commands are as many Recurrence Steps. -/
theorem LaneAt.afterAll_replicate_step (h : LaneAt e lane v s) (n : Nat) :
    ∃ t, afterAll (List.replicate n (.step lane)) s = some t ∧ LaneAt e lane (stepMany Config.params n v) t := by
  have hmove : laneMove e lane (.step lane) = some 1 := if_pos rfl
  obtain ⟨t, ht, hat⟩ := h.afterAll_moves (cmds := List.replicate n (.step lane)) fun i hi => by
    rw [List.eq_of_mem_replicate hi, hmove]
    rfl
  rw [List.filterMap_replicate_of_some hmove, List.sum_replicate, smul_eq_mul, mul_one] at hat
  exact ⟨t, ht, hat⟩

end

/-- A partial function that answers on the whole list picks out exactly its answers. -/
theorem filterMap_eq_of_map_eq_map_some {α β : Type} {f : α → Option β} {xs : List α} {ys : List β}
    (h : xs.map f = ys.map some) : xs.filterMap f = ys := by
  have hid := congrArg (List.filterMap id) h
  simpa [List.filterMap_map] using hid

/-- Settles O30: the jump and the repeated steps both leave the State Vector of `jumpVector_stepPower`. -/
theorem jumpEqualsRepeatedSteps : Obligations.JumpEqualsRepeatedSteps := by
  unfold Obligations.JumpEqualsRepeatedSteps
  intro sel lane s v e hw hlane hread hv
  have hs : LaneAt e lane v s := ⟨hw, hlane, hread, hv⟩
  obtain ⟨t, ht, hat⟩ := hs.after_jump sel
  obtain ⟨u, hu, hau⟩ := hs.afterAll_replicate_step (leap e sel)
  exact ⟨t, u, after_eq_some.mp ht, hu, hat.read_eq, hau.read_eq.trans hat.read_eq.symm⟩

/-- Settles O31: the commands' counts add up in the order of issue, and a sum does not depend on the order. -/
theorem jumpsAndStepsAddUp : Obligations.JumpsAndStepsAddUp := by
  unfold Obligations.JumpsAndStepsAddUp
  intro lane s v e cmds counts hw hlane hread hv hcounts order hperm
  have hs : LaneAt e lane v s := ⟨hw, hlane, hread, hv⟩
  have hmoves : ∀ i ∈ order, (laneMove e lane i).isSome := fun i hi => by
    have hmem : laneMove e lane i ∈ counts.map some := hcounts ▸ List.mem_map_of_mem (hperm.mem_iff.mp hi)
    obtain ⟨k, -, hk⟩ := List.mem_map.mp hmem
    exact Option.isSome_iff_exists.mpr ⟨k, hk.symm⟩
  have hsum : (order.filterMap (laneMove e lane)).sum = counts.sum := by
    rw [(hperm.filterMap _).sum_eq, filterMap_eq_of_map_eq_map_some hcounts]
  obtain ⟨t, ht, hat⟩ := hs.afterAll_moves hmoves
  exact ⟨t, ht, hsum ▸ hat.read_eq⟩

/-! ## The working matrices -/

/-- Settles O34: the squares are `pairMul` of W with itself, which adds the exponent to itself. -/
theorem matsqrResult : Obligations.MatsqrResult := by
  unfold Obligations.MatsqrResult
  refine ⟨assemble_eq_wordOf 0x31 0 0, fun cw hop => rejected_of_plainRow (op := 0x31) hop fun _ _ => rfl, fun s =>
    ⟨rfl, fun e he => ?_⟩⟩
  have hsquare := pairMul_stepPower Config.params e e
  rw [← he, ← Nat.two_mul] at hsquare
  exact hsquare

/-- Successive MATSQR commands are Pow2 of W (`42_jump_ahead.md` rules R162, R165). -/
theorem afterAll_replicate_matsqr (k : Nat) (s : State) :
    ∃ u, afterAll (List.replicate k .matsqr) s = some u ∧ (u.w1, u.w2) = pairPow2 k (s.w1, s.w2) := by
  induction k generalizing s with
  | zero => exact ⟨s, rfl, rfl⟩
  | succ k ih => exact ih (respond 0 (setW (pairMul (s.w1, s.w2) (s.w1, s.w2)) s))

theorem execMatpow2_of_le {k : Word} (h : k.toNat ≤ Config.params.kMax) (s : State) :
    execMatpow2 k s = .next (respond 0 (setW (pairPow2 k.toNat (s.w1, s.w2)) s)) :=
  if_neg (Nat.not_lt.mpr h)

theorem execMatpow2_of_gt {k : Word} (h : Config.params.kMax < k.toNat) (s : State) :
    execMatpow2 k s = .next (raise .errIllegal s) :=
  if_pos h

/-- Settles O35: MATPOW2 and the successive MATSQR commands both leave Pow2 of W. -/
theorem matpow2Result : Obligations.Matpow2Result := by
  unfold Obligations.Matpow2Result
  refine ⟨fun cw hop => rejected_of_matpow2Row hop, fun k s =>
    ⟨assemble_eq_wordOf 0x32 0 k, fun hk => ?_, fun hk => (execMatpow2_of_gt hk s).trans (next_raise_errIllegal s)⟩⟩
  obtain ⟨u, hu, huw⟩ := afterAll_replicate_matsqr k.toNat s
  refine ⟨_, u, execMatpow2_of_le hk s, hu, ?_, fun e he => ?_⟩
  · rw [← huw]
    rfl
  · exact (congrArg (pairPow2 k.toNat) he).trans (pairPow2_stepPower Config.params k.toNat e)

theorem execMatld_of_ne_w {sel : MatSel} (h : sel ≠ .w) (s : State) :
    execMatld sel s = .next (respond 0 (setW (stepPower Config.params (leap 0 sel)) s)) := by
  rw [execMatld, execMatldOf, if_neg h, selectedPair_eq Config.params_admissible s h]

theorem execMatmul_of_ne_w {sel : MatSel} (h : sel ≠ .w) (s : State) :
    execMatmul sel s =
      .next (respond 0 (setW (pairMul (stepPower Config.params (leap 0 sel)) (s.w1, s.w2)) s)) := by
  rw [execMatmul, execMatmulOf, if_neg h, selectedPair_eq Config.params_admissible s h]

/-- The word of a command with a matrix selector, by its numbers (`30_encoding.md` rules R86, R93). -/
theorem assemble_matSel (op : Byte) (sel : MatSel) (imm : Word) :
    assemble op sel.sel imm = wordOf op.toNat
      (match sel with | .i => 0 | .a => 1 | .j67 => 2 | .j72 => 3 | .j134 => 4 | .w => 5) imm.toNat := by
  cases sel <;> exact assemble_eq_wordOf op _ imm

/-- Settles O36: MATMUL is `pairMul` by the selected power, which adds its exponent. -/
theorem matmulResult : Obligations.MatmulResult := by
  unfold Obligations.MatmulResult
  refine ⟨fun cw hop => rejected_of_matrixRow (op := 0x33) hop fun _ _ => rfl,
    fun sel s hsel => ⟨assemble_matSel 0x33 sel 0, execMatmul_of_ne_w hsel s⟩, fun sel s e _ he => ?_,
    next_raise_errIllegal⟩
  have hmul := pairMul_stepPower Config.params (leap 0 sel) e
  rw [← he, Nat.add_comm] at hmul
  exact hmul

/-- Settles O33: MATLD loads the power its selector leaps. -/
theorem matldResult : Obligations.MatldResult := by
  unfold Obligations.MatldResult
  exact ⟨fun cw hop => rejected_of_matrixRow (op := 0x30) hop fun _ _ => rfl,
    fun sel s hsel => ⟨assemble_matSel 0x30 sel 0, execMatld_of_ne_w hsel s⟩, next_raise_errIllegal⟩

/-! ## JUMP and MATRD -/

/-- Settles O29: the lane check has the three answers it has for STEP, and a valid lane takes the product. -/
theorem jumpResult : Obligations.JumpResult := by
  unfold Obligations.JumpResult
  refine ⟨fun cw hop => rejected_of_selectorImmRow (op := 0x28) hop fun _ _ => rfl, fun sel lane s =>
    ⟨assemble_matSel 0x28 sel lane, fun v hlane hread => ?_, fun hlane => ?_, fun hlane hread => ?_⟩⟩
  · rw [← selectedPair_eq_ite Config.params_admissible]
    exact ⟨_, execJumpOf_of_ok ((readLane_eq_ok _ _ _ _).mpr ⟨hlane, hread⟩), Memory.read_write_same _ _ _,
      fun l hl => Memory.read_write_other _ _ hl, rfl⟩
  · exact exec_jump_of_error ((readLane_eq_error _ _ _ _).mpr (.inl ⟨rfl, hlane⟩))
  · exact exec_jump_of_error ((readLane_eq_error _ _ _ _).mpr (.inr ⟨rfl, hlane, hread⟩))

/-- The nine entries of a matrix in the order of their indices (`30_encoding.md` rule R95). -/
theorem Mat3.entries_getElem? (x : Mat3) {index : Nat} (h : index ≤ 8) :
    [x.r0.t1, x.r0.t2, x.r0.t3, x.r1.t1, x.r1.t2, x.r1.t3, x.r2.t1, x.r2.t2, x.r2.t3][index]? =
      some (x.entry index) := by
  interval_cases index <;> rfl

theorem workingMatrix_eq_ite (m : Modulus) (s : State) : workingMatrix m s = if m = .m1 then s.w1 else s.w2 := by
  cases m <;> rfl

theorem execMatrd_of_le {index : Word} (h : index.toNat ≤ 8) (m : Modulus) (s : State) :
    execMatrd m index s = .next (respond (zextWord ((workingMatrix m s).entry index.toNat)) s) :=
  if_neg (Nat.not_lt.mpr h)

theorem execMatrd_of_gt {index : Word} (h : 8 < index.toNat) (m : Modulus) (s : State) :
    execMatrd m index s = .next (raise .errIllegal s) :=
  if_pos h

/-- Settles O37: MATRD answers the entry that the index names in the list of the nine. -/
theorem matrdResult : Obligations.MatrdResult := by
  unfold Obligations.MatrdResult
  refine ⟨fun cw hop => rejected_of_matrdRow hop, fun m index s => ⟨?_, ?_, fun hindex =>
    (execMatrd_of_gt hindex m s).trans (next_raise_errIllegal s)⟩⟩
  · rw [← modulus_sel_toNat]
    exact assemble_eq_wordOf 0x34 m.sel index
  · rintro w rfl hindex
    rw [← workingMatrix_eq_ite]
    exact ⟨_, Mat3.entries_getElem? _ hindex, execMatrd_of_le hindex m s⟩

end Sys2Proof.Machine

/-! # The family `43_stream_layout.md`: SEED, LDSTATE and RDSTATE

SEED fills the lanes with one list of derived State Vectors, so each lane is read off that list by its index: the powers
of the one-step pair say what it holds, and keep it valid. LDSTATE and RDSTATE follow from their checks and from what the
lane state buffer reads after a write. -/

namespace Sys2Proof.Machine

/-! ## The derived State Vectors -/

/-- The argument of `42_jump_ahead.md` rule R168: a jump by a power is that many Recurrence Steps, and each keeps the
State Vector invariant. -/
theorem validState_jumpVector_stepPower {p : Config.Params} (hp : p.Admissible) (e : Nat) {v : StateVec}
    (hv : validState v = true) : validState (jumpVector (stepPower p e) v) = true := by
  rw [jumpVector_stepPower hp hv]
  exact validState_stepMany hp hv e

theorem validState_iterate_jumpVector {p : Config.Params} (hp : p.Admissible) (e n : Nat) {v : StateVec}
    (hv : validState v = true) : validState ((jumpVector (stepPower p e))^[n] v) = true :=
  Function.Iterate.rec (validState · = true) hv (fun _ => validState_jumpVector_stepPower hp e) n

/-- Substream j of stream i: the root advanced i times by the stream jump, then j times by the substream jump
(`43_stream_layout.md` rule R180). -/
def derivedVector (p : Config.Params) (i j : Nat) (root : StateVec) : StateVec :=
  (jumpVector (stepPower p (2 ^ 72)))^[j] ((jumpVector (stepPower p (2 ^ 134)))^[i] root)

theorem validState_derivedVector {p : Config.Params} (hp : p.Admissible) (i j : Nat) {root : StateVec}
    (hroot : validState root = true) : validState (derivedVector p i j root) = true :=
  validState_iterate_jumpVector hp _ j (validState_iterate_jumpVector hp _ i hroot)

/-- The State Vectors that SEED derives from the seed word, in the order of their lanes (rules R180, R183). -/
def seedVectors (p : Config.Params) (s : State) : List StateVec :=
  streams (jumpPair p Config.jumpExp134) (jumpPair p Config.jumpExp72) s.nsub.toNat s.nstreams.toNat (seedRoot s.seedw)

theorem seedVectors_length (p : Config.Params) (s : State) :
    (seedVectors p s).length = s.nstreams.toNat * s.nsub.toNat :=
  streams_length _ _ _ _ _

theorem seedVectors_getElem? {p : Config.Params} (hp : p.Admissible) {s : State} {i j : Nat}
    (hi : i < s.nstreams.toNat) (hj : j < s.nsub.toNat) :
    (seedVectors p s)[i * s.nsub.toNat + j]? = some (derivedVector p i j (seedRoot s.seedw)) := by
  rw [seedVectors, streams_getElem? _ _ _ _ _ _ _ hi hj, jumpPair_eq_stepPower hp, jumpPair_eq_stepPower hp]
  rfl

/-- Every lane below NSTREAMS·NSUB is one substream of one stream. -/
theorem exists_stream_substream {l ns nb : Nat} (h : l < ns * nb) : ∃ i j, i < ns ∧ j < nb ∧ l = i * nb + j :=
  ⟨l / nb, l % nb, Nat.div_lt_of_lt_mul (Nat.mul_comm ns nb ▸ h),
    Nat.mod_lt l (Nat.pos_of_mul_pos_left (Nat.zero_lt_of_lt h)), (Nat.div_add_mod' l nb).symm⟩

/-- What SEED leaves in the lane of a substream. -/
theorem read_fill_seedVectors {p : Config.Params} (hp : p.Admissible) {s : State} {i j : Nat}
    (hi : i < s.nstreams.toNat) (hj : j < s.nsub.toNat) :
    (s.lsb.fill (seedVectors p s)).read (i * s.nsub.toNat + j) = some (derivedVector p i j (seedRoot s.seedw)) := by
  have hget := seedVectors_getElem? hp hi hj
  obtain ⟨hlt, -⟩ := List.getElem?_eq_some_iff.mp hget
  rw [Memory.read_fill, if_pos hlt, hget]

/-- SEED leaves every lane above the substreams as it was (rule R183). -/
theorem read_fill_seedVectors_of_ge (p : Config.Params) {s : State} {l : Nat}
    (h : s.nstreams.toNat * s.nsub.toNat ≤ l) : (s.lsb.fill (seedVectors p s)).read l = s.lsb.read l := by
  rw [Memory.read_fill, if_neg (by rw [seedVectors_length]; exact Nat.not_lt.mpr h)]

/-! ## SEED -/

section
variable {p : Config.Params} {s : State}

theorem seedCheck_eq_none (hseed : validState (seedRoot s.seedw) = true) (hns : 1 ≤ s.nstreams.toNat)
    (hnb : 1 ≤ s.nsub.toNat) (hlanes : s.nstreams.toNat * s.nsub.toNat ≤ p.lanesMax) : seedCheck p s = none := by
  rcases seedCheck_cases p s with ⟨-, hinvalid⟩ | ⟨-, -, hcounts⟩ | ⟨hnone, -⟩
  · cases hseed.symm.trans hinvalid
  · omega
  · exact hnone

theorem seedCheck_eq_errState (hseed : validState (seedRoot s.seedw) ≠ true) : seedCheck p s = some .errState := by
  rcases seedCheck_cases p s with ⟨herr, -⟩ | ⟨-, hvalid, -⟩ | ⟨-, hvalid, -⟩
  · exact herr
  all_goals exact absurd hvalid hseed

theorem seedCheck_eq_errLane (hseed : validState (seedRoot s.seedw) = true)
    (hcounts : s.nstreams.toNat = 0 ∨ s.nsub.toNat = 0 ∨ p.lanesMax < s.nstreams.toNat * s.nsub.toNat) :
    seedCheck p s = some .errLane := by
  rcases seedCheck_cases p s with ⟨-, hinvalid⟩ | ⟨herr, -⟩ | ⟨-, -, hns, hnb, hlanes⟩
  · cases hseed.symm.trans hinvalid
  · exact herr
  · omega

/-- SEED past its checks (rule R181). -/
theorem execSeedOf_of_none (h : seedCheck p s = none) :
    execSeedOf p s =
      .next (respond (BitVec.ofNat 64 (s.nstreams.toNat * s.nsub.toNat)) (setLsb (s.lsb.fill (seedVectors p s)) s)) := by
  simp only [execSeedOf, h, seedVectors]

/-- SEED's checks fail it with their own status, and nothing else changes (`60_exceptions.md` rule R276). -/
theorem exec_seed_of_some {e : Status} (h : seedCheck Config.params s = some e) :
    exec .seed s = .next (failed e e.code.toNat s) :=
  (execSeedOf_of_some h).trans (congrArg _ (raise_eq_failed (seedCheck_some_ne_ok h) s))

end

/-- Settles O39: the three answers of SEED's checks, and past them the lanes read off `seedVectors`. -/
theorem seedResult : Obligations.SeedResult := by
  unfold Obligations.SeedResult
  refine ⟨assemble_eq_wordOf 0x40 0 0, fun cw hop => rejected_of_plainRow (op := 0x40) hop fun _ _ => rfl, fun s =>
    ⟨fun hpos hlt hns hnb hlanes => ?_, fun hseed => ?_, fun hpos hlt hcounts => ?_⟩⟩
  · have hp := Config.params_admissible
    have hroot := (seedRoot_valid_iff s.seedw).mpr ⟨hpos, hlt⟩
    refine ⟨_, execSeedOf_of_none (seedCheck_eq_none hroot hns hnb hlanes),
      fun i j hi hj => read_fill_seedVectors hp hi hj, fun l v hl hread => ?_,
      fun l hl => read_fill_seedVectors_of_ge _ hl, rfl⟩
    obtain ⟨i, j, hi, hj, rfl⟩ := exists_stream_substream hl
    obtain rfl : derivedVector Config.params i j (seedRoot s.seedw) = v :=
      Option.some.inj ((read_fill_seedVectors hp hi hj).symm.trans hread)
    exact validState_derivedVector hp i j hroot
  · refine exec_seed_of_some (seedCheck_eq_errState fun hvalid => ?_)
    have := (seedRoot_valid_iff s.seedw).mp hvalid
    omega
  · exact exec_seed_of_some (seedCheck_eq_errLane ((seedRoot_valid_iff s.seedw).mpr ⟨hpos, hlt⟩) hcounts)

/-! ## LDSTATE -/

/-- ValidState of the staged words, written out (rule R186). -/
theorem stagedVector_valid_iff (s : State) :
    validState (stagedVector s) = true ↔
      s.s0.toNat < 4294967087 ∧ s.s1.toNat < 4294967087 ∧ s.s2.toNat < 4294967087 ∧
      s.s3.toNat < 4294944443 ∧ s.s4.toNat < 4294944443 ∧ s.s5.toNat < 4294944443 ∧
      ¬(s.s0 = 0 ∧ s.s1 = 0 ∧ s.s2 = 0) ∧ ¬(s.s3 = 0 ∧ s.s4 = 0 ∧ s.s5 = 0) := by
  rw [validState_iff, validTriple_iff, validTriple_iff]
  simp only [Triple.Below, stagedVector, Config.m1, Config.m2]
  tauto

section
variable {p : Config.Params} {lane : Word} {s : State}

theorem execLdstateOf_of_ge (hlane : p.lanesMax ≤ lane.toNat) : execLdstateOf p lane s = .next (raise .errLane s) :=
  if_pos hlane

theorem execLdstateOf_of_invalid (hlane : lane.toNat < p.lanesMax) (hv : validState (stagedVector s) ≠ true) :
    execLdstateOf p lane s = .next (raise .errState s) := by
  rw [execLdstateOf, if_neg (Nat.not_le.mpr hlane), if_pos (by simpa using hv)]

theorem execLdstateOf_of_valid (hlane : lane.toNat < p.lanesMax) (hv : validState (stagedVector s) = true) :
    execLdstateOf p lane s = .next (respond 0 (writeLane lane (stagedVector s) s)) := by
  rw [execLdstateOf, if_neg (Nat.not_le.mpr hlane), if_neg (by simp [hv])]

end

/-- Settles O41: the lane check, then ValidState of the staged words, then one write of the lane state buffer. -/
theorem ldstateResult : Obligations.LdstateResult := by
  unfold Obligations.LdstateResult
  refine ⟨fun cw hop => rejected_of_immRow (op := 0x41) hop fun _ _ => rfl, fun lane s =>
    ⟨assemble_eq_wordOf 0x41 0 lane, fun hlane hvalid => ?_, fun hlane => ?_, fun hlane hinvalid => ?_⟩⟩
  · exact ⟨_, execLdstateOf_of_valid hlane ((stagedVector_valid_iff s).mpr hvalid), Memory.read_write_same _ _ _,
      fun l hl => Memory.read_write_other _ _ hl, rfl⟩
  · exact (execLdstateOf_of_ge hlane).trans (congrArg _ (raise_eq_failed (by decide) s))
  · exact (execLdstateOf_of_invalid hlane (hinvalid ∘ (stagedVector_valid_iff s).mp)).trans
      (congrArg _ (raise_eq_failed (by decide) s))

/-! ## RDSTATE -/

/-- On a valid lane RDSTATE answers the word that its index names (rule R188). -/
theorem execRdstateOf_of_ok {p : Config.Params} {word : StateWord} {lane : Word} {s : State} {v : StateVec}
    (h : readLane p lane s = .ok v) :
    execRdstateOf p word lane s = .next (respond (zextWord (stateWord v word)) s) := by
  simp only [execRdstateOf, h]

/-- The check of the lane fails RDSTATE as it fails STEP and JUMP. -/
theorem exec_rdstate_of_error {word : StateWord} {lane : Word} {s : State} {e : Status}
    (h : readLane Config.params lane s = .error e) : exec (.rdstate word lane) s = .next (failed e e.code.toNat s) :=
  (execRdstateOf_of_error h).trans (congrArg _ (raise_eq_failed (readLane_error_ne_ok h) s))

/-- Settles O42: the lane check has the three answers it has for STEP, and a valid lane answers one of its six words. -/
theorem rdstateResult : Obligations.RdstateResult := by
  unfold Obligations.RdstateResult
  refine ⟨fun cw hop => rejected_of_selectorImmRow (op := 0x42) hop fun _ _ => rfl, fun word lane s =>
    ⟨?_, fun v hlane hread => ?_, fun hlane => ?_, fun hlane hread => ?_⟩⟩
  · cases word <;> exact assemble_eq_wordOf 0x42 _ lane
  · have hexec : exec (.rdstate word lane) s = _ := execRdstateOf_of_ok ((readLane_eq_ok _ _ _ _).mpr ⟨hlane, hread⟩)
    rw [hexec]
    cases word <;> rfl
  · exact exec_rdstate_of_error ((readLane_eq_error _ _ _ _).mpr (.inl ⟨rfl, hlane⟩))
  · exact exec_rdstate_of_error ((readLane_eq_error _ _ _ _).mpr (.inr ⟨rfl, hlane, hread⟩))

end Sys2Proof.Machine

/-! # The family `44_uniform_sampling.md`: GENERATE

The guard answers by the words of a request, and past it GENERATE leaves one state, `generated`. What its buffer and its
lanes hold is read off the rounds by index; that its elements lie between 0 and 1 is read off their bit patterns, which
stand below the pattern of 1. -/

namespace Sys2Proof.Machine

/-! ## The guard by the words of a request -/

section
variable {s : State}

theorem shapeDims_of_shapeOk (h : shapeOk s) : shapeDims s = requestedDims s := by
  obtain ⟨-, hrank, -⟩ := h
  exact shapeDims_eq s hrank

theorem capacityGuard_of_not_shapeOk (h : ¬ shapeOk s) : capacityGuard Config.params s = .error .errShape := by
  rcases capacityGuard_cases Config.params s with ⟨hg, -⟩ | ⟨hg, -⟩ | ⟨hpos, hle, hdims, -⟩
  · exact hg
  · exact hg
  · exact absurd ⟨hpos, hle, shapeDims_eq s hle ▸ hdims⟩ h

/-- Past the shape the guard tests the lane count, then the product of the dimensions as a whole
(`45_capacity_guard.md` rules R227, R230). -/
theorem capacityGuard_of_shapeOk (h : shapeOk s) :
    (¬ lanesOk s ∧ capacityGuard Config.params s = .error .errLane) ∨
    (lanesOk s ∧ capacityGuard Config.params s =
      if requestedCount s ≤ Config.params.nMax then .ok (requestedCount s, requestedSpl s)
      else .error .errCapacity) := by
  have hshape := shapeDims_of_shapeOk h
  obtain ⟨hpos, hle, hdims⟩ := h
  rcases capacityGuard_cases Config.params s with ⟨-, hrank⟩ | ⟨-, -, -, d, hd, hd0⟩ | ⟨-, -, -, ⟨hg, hl⟩ | ⟨h1, h2, hg⟩⟩
  · have hmax : Config.params.rankMax = 8 := rfl
    omega
  · have := hdims d (hshape ▸ hd)
    omega
  · exact .inl ⟨fun ⟨h1, h2⟩ => by omega, hg⟩
  · refine .inr ⟨⟨h1, h2⟩, hg.trans ?_⟩
    rw [hshape, runningProduct_eq _ _ _ hdims (by decide), Nat.one_mul, ← requestedCount]
    by_cases hn : requestedCount s ≤ Config.params.nMax
    · rw [if_pos hn, if_pos hn]
      rfl
    · rw [if_neg hn, if_neg hn]

theorem capacityGuard_of_not_lanesOk (hshape : shapeOk s) (hlanes : ¬ lanesOk s) :
    capacityGuard Config.params s = .error .errLane := by
  rcases capacityGuard_of_shapeOk hshape with ⟨-, hg⟩ | ⟨hl, -⟩
  · exact hg
  · exact absurd hl hlanes

theorem capacityGuard_of_lanesOk (hshape : shapeOk s) (hlanes : lanesOk s) :
    capacityGuard Config.params s =
      if requestedCount s ≤ Config.params.nMax then .ok (requestedCount s, requestedSpl s)
      else .error .errCapacity := by
  rcases capacityGuard_of_shapeOk hshape with ⟨hl, -⟩ | ⟨-, hg⟩
  · exact absurd hlanes hl
  · exact hg

theorem capacityGuard_of_requestOk (h : requestOk s) :
    capacityGuard Config.params s = .ok (requestedCount s, requestedSpl s) := by
  obtain ⟨hshape, hlanes, hcount⟩ := h
  rw [capacityGuard_of_lanesOk hshape hlanes, if_pos hcount]

/-- The rounds of an admitted request make at least its n values (`45_capacity_guard.md` rule R231). -/
theorem requestedCount_le_spl_mul (hlanes : lanesOk s) : requestedCount s ≤ requestedSpl s * s.lanes.toNat := by
  obtain ⟨hpos, -⟩ := hlanes
  have hdiv := Nat.lt_div_mul_add (a := requestedCount s + s.lanes.toNat - 1) hpos
  rw [← requestedSpl] at hdiv
  omega

theorem requestedSpl_le_count (hlanes : lanesOk s) : requestedSpl s ≤ requestedCount s := by
  obtain ⟨hpos, -⟩ := hlanes
  refine Nat.lt_succ_iff.mp (Nat.div_lt_of_lt_mul ?_)
  have := Nat.le_mul_of_pos_left (requestedCount s) hpos
  rw [Nat.mul_succ]
  omega

end

/-- Two counts that fit their registers stand side by side in DATA (rules R232, R201). -/
theorem countsData_ofNat {n spl : Nat} (hn : n < 2 ^ 32) (hspl : spl < 2 ^ 32) :
    countsData (BitVec.ofNat 32 n) (BitVec.ofNat 32 spl) = BitVec.ofNat 64 (spl * 2 ^ 32 + n) := by
  apply BitVec.eq_of_toNat_eq
  rw [countsData, BitVec.toNat_append, BitVec.toNat_ofNat, BitVec.toNat_ofNat, BitVec.toNat_ofNat,
    Nat.mod_eq_of_lt hn, Nat.mod_eq_of_lt hspl, Nat.mod_eq_of_lt (by omega), ← Nat.shiftLeft_add_eq_or_of_lt hn,
    Nat.shiftLeft_eq]

theorem countsData_requested {s : State} (h : requestOk s) :
    countsData (BitVec.ofNat 32 (requestedCount s)) (BitVec.ofNat 32 (requestedSpl s)) = requestedData s := by
  obtain ⟨-, hlanes, hcount⟩ := h
  have hmax : Config.params.nMax = 2147483647 := rfl
  have hspl := requestedSpl_le_count hlanes
  exact countsData_ofNat (by omega) (by omega)

/-! ## The one state a successful GENERATE leaves -/

/-- `s` after a GENERATE of n elements in spl rounds over lanes that hold `vs` (`44_uniform_sampling.md` rule R201). -/
def generated (p : Config.Params) (dt : Dtype) (n spl : Nat) (vs : List StateVec) (s : State) : State :=
  respond (countsData (BitVec.ofNat 32 n) (BitVec.ofNat 32 spl))
    (setCounts (BitVec.ofNat 32 n) (BitVec.ofNat 32 spl)
      (setOb ⟨dt, (shapeDims s).map Int.toNat, (sampleRounds p dt spl vs).2.take n⟩
        (setLsb (s.lsb.fill (sampleRounds p dt spl vs).1) s)))

section
variable {p : Config.Params} {dt : Dtype} {s : State} {n spl : Nat} {vs : List StateVec}

theorem generated_ob : (generated p dt n spl vs s).ob =
    some ⟨dt, (shapeDims s).map Int.toNat, (sampleRounds p dt spl vs).2.take n⟩ := rfl

theorem generated_lsb : (generated p dt n spl vs s).lsb = s.lsb.fill (sampleRounds p dt spl vs).1 := rfl

theorem execGenerateOf_of_ok (hdt : p.dtypes.contains dt = true) (hg : capacityGuard p s = .ok (n, spl))
    (hvs : s.lsb.readFrom 0 s.lanes.toNat = some vs) :
    execGenerateOf p dt s = .next (generated p dt n spl vs s) := by
  simp only [execGenerateOf_eq s hdt, hg, hvs, generated]

theorem execGenerateOf_of_unseeded (hdt : p.dtypes.contains dt = true) (hg : capacityGuard p s = .ok (n, spl))
    (hvs : s.lsb.readFrom 0 s.lanes.toNat = none) : execGenerateOf p dt s = .next (raise .errUnseeded s) := by
  simp only [execGenerateOf_eq s hdt, hg, hvs]

/-- A GENERATE that answers OK passed the guard and found its lanes seeded. -/
theorem eq_generated_of_response_ok {t : State} {d : DWord} (hdt : p.dtypes.contains dt = true)
    (h : execGenerateOf p dt s = .next t) (hr : t.response = some ⟨.ok, d⟩) :
    ∃ n spl vs, capacityGuard p s = .ok (n, spl) ∧ s.lsb.readFrom 0 s.lanes.toNat = some vs ∧
      t = generated p dt n spl vs s := by
  cases hg : capacityGuard p s with
  | error e =>
    obtain rfl := Host.Outcome.next.inj ((execGenerateOf_of_error hdt hg).symm.trans h)
    cases hr
    exact absurd rfl (capacityGuard_error_ne_ok hg)
  | ok counts =>
    obtain ⟨n, spl⟩ := counts
    cases hvs : s.lsb.readFrom 0 s.lanes.toNat with
    | none =>
      obtain rfl := Host.Outcome.next.inj ((execGenerateOf_of_unseeded hdt hg hvs).symm.trans h)
      cases hr
    | some vs => exact ⟨n, spl, vs, rfl, rfl, Host.Outcome.next.inj (h.symm.trans (execGenerateOf_of_ok hdt hg hvs))⟩

end

/-! ## The lanes and the elements by their index -/

section
variable {s : State} {vs : List StateVec}

/-- The lanes a GENERATE reads are below LANES, each in its own place. -/
theorem readFrom_zero_eq_some :
    s.lsb.readFrom 0 s.lanes.toNat = some vs ↔
      vs.length = s.lanes.toNat ∧ ∀ l, l < s.lanes.toNat → s.lsb.read l = vs[l]? := by
  simpa only [Nat.zero_add] using Memory.readFrom_eq_some s.lsb 0 s.lanes.toNat vs

theorem exists_readFrom_of_lanesSeeded (h : lanesSeeded s) : ∃ vs, s.lsb.readFrom 0 s.lanes.toNat = some vs := by
  refine Option.ne_none_iff_exists'.mp fun hnone => ?_
  obtain ⟨l, hl, hread⟩ := (Memory.readFrom_eq_none _ _ _).mp hnone
  exact h l hl (Nat.zero_add l ▸ hread)

theorem readFrom_of_not_lanesSeeded (h : ¬ lanesSeeded s) : s.lsb.readFrom 0 s.lanes.toNat = none := by
  unfold lanesSeeded at h
  push Not at h
  obtain ⟨l, hl, hread⟩ := h
  exact (Memory.readFrom_eq_none _ _ _).mpr ⟨l, hl, (Nat.zero_add l).symm ▸ hread⟩

/-- The lanes after the rounds: each below their number advanced by as many steps, the others as they were (rule R204). -/
theorem read_fill_sampleRounds (p : Config.Params) (dt : Dtype) (spl : Nat) (mem : Memory) (l : Nat) :
    (mem.fill (sampleRounds p dt spl vs).1).read l =
      if l < vs.length then vs[l]?.map (stepMany p spl) else mem.read l := by
  rw [Memory.read_fill, sampleRounds_states, List.length_map, List.getElem?_map]
  rfl

/-- Value e of the rounds is step e div L of lane e mod L (rule R203). -/
theorem sampleRounds_getElem?_div_mod {p : Config.Params} {dt : Dtype} {spl e : Nat} {v : StateVec}
    (he : e < spl * vs.length) (hv : vs[e % vs.length]? = some v) :
    (sampleRounds p dt spl vs).2[e]? = some (p.toFloat dt (rawValue p (e / vs.length) v).toNat) := by
  have hvalue := sampleRounds_getElem? p dt spl (e / vs.length) (e % vs.length) vs v
    (Nat.div_lt_of_lt_mul (Nat.mul_comm spl _ ▸ he)) hv
  rwa [Nat.div_add_mod'] at hvalue

end

/-! ## GENERATE -/

theorem exec_generate_of_error {dt : Dtype} {s : State} {e : Status} (h : capacityGuard Config.params s = .error e) :
    exec (.generate dt) s = .next (failed e e.code.toNat s) :=
  (execGenerateOf_of_error (params_dtypes_contains dt) h).trans
    (congrArg _ (raise_eq_failed (capacityGuard_error_ne_ok h) s))

/-- The dimensions of the new buffer are those requested, as natural numbers. -/
theorem map_ofNat_shapeDims {s : State} (h : shapeOk s) :
    ((shapeDims s).map Int.toNat).map Int.ofNat = requestedDims s := by
  rw [shapeDims_of_shapeOk h, List.map_map]
  obtain ⟨-, -, hpos⟩ := h
  exact (List.map_congr_left fun d hd => Int.toNat_of_nonneg (Int.le_of_lt (hpos d hd))).trans (List.map_id _)

/-- Settles O47: the guard fails GENERATE in its order, and past it the buffer and the lanes are read off the rounds. -/
theorem generateResult : Obligations.GenerateResult := by
  unfold Obligations.GenerateResult
  refine ⟨fun cw hop => rejected_of_selectorRow (op := 0x51) hop fun _ _ => rfl, fun dt s =>
    ⟨?_, fun hshape => ?_, fun hshape hlanes => ?_, fun hshape hlanes hcount => ?_, fun hreq hseeded => ?_,
      fun hreq hseeded => ?_⟩⟩
  · cases dt <;> exact assemble_eq_wordOf 0x51 _ 0
  · exact exec_generate_of_error (capacityGuard_of_not_shapeOk hshape)
  · exact exec_generate_of_error (capacityGuard_of_not_lanesOk hshape hlanes)
  · exact exec_generate_of_error ((capacityGuard_of_lanesOk hshape hlanes).trans (if_neg (Nat.not_le.mpr hcount)))
  · exact (execGenerateOf_of_unseeded (params_dtypes_contains dt) (capacityGuard_of_requestOk hreq)
      (readFrom_of_not_lanesSeeded hseeded)).trans (congrArg _ (raise_eq_failed (by decide) s))
  · obtain ⟨vs, hvs⟩ := exists_readFrom_of_lanesSeeded hseeded
    obtain ⟨hlen, hread⟩ := readFrom_zero_eq_some.mp hvs
    have hdata := countsData_requested hreq
    have hexec := execGenerateOf_of_ok (params_dtypes_contains dt) (capacityGuard_of_requestOk hreq) hvs
    obtain ⟨hshape, hlanes, -⟩ := hreq
    have hcount : requestedCount s ≤ requestedSpl s * vs.length := hlen ▸ requestedCount_le_spl_mul hlanes
    refine ⟨_, _, hexec, generated_ob, rfl, map_ofNat_shapeDims hshape, ?_, fun e he => ?_, fun l v hl hv => ?_,
      fun l hl => ?_, ?_⟩
    · rw [List.length_take, sampleRounds_length, Nat.min_eq_left hcount]
    · obtain ⟨hpos, -⟩ := hlanes
      have hlane : e % s.lanes.toNat < s.lanes.toNat := Nat.mod_lt e hpos
      obtain ⟨v, hv⟩ := Option.ne_none_iff_exists'.mp (hseeded _ hlane)
      refine ⟨v, hv, ?_⟩
      rw [hread _ hlane, ← hlen] at hv
      rw [List.getElem?_take_of_lt he, sampleRounds_getElem?_div_mod (he.trans_le hcount) hv, hlen]
      rfl
    · rw [generated_lsb, read_fill_sampleRounds, if_pos (hlen ▸ hl), ← hread l hl, hv]
      rfl
    · rw [generated_lsb, read_fill_sampleRounds, if_neg (hlen ▸ Nat.not_lt.mpr hl)]
    · rw [← hdata]
      rfl

/-! ## The output domain -/

/-- Before the bit pattern is made the number is a positive one below 1, with no more binary places than the smallest
subnormal has (`41_recurrence_step.md` rule R136). -/
theorem clampOpen_roundNearestEven_bounds (fmt : FloatFormat) (he : 2 ≤ fmt.eminAbs) (hp : 2 ≤ fmt.precision)
    {num den : Nat} (h : num < den) :
    0 < (clampOpen fmt (roundNearestEven fmt num den)).sig ∧
      (clampOpen fmt (roundNearestEven fmt num den)).sig < 2 ^ (clampOpen fmt (roundNearestEven fmt num den)).scale ∧
      (clampOpen fmt (roundNearestEven fmt num den)).scale ≤ fmt.eminAbs + fmt.precision - 1 := by
  obtain ⟨-, hbinade, -, -⟩ := binade_spec fmt he h
  have hscale : (roundNearestEven fmt num den).scale ≤ fmt.eminAbs + fmt.precision - 1 := by
    show binade fmt num den + fmt.precision - 1 ≤ _
    omega
  have hsig : (roundNearestEven fmt num den).sig ≤ 2 ^ (roundNearestEven fmt num den).scale :=
    roundHalfEven_le (by omega) ((Nat.mul_le_mul_right _ (Nat.le_of_lt h)).trans_eq (Nat.mul_comm _ _))
  unfold clampOpen
  split
  · exact ⟨Nat.one_pos, Nat.one_lt_two_pow (show fmt.eminAbs + fmt.precision - 1 ≠ 0 by omega), Nat.le_refl _⟩
  · split
    · have := Nat.one_lt_two_pow (n := fmt.precision) (by omega)
      exact ⟨by show 0 < 2 ^ fmt.precision - 1; omega, by show 2 ^ fmt.precision - 1 < 2 ^ fmt.precision; omega,
        by show fmt.precision ≤ _; omega⟩
    · exact ⟨by omega, by omega, hscale⟩

/-- Scaling to the unit in the last place of a binade keeps an upper bound. -/
theorem shifted_sig_div_lt {sig den t c q : Nat} (hq : 1 ≤ q) (h : sig * 2 ^ t < c * den) :
    sig * 2 ^ (t + q - 1) / den < c * 2 ^ (q - 1) := by
  refine Nat.div_lt_of_lt_mul ?_
  calc sig * 2 ^ (t + q - 1) = sig * 2 ^ t * 2 ^ (q - 1) := by rw [Nat.add_sub_assoc hq, pow_add, Nat.mul_assoc]
    _ < c * den * 2 ^ (q - 1) := Nat.mul_lt_mul_of_pos_right h (Nat.two_pow_pos _)
    _ = den * (c * 2 ^ (q - 1)) := by ring

/-- The bit pattern of a positive number below 1 stands above that of 0 and below that of 1, whose exponent field is the
bias and whose significand is 0 (rule R137). -/
theorem floatBits_bounds (fmt : FloatFormat) (he : 2 ≤ fmt.eminAbs) (hp : 2 ≤ fmt.precision)
    (hbias : fmt.bias = fmt.eminAbs + 1) {u : Dyadic} (hpos : 0 < u.sig) (hlt : u.sig < 2 ^ u.scale)
    (hscale : u.scale ≤ fmt.eminAbs + fmt.precision - 1) :
    0 < floatBits fmt u ∧ floatBits fmt u < fmt.bias * 2 ^ (fmt.precision - 1) := by
  have hunit : 0 < 2 ^ (fmt.precision - 1) := Nat.two_pow_pos _
  unfold floatBits
  split
  · obtain ⟨ht, hte, hhigh, -⟩ := binade_spec fmt he hlt
    generalize binade fmt u.sig (2 ^ u.scale) = t at *
    have hsig : u.sig * 2 ^ (t + fmt.precision - 1) / 2 ^ u.scale < 2 * 2 ^ (fmt.precision - 1) :=
      shifted_sig_div_lt (by omega) hhigh
    have hexp : (fmt.bias - t + 1) * 2 ^ (fmt.precision - 1) ≤ fmt.bias * 2 ^ (fmt.precision - 1) :=
      Nat.mul_le_mul_right _ (by omega)
    have hlow : 1 * 2 ^ (fmt.precision - 1) ≤ (fmt.bias - t) * 2 ^ (fmt.precision - 1) :=
      Nat.mul_le_mul_right _ (by omega)
    rw [Nat.add_mul] at hexp
    dsimp only
    omega
  · next hsub =>
    constructor
    · refine Nat.div_pos ?_ (Nat.two_pow_pos _)
      calc 2 ^ u.scale ≤ 2 ^ (fmt.eminAbs + fmt.precision - 1) := Nat.pow_le_pow_right (by decide) hscale
        _ ≤ u.sig * 2 ^ (fmt.eminAbs + fmt.precision - 1) := Nat.le_mul_of_pos_left _ hpos
    · calc u.sig * 2 ^ (fmt.eminAbs + fmt.precision - 1) / 2 ^ u.scale
          < 1 * 2 ^ (fmt.precision - 1) := shifted_sig_div_lt (by omega) (by omega)
        _ ≤ fmt.bias * 2 ^ (fmt.precision - 1) := Nat.mul_le_mul_right _ (by omega)

theorem toFloatBits_bounds (dt : Dtype) {z : Nat} (hz : z < Config.m1) :
    0 < toFloatBits (floatFormat dt) z ∧
      toFloatBits (floatFormat dt) z < (floatFormat dt).bias * 2 ^ ((floatFormat dt).precision - 1) := by
  have hnum : (if z = 0 then 1 else z) < Config.m1 := by
    split
    · exact m1_bounds.1
    · exact hz
  obtain ⟨hp, he, hbias⟩ := floatFormat_bounds dt
  obtain ⟨hpos, hlt, hscale⟩ := clampOpen_roundNearestEven_bounds _ he hp hnum
  exact floatBits_bounds _ he hp hbias hpos hlt hscale

@[simp] theorem elementDtype_toFloat (dt : Dtype) (z : Nat) : elementDtype (toFloat dt z) = dt := by
  cases dt <;> rfl

/-- The pattern of 1 fits the format, with the sign bit and the top exponent bit to spare. -/
theorem pattern_one_fits (dt : Dtype) :
    (floatFormat dt).bias + 1 < 2 ^ exponentBits dt ∧
      (floatFormat dt).bias * 2 ^ ((floatFormat dt).precision - 1) <
        2 ^ ((floatFormat dt).precision - 1 + exponentBits dt) := by
  cases dt <;> decide

theorem toNat_zext_ofNat {w n : Nat} (hw : w ≤ 64) (h : n < 2 ^ w) : ((BitVec.ofNat w n).setWidth 64).toNat = n := by
  rw [BitVec.toNat_setWidth_of_le hw, BitVec.toNat_ofNat, Nat.mod_eq_of_lt h]

/-- The pattern of a conversion is kept whole in its element. -/
theorem elementBits_toFloat (dt : Dtype) {z : Nat} (hz : z < Config.m1) :
    elementBits (toFloat dt z) = toFloatBits (floatFormat dt) z := by
  obtain ⟨-, hbits⟩ := toFloatBits_bounds dt hz
  obtain ⟨-, hone⟩ := pattern_one_fits dt
  have hwidth := (hbits.trans hone).trans_le (Nat.pow_le_pow_right (by decide) (Nat.le_succ _))
  cases dt with
  | fp64 => exact (BitVec.toNat_ofNat _ _).trans (Nat.mod_eq_of_lt hwidth)
  | fp32 => exact toNat_zext_ofNat (w := 32) (by decide) hwidth
  | fp16 => exact toNat_zext_ofNat (w := 16) (by decide) hwidth

/-- The fields of a pattern above that of 0 and below that of 1. -/
theorem fields_of_lt_pattern_one {dt : Dtype} {bits : Nat} (hpos : 0 < bits)
    (hlt : bits < (floatFormat dt).bias * 2 ^ ((floatFormat dt).precision - 1)) :
    exponentField dt bits < (floatFormat dt).bias ∧ signField dt bits = 0 ∧
      (exponentField dt bits = 0 → 0 < fractionField dt bits) := by
  obtain ⟨hbias, hone⟩ := pattern_one_fits dt
  have hexp : bits / 2 ^ ((floatFormat dt).precision - 1) < (floatFormat dt).bias :=
    Nat.div_lt_of_lt_mul (Nat.mul_comm _ _ ▸ hlt)
  have hfield : exponentField dt bits = bits / 2 ^ ((floatFormat dt).precision - 1) := Nat.mod_eq_of_lt (by omega)
  refine ⟨hfield ▸ hexp, Nat.div_eq_of_lt (hlt.trans hone), fun hzero => ?_⟩
  have hsplit := Nat.div_add_mod bits (2 ^ ((floatFormat dt).precision - 1))
  rw [← hfield, hzero, Nat.mul_zero, Nat.zero_add, ← fractionField] at hsplit
  exact hsplit.symm ▸ hpos

/-- Such a pattern is a finite number strictly between 0 and 1 (property P2 of rule R135). -/
theorem patternValue_mem_open {dt : Dtype} {bits : Nat} (hpos : 0 < bits)
    (hlt : bits < (floatFormat dt).bias * 2 ^ ((floatFormat dt).precision - 1)) :
    finitePattern dt bits ∧ 0 < patternValue dt bits ∧ patternValue dt bits < 1 := by
  obtain ⟨hexp, hsign, hfrac⟩ := fields_of_lt_pattern_one hpos hlt
  obtain ⟨hp, he, -⟩ := floatFormat_bounds dt
  obtain ⟨hbias, -⟩ := pattern_one_fits dt
  have hfraction : fractionField dt bits < 2 ^ ((floatFormat dt).precision - 1) := Nat.mod_lt _ (Nat.two_pow_pos _)
  refine ⟨by unfold finitePattern; omega, ?_⟩
  unfold patternValue
  rw [if_pos hsign]
  generalize floatFormat dt = fmt at *
  split
  · next hzero =>
    have hden : 2 ^ (fmt.precision - 1) ≤ 2 ^ (fmt.eminAbs + fmt.precision - 1) :=
      Nat.pow_le_pow_right (by decide) (by omega)
    have hf := hfrac hzero
    refine ⟨by positivity, (div_lt_one (by positivity)).mpr ?_⟩
    exact_mod_cast hfraction.trans_le hden
  · have hnum : (2 ^ (fmt.precision - 1) + fractionField dt bits) * 2 ^ exponentField dt bits
        < 2 ^ (fmt.bias + fmt.precision - 1) :=
      calc (2 ^ (fmt.precision - 1) + fractionField dt bits) * 2 ^ exponentField dt bits
          < 2 * 2 ^ (fmt.precision - 1) * 2 ^ exponentField dt bits :=
            Nat.mul_lt_mul_of_pos_right (by omega) (Nat.two_pow_pos _)
        _ = 2 ^ (fmt.precision - 1 + (exponentField dt bits + 1)) := by ring
        _ ≤ 2 ^ (fmt.bias + fmt.precision - 1) := Nat.pow_le_pow_right (by decide) (by omega)
    refine ⟨by positivity, (div_lt_one (by positivity)).mpr ?_⟩
    exact_mod_cast hnum

theorem toFloat_inOpenInterval (dt : Dtype) {z : Nat} (hz : z < Config.m1) : inOpenInterval (toFloat dt z) := by
  obtain ⟨hpos, hlt⟩ := toFloatBits_bounds dt hz
  rw [inOpenInterval, elementValue, elementDtype_toFloat, elementBits_toFloat dt hz]
  exact patternValue_mem_open hpos hlt

/-- The raw value of a step is below M1 (rule R132). -/
theorem stepVector_raw_lt (p : Config.Params) (v : StateVec) : (stepVector p v).2.toNat < Config.m1 :=
  (toNat_ofNat_of_lt (combine_lt _ _) m1_bounds.2).trans_lt (combine_lt _ _)

/-- Every value of the rounds is the conversion of the raw value of some step. -/
theorem exists_raw_of_mem_sampleRounds {p : Config.Params} {dt : Dtype} {x : Element} {rounds : Nat}
    {vs : List StateVec} (h : x ∈ (sampleRounds p dt rounds vs).2) : ∃ z, z < Config.m1 ∧ x = p.toFloat dt z := by
  induction rounds generalizing vs with
  | zero => cases h
  | succ rounds ih =>
    rcases List.mem_append.mp h with hround | hrest
    · obtain ⟨v, -, rfl⟩ := List.mem_map.mp hround
      exact ⟨_, stepVector_raw_lt p v, rfl⟩
    · exact ih hrest

/-- Settles O51: an element is one of the rounds' values, and those are conversions of raw values below M1. -/
theorem generateOutputDomain : Obligations.GenerateOutputDomain := by
  unfold Obligations.GenerateOutputDomain
  intro dt s t ob d hexec hresponse hob x hx
  obtain ⟨n, spl, vs, -, -, rfl⟩ := eq_generated_of_response_ok (params_dtypes_contains dt) hexec hresponse
  obtain rfl := Option.some.inj (generated_ob.symm.trans hob)
  obtain ⟨z, hz, rfl⟩ := exists_raw_of_mem_sampleRounds (List.mem_of_mem_take hx)
  exact ⟨⟨z, hz, rfl⟩, elementDtype_toFloat dt z, toFloat_inOpenInterval dt hz⟩

end Sys2Proof.Machine

/-! # The family `45_capacity_guard.md`: CHECK and the writes of a dimension

CHECK answers as the guard does, and an admitted request has counts that fit their registers. The three writes of a
dimension differ only in the 64-bit value that they make of IMM. -/

namespace Sys2Proof.Machine

/-! ## The counts of a request -/

section
variable {s : State}

/-- A product of dimensions that are each 1 or more (`45_capacity_guard.md` rule R230). -/
theorem one_le_requestedCount (h : shapeOk s) : 1 ≤ requestedCount s := by
  obtain ⟨-, -, hpos⟩ := h
  refine List.one_le_prod_of_one_le fun x hx => ?_
  obtain ⟨d, hd, rfl⟩ := List.mem_map.mp hx
  exact Int.lt_toNat.mpr (hpos d hd)

/-- No rounds would make no values, and there is at least one to make (rule R231). -/
theorem one_le_requestedSpl (hshape : shapeOk s) (hlanes : lanesOk s) : 1 ≤ requestedSpl s :=
  Nat.pos_of_mul_pos_right ((one_le_requestedCount hshape).trans (requestedCount_le_spl_mul hlanes))

theorem requestedCount_lt_of_requestOk (h : requestOk s) : requestedCount s < 2 ^ 32 := by
  obtain ⟨-, -, hcount⟩ := h
  exact hcount.trans_lt (by decide)

end

/-! ## CHECK -/

/-- A guard that passes leaves its counts in N, SPL and DATA (rule R232). -/
theorem execCheckOf_of_ok {p : Config.Params} {s : State} {n spl : Nat} (h : capacityGuard p s = .ok (n, spl)) :
    execCheckOf p s =
      .next (respond (countsData (BitVec.ofNat 32 n) (BitVec.ofNat 32 spl))
        (setCounts (BitVec.ofNat 32 n) (BitVec.ofNat 32 spl) s)) := by
  simp only [execCheckOf, h]

/-- A check of the guard fails CHECK with its own status, and nothing else changes (`60_exceptions.md` rule R276). -/
theorem exec_check_of_error {s : State} {e : Status} (h : capacityGuard Config.params s = .error e) :
    exec .check s = .next (failed e e.code.toNat s) :=
  (execCheckOf_of_error h).trans (congrArg _ (raise_eq_failed (capacityGuard_error_ne_ok h) s))

theorem exec_check_of_requestOk {s : State} (h : requestOk s) :
    exec .check s = .next (succeeded (requestedData s)
      { s with n := BitVec.ofNat 32 (requestedCount s), spl := BitVec.ofNat 32 (requestedSpl s) }) := by
  have hexec : exec .check s = _ := execCheckOf_of_ok (capacityGuard_of_requestOk h)
  rw [hexec, countsData_requested h]
  rfl

/-- Settles O43: the guard fails CHECK in its order, and past it the counts lie between 1 and N_MAX. -/
theorem checkResult : Obligations.CheckResult := by
  unfold Obligations.CheckResult
  refine ⟨assemble_eq_wordOf 0x50 0 0, fun cw hop => rejected_of_plainRow (op := 0x50) hop fun _ _ => rfl, fun s =>
    ⟨fun hshape => ?_, fun hshape hlanes => ?_, fun hshape hlanes hcount => ?_, exec_check_of_requestOk,
      fun hreq => ?_⟩⟩
  · exact exec_check_of_error (capacityGuard_of_not_shapeOk hshape)
  · exact exec_check_of_error (capacityGuard_of_not_lanesOk hshape hlanes)
  · exact exec_check_of_error ((capacityGuard_of_lanesOk hshape hlanes).trans (if_neg (Nat.not_le.mpr hcount)))
  · have hlt := requestedCount_lt_of_requestOk hreq
    obtain ⟨hshape, hlanes, -⟩ := hreq
    exact ⟨one_le_requestedSpl hshape hlanes, requestedSpl_le_count hlanes, hlt⟩

/-! ## WRDIMS, WRDIMU and WRDIMH -/

/-- The word of a write of a dimension, by its numbers (`30_encoding.md` rules R86, R90). -/
theorem assemble_dimension (op : Byte) (k : Fin 8) (v : Word) :
    assemble op (BitVec.ofNat 8 k.val) v = wordOf op.toNat k.val v.toNat := by
  rw [assemble_eq_wordOf, BitVec.toNat_ofNat, Nat.mod_eq_of_lt (by omega)]

/-- What the three writes share: the new value of DIMk with the property `P`, every other dimension and all else as they
were (`45_capacity_guard.md` rules R235 to R237). -/
theorem exists_next_setDim (k : Fin 8) (s : State) {x : DWord} (P : DWord → Prop) (hx : P x) :
    ∃ t : State, (.next (respond 0 (setDim k x s)) : Host.Outcome State Fault Refusal) = .next t ∧ P t.dims[k] ∧
      (∀ j : Fin 8, j ≠ k → t.dims[j] = s.dims[j]) ∧ t = succeeded 0 { s with dims := t.dims } :=
  ⟨_, rfl, (setDim_same k x s).symm ▸ hx, fun _ hj => setDim_other x s hj, rfl⟩

/-- Sign extension keeps the signed value (rule R235). -/
theorem sextWord_toInt (v : Word) : (sextWord v).toInt = v.toInt :=
  BitVec.toInt_signExtend_of_le (by decide)

/-- Zero extension keeps the unsigned value (rule R236). -/
theorem zextWord_toNat (v : Word) : (zextWord v).toNat = v.toNat :=
  BitVec.toNat_setWidth_of_le (by decide)

/-- The new upper half stands over the old lower half (rule R237). -/
theorem withUpperHalf_toNat (v : Word) (old : DWord) :
    (withUpperHalf v old).toNat = v.toNat * 2 ^ 32 + old.toNat % 2 ^ 32 := by
  rw [withUpperHalf, BitVec.toNat_append, BitVec.extractLsb'_toNat, Nat.shiftRight_zero,
    ← Nat.shiftLeft_add_eq_or_of_lt (Nat.mod_lt _ (Nat.two_pow_pos 32)), Nat.shiftLeft_eq]

/-- Settles O46: one write of a dimension register by three values, each known as a number. -/
theorem wrdimResults : Obligations.WrdimResults := by
  unfold Obligations.WrdimResults
  refine ⟨fun cw hop => rejected_of_selectorImmRow (op := 0x08) hop fun _ _ => rfl,
    fun cw hop => rejected_of_selectorImmRow (op := 0x09) hop fun _ _ => rfl,
    fun cw hop => rejected_of_selectorImmRow (op := 0x0A) hop fun _ _ => rfl, fun k v s =>
    ⟨⟨assemble_dimension 0x08 k v, assemble_dimension 0x09 k v, assemble_dimension 0x0A k v⟩, ?_, ?_, ?_⟩⟩
  · exact exists_next_setDim k s (·.toInt = v.toInt) (sextWord_toInt v)
  · exact exists_next_setDim k s (·.toNat = v.toNat) (zextWord_toNat v)
  · exact exists_next_setDim k s (·.toNat = v.toNat * 2 ^ 32 + s.dims[k].toNat % 2 ^ 32)
      (withUpperHalf_toNat v s.dims[k])

end Sys2Proof.Machine

/-! # The family `46_system_access.md`: register access, the constant store and housekeeping

The table of registers is the numbering of the decoder, and the constant store is read word by word: the parameters fit
a word, and the matrix words are the entries of powers of the one-step matrices. -/

namespace Sys2Proof.Machine

/-! ## The numbers of the registers -/

/-- The table of `10_state.md` rule R33 is the numbering that the encoding uses. -/
theorem mem_registerNumbers_iff {n : Nat} {reg : Reg} : (n, reg) ∈ registerNumbers ↔ n = reg.number.toNat := by
  have hnumber : ∀ q ∈ registerNumbers, q.1 = q.2.number.toNat := by decide
  refine ⟨hnumber (n, reg), ?_⟩
  rintro rfl
  cases reg with
  | dim k => revert k; decide
  | _ => decide

/-- The registers with access RW are the writable numbers (rule R33). -/
theorem number_mem_writableNumbers {reg : Reg} (h : reg.writable = true) : reg.number.toNat ∈ writableNumbers := by
  have hwritable : ∀ q ∈ registerNumbers, q.2.writable = true → q.1 ∈ writableNumbers := by decide
  exact hwritable _ (mem_registerNumbers_iff.mpr rfl) h

/-- The word of a command with a register in SEL, by the register's number (rule R33, `30_encoding.md` rule R86). -/
theorem assemble_register {n : Nat} {reg : Reg} (h : (n, reg) ∈ registerNumbers) (op : Byte) (imm : Word) :
    assemble op reg.number imm = wordOf op.toNat n imm.toNat := by
  rw [mem_registerNumbers_iff.mp h, assemble_eq_wordOf]

/-! ## Words with the opcodes of this family -/

/-- WRREG's row: a register with access RW and every value (`46_system_access.md` rule R251). -/
theorem rejected_of_wrregRow {cw : DWord} (hop : opNumber cw = 0x02)
    (h : ∀ (reg : Reg) (v : Word), reg.writable = true → cw ≠ encode (.wrreg reg v)) : rejected cw := by
  refine rejected_of_opNumber (op := 0x02) hop fun sel imm i hi => ?_
  obtain ⟨reg, -, hw, rfl⟩ := decodeWrreg_eq_ok hi
  exact h reg imm hw

/-- RDCONST's row: format I with a defined index of the constant store (rule R253). -/
theorem rejected_of_rdconstRow {cw : DWord} (hop : opNumber cw = 0x04)
    (h : ∀ index : Word, romIndexDefined index.toNat = true → cw ≠ encode (.rdconst index)) : rejected cw := by
  refine rejected_of_opNumber (op := 0x04) hop fun sel imm i hi => ?_
  obtain ⟨-, ho⟩ := formatI_eq_ok hi
  split at ho
  · next hindex =>
    cases ho
    exact h imm hindex
  · cases ho

/-! ## NOP, SRESET, WRREG and RDREG -/

/-- Settles O52: the all-zero word is the one word of its row, and NOP only responds. -/
theorem nopResult : Obligations.NopResult := by
  unfold Obligations.NopResult
  have hword : encode .nop = 0 := assemble_eq_wordOf 0x00 0 0
  exact ⟨hword, fun cw hop hcw => rejected_of_plainRow (op := 0x00) hop (fun _ _ => rfl) (hword ▸ hcw),
    fun _ => rfl⟩

/-- Settles O53: the effect of SRESET is the host's reset followed by a response. -/
theorem sresetResult : Obligations.SresetResult := by
  unfold Obligations.SresetResult
  exact ⟨assemble_eq_wordOf 0x01 0 0, fun cw hop => rejected_of_plainRow (op := 0x01) hop fun _ _ => rfl,
    fun _ => rfl⟩

section
variable {reg : Reg}

theorem exec_wrreg_of_writable (h : reg.writable = true) (v : Word) (s : State) :
    exec (.wrreg reg v) s = .next (succeeded 0 (writeReg reg v s)) :=
  if_pos h

theorem exec_wrreg_of_not_writable (h : ¬ reg.writable = true) (v : Word) (s : State) :
    exec (.wrreg reg v) s = .next (failed .errIllegal 7 s) :=
  (if_neg h).trans (next_raise_errIllegal s)

/-- The registers that only commands other than WRREG change, or none (`10_state.md` rule R33). -/
theorem not_writable_of_readOnly
    (h : reg ∈ [Reg.r, .f, .status, .esticky, .n, .spl, .id, .version] ∨ ∃ k, reg = .dim k) :
    ¬ reg.writable = true := by
  have hlisted : ∀ reg ∈ [Reg.r, .f, .status, .esticky, .n, .spl, .id, .version], ¬ reg.writable = true := by
    decide
  rcases h with h | ⟨k, rfl⟩
  · exact hlisted reg h
  · exact Bool.false_ne_true

end

/-- Settles O54: the row of WRREG by the writable numbers, then `writeReg` of each of the fourteen registers. -/
theorem wrregResult : Obligations.WrregResult := by
  unfold Obligations.WrregResult
  refine ⟨fun cw hop hcw => rejected_of_wrregRow hop fun reg v hw => ?_, fun v s =>
    ⟨fun q hq => assemble_register hq 0x02 v, exec_wrreg_of_writable rfl v s, exec_wrreg_of_writable rfl v s,
      exec_wrreg_of_writable rfl v s, exec_wrreg_of_writable rfl v s, exec_wrreg_of_writable rfl v s,
      exec_wrreg_of_writable rfl v s, exec_wrreg_of_writable rfl v s, exec_wrreg_of_writable rfl v s,
      exec_wrreg_of_writable rfl v s, exec_wrreg_of_writable rfl v s, exec_wrreg_of_writable rfl v s,
      exec_wrreg_of_writable rfl v s, exec_wrreg_of_writable rfl v s, exec_wrreg_of_writable rfl v s,
      fun _ hreg => exec_wrreg_of_not_writable (not_writable_of_readOnly hreg) v s⟩⟩
  have hword : encode (.wrreg reg v) = wordOf 0x02 _ v.toNat :=
    assemble_register (mem_registerNumbers_iff.mpr rfl) 0x02 v
  rw [hword]
  exact hcw _ (number_mem_writableNumbers hw) v

/-- Settles O55: the row of RDREG by the table's numbers, then `readReg` of each register before the response. -/
theorem rdregResult : Obligations.RdregResult := by
  unfold Obligations.RdregResult
  have hword : ∀ q ∈ registerNumbers, encode (.rdreg q.2) = wordOf 0x03 q.1 0 :=
    fun _ hq => assemble_register hq 0x03 0
  refine ⟨fun cw hop hcw => rejected_of_selectorRow (op := 0x03) hop (fun _ _ => rfl) fun reg => ?_, hword, fun s =>
    ⟨fun _ => rfl, readReg_a s, readReg_b s, readReg_c s, readReg_r s, readReg_f s, readReg_s0 s, readReg_s1 s,
      readReg_s2 s, readReg_s3 s, readReg_s4 s, readReg_s5 s, readReg_seedw s, readReg_nstreams s, readReg_nsub s,
      readReg_lanes s, readReg_rank s, readReg_dim s, readReg_status s, readReg_esticky s, readReg_n s, readReg_spl s,
      readReg_id s, readReg_version s⟩⟩
  have hreg : (reg.number.toNat, reg) ∈ registerNumbers := mem_registerNumbers_iff.mpr rfl
  exact hword _ hreg ▸ hcw _ hreg

/-! ## RDCONST -/

/-- The defined indices of the constant store (`20_memory.md` rule R61). -/
theorem romIndexDefined_iff (n : Nat) :
    romIndexDefined n = true ↔ n ≤ 5 ∨ 8 ≤ n ∧ n ≤ 13 ∨ 16 ≤ n ∧ n ≤ 87 := by
  simp [romIndexDefined, or_assoc]

/-- The indices of rule R61 at which the constant store holds nothing. -/
theorem romWord_eq_none {n : Nat} (h : n ∈ [6, 7, 14, 15] ∨ 88 ≤ n) (p : Config.Params) : romWord p n = none := by
  rw [← Option.not_isSome_iff_eq_none, romWord_isSome, romIndexDefined_iff]
  simp only [List.mem_cons, List.not_mem_nil, or_false] at h
  omega

/-- Part and entry of a matrix table, read back from the offset of a matrix word (rule R61). -/
theorem romMatrixWord_offset (p : Config.Params) (t : Nat) {part k : Nat} (hpart : part < 2) (hk : k < 9) :
    romMatrixWord p (18 * t + 9 * part + k) =
      (if part = 0 then (romTable p t).1 else (romTable p t).2).entry k := by
  have hdiv : (18 * t + 9 * part + k) / 18 = t := by omega
  have hmod : (18 * t + 9 * part + k) % 18 = 9 * part + k := by omega
  simp only [romMatrixWord, hdiv, hmod]
  obtain rfl | rfl : part = 0 ∨ part = 1 := by omega
  · rw [if_pos (by omega), if_pos rfl, Nat.mul_zero, Nat.zero_add]
  · rw [if_neg (by omega), if_neg Nat.one_ne_zero, Nat.mul_one, Nat.add_sub_cancel_left]

/-- The tables of the constant store are the powers that their selectors leap (rule R61, `30_encoding.md` rule R93). -/
theorem romTable_eq_stepPower {p : Config.Params} (hp : p.Admissible) {sel : MatSel} {t : Nat}
    (h : (sel, t) ∈ [(MatSel.a, 0), (.j67, 1), (.j72, 2), (.j134, 3)]) : romTable p t = stepPower p (leap 0 sel) := by
  simp only [List.mem_cons, List.not_mem_nil, or_false, Prod.mk.injEq] at h
  rcases h with ⟨rfl, rfl⟩ | ⟨rfl, rfl⟩ | ⟨rfl, rfl⟩ | ⟨rfl, rfl⟩
  · exact (stepPower_one hp).symm
  · exact jumpPair_eq_stepPower hp 67
  · exact jumpPair_eq_stepPower hp 72
  · exact jumpPair_eq_stepPower hp 134

section
variable {index : Word}

theorem exec_rdconst_of_some {w : Word} (h : romWord Config.params index.toNat = some w) (s : State) :
    exec (.rdconst index) s = .next (succeeded (w.setWidth 64) s) := by
  have hexec : execRdconstOf Config.params index s = .next (respond (zextWord w) s) := by rw [execRdconstOf, h]
  exact hexec

theorem exec_rdconst_of_none (h : romWord Config.params index.toNat = none) (s : State) :
    exec (.rdconst index) s = .next (failed .errIllegal 7 s) := by
  have hexec : execRdconstOf Config.params index s = .next (raise .errIllegal s) := by rw [execRdconstOf, h]
  exact hexec.trans (next_raise_errIllegal s)

/-- A constant that fits a word of the constant store is DATA whole (`20_memory.md` rule R61). -/
theorem exec_rdconst_of_number {value : Nat} (h : romWord Config.params index.toNat = some (BitVec.ofNat 32 value))
    (hlt : value < 2 ^ 32) (s : State) : exec (.rdconst index) s = .next (succeeded (BitVec.ofNat 64 value) s) :=
  zextWord_ofNat hlt ▸ exec_rdconst_of_some h s

end

/-- The matrix words of rule R61 as entries of powers of the one-step matrices. -/
theorem romWord_params_matrix {sel : MatSel} {t part i j : Nat}
    (h : (sel, t) ∈ [(MatSel.a, 0), (.j67, 1), (.j72, 2), (.j134, 3)]) (hpart : part < 2) (hi : i < 3) (hj : j < 3) :
    romWord Config.params (BitVec.ofNat 32 (16 + 18 * t + 9 * part + 3 * i + j)).toNat =
      some ((if part = 0 then (stepPower Config.params (leap 0 sel)).1
        else (stepPower Config.params (leap 0 sel)).2).entry (3 * i + j)) := by
  have ht : t < 4 := by
    have htables : ∀ q ∈ [(MatSel.a, 0), (.j67, 1), (.j72, 2), (.j134, 3)], q.2 < 4 := by decide
    exact htables _ h
  have hoffset : 16 + 18 * t + 9 * part + 3 * i + j - 16 = 18 * t + 9 * part + (3 * i + j) := by omega
  rw [BitVec.toNat_ofNat, Nat.mod_eq_of_lt (by omega), romWord_matrix _ (by omega) (by omega), hoffset,
    romMatrixWord_offset _ t hpart (by omega), romTable_eq_stepPower Config.params_admissible h]

/-- Settles O56: the constant store word by word, where a parameter fits its word and a matrix table is a power. -/
theorem rdconstResult : Obligations.RdconstResult := by
  unfold Obligations.RdconstResult
  have hword : ∀ index : Word, encode (.rdconst index) = wordOf 0x04 0 index.toNat := assemble_eq_wordOf 0x04 0
  refine ⟨fun cw hop hcw => rejected_of_rdconstRow hop fun index hindex => ?_, fun s =>
    ⟨hword, exec_rdconst_of_number rfl (by decide) s, exec_rdconst_of_number rfl (by decide) s,
      exec_rdconst_of_number rfl (by decide) s, exec_rdconst_of_number rfl (by decide) s,
      exec_rdconst_of_number rfl (by decide) s, exec_rdconst_of_number rfl (by decide) s,
      exec_rdconst_of_number rfl (by decide) s, exec_rdconst_of_number rfl (by decide) s,
      exec_rdconst_of_number rfl (by decide) s, exec_rdconst_of_number rfl (by decide) s,
      exec_rdconst_of_number rfl (by decide) s, exec_rdconst_of_number rfl (by decide) s,
      fun sel t part i j hsel hpart hi hj => exec_rdconst_of_some (romWord_params_matrix hsel hpart hi hj) s,
      fun index hindex => exec_rdconst_of_none (romWord_eq_none hindex Config.params) s⟩⟩
  rw [hword]
  exact hcw _ ((romIndexDefined_iff _).mp hindex)

end Sys2Proof.Machine

/-! # The family `60_exceptions.md`: error entry

A command that fails does so through `raise`, so its response fixes the whole next state. -/

namespace Sys2Proof.Machine

/-- `raise` as the three assignments of error entry (`60_exceptions.md` rule R276). -/
theorem raise_of_ne_ok {e : Status} (he : e ≠ .ok) (s : State) :
    raise e s =
      { s with
        status := e.code
        esticky := s.esticky ||| (1#8 <<< e.code.toNat)
        response := some ⟨e, 0⟩ } := by
  rw [raise, estickyAfter_of_ne_ok _ he]

/-- A command whose response is not OK left through `raise`. -/
theorem Completes.exists_raise_of_response {s t : State} {r : Response} (h : Completes s (.next t))
    (hr : t.response = some r) (hfail : r.status ≠ .ok) : ∃ e : Status, e ≠ .ok ∧ r = ⟨e, 0⟩ ∧ t = raise e s := by
  cases h with
  | success d u =>
    obtain rfl := Option.some.inj hr
    exact absurd rfl hfail
  | failure e he => exact ⟨e, he, (Option.some.inj hr).symm, rfl⟩

/-- Settles O8: SRESET answers OK, and any other command that answers a failure went through `raise`. -/
theorem errorEntryChangesOnlyStatus : Obligations.ErrorEntryChangesOnlyStatus := by
  unfold Obligations.ErrorEntryChangesOnlyStatus
  intro s t cw rest r hs ht hr hfail
  rcases step_command_cases hs with ⟨-, hsreset⟩ | ⟨-, hcompletes⟩
  · obtain rfl := Host.Outcome.next.inj (hsreset.symm.trans ht)
    obtain rfl := Option.some.inj hr
    exact absurd rfl hfail
  · rw [ht] at hcompletes
    obtain ⟨e, he, rfl, rfl⟩ := hcompletes.exists_raise_of_response hr hfail
    exact ⟨rfl, raise_of_ne_ok he _⟩

end Sys2Proof.Machine

/-! # Decoding and encoding in every unit

A well-formed command is read back from its own word, constructor by constructor; the other direction is
`wellFormedOf_and_encode_of_decodeOf`. The default unit is one of the units. -/

namespace Sys2Proof

/-! ## A selector names its operand -/

theorem Modulus.ofSel_sel (m : Modulus) : Modulus.ofSel m.sel = some m := by
  cases m <;> rfl

theorem MatSel.ofJumpSel_sel (sel : MatSel) : MatSel.ofJumpSel sel.sel = some sel := by
  cases sel <;> rfl

/-- W is the one selector that MATLD and MATMUL do not have (`30_encoding.md` rule R93). -/
theorem MatSel.ofMatrixSel_sel {sel : MatSel} (h : sel ≠ .w) : MatSel.ofMatrixSel sel.sel = some sel := by
  cases sel with
  | w => exact absurd rfl h
  | _ => rfl

theorem StateWord.ofSel_sel (word : StateWord) : StateWord.ofSel word.sel = some word := by
  cases word <;> rfl

theorem dimensionOfSel_ofNat (k : Fin 8) : dimensionOfSel (BitVec.ofNat 8 k.val) = some k := by
  revert k
  decide

theorem supportedDtype_sel {p : Config.Params} {dt : Dtype} (h : p.dtypes.contains dt = true) :
    supportedDtype p dt.sel = some dt :=
  supportedDtype_eq_some.mpr ⟨h, rfl⟩

/-! ## A command is read back from its word -/

theorem operand_of_eq_some {α : Type} {o : Option α} {a : α} (h : o = some a) (why : Illegal) (k : α → Instr) :
    operand o why k = .ok (k a) := by
  rw [h, operand]

theorem decodeWrreg_number {reg : Reg} (h : reg.writable = true) (v : Word) :
    decodeWrreg reg.number v = .ok (.wrreg reg v) := by
  rw [decodeWrreg, Reg.number_ofNumber]
  exact if_pos h

/-- The fields of a well-formed command's word decode to the command, row by row of `30_encoding.md` rule R90. -/
theorem decodeFieldsOf_fields {p : Config.Params} {i : Instr} (h : i.wellFormedOf p = true) :
    decodeFieldsOf p i.opcode i.selBits i.immBits = .ok i := by
  cases i with
  | nop | sreset | matsqr | seed | check => rfl
  | step | ldstate => rfl
  | wrreg reg v => exact decodeWrreg_number h v
  | rdreg reg => exact operand_of_eq_some (Reg.number_ofNumber reg) _ _
  | rdconst index => exact if_pos h
  | wrdims k v | wrdimu k v | wrdimh k v => exact operand_of_eq_some (dimensionOfSel_ofNat k) _ _
  | addmod m | mulmod m | macmod m => exact operand_of_eq_some (Modulus.ofSel_sel m) _ _
  | cvt dt | generate dt => exact operand_of_eq_some (supportedDtype_sel h) _ _
  | jump sel lane => exact operand_of_eq_some (MatSel.ofJumpSel_sel sel) _ _
  | matld sel | matmul sel => exact operand_of_eq_some (MatSel.ofMatrixSel_sel (bne_iff_ne.mp h)) _ _
  | matpow2 k => exact if_pos (of_decide_eq_true h)
  | matrd m index => exact (if_pos (of_decide_eq_true h)).trans (operand_of_eq_some (Modulus.ofSel_sel m) _ _)
  | rdstate word lane => exact operand_of_eq_some (StateWord.ofSel_sel word) _ _

theorem decodeOf_encode {p : Config.Params} {i : Instr} (h : i.wellFormedOf p = true) :
    decodeOf p (encode i) = .ok i := by
  rw [encode, decode_assemble]
  exact decodeFieldsOf_fields h

/-- Settles O59: both directions, each for every unit. -/
theorem everyUnitDecodesItsEncodings : Obligations.EveryUnitDecodesItsEncodings := by
  unfold Obligations.EveryUnitDecodesItsEncodings
  rintro p w i
  refine ⟨wellFormedOf_and_encode_of_decodeOf, ?_⟩
  rintro ⟨hi, rfl⟩
  exact decodeOf_encode hi

/-- Settles O2: the default unit of `decodeOf_encode`. -/
theorem decodeInvertsEncode : Obligations.DecodeInvertsEncode := by
  unfold Obligations.DecodeInvertsEncode
  exact fun i hi => decodeOf_encode hi

/-- Settles O3: the default unit of `wellFormedOf_and_encode_of_decodeOf`. -/
theorem encodeInvertsDecode : Obligations.EncodeInvertsDecode := by
  unfold Obligations.EncodeInvertsDecode
  exact fun w i hi => wellFormedOf_and_encode_of_decodeOf hi

/-- Settles O1: the seven words are the words of well-formed commands, so each decodes to its command. -/
theorem decodeReadsWrittenWords : Obligations.DecodeReadsWrittenWords := by
  unfold Obligations.DecodeReadsWrittenWords
  exact ⟨decodeInvertsEncode .nop rfl, decodeInvertsEncode (.wrreg .a 1403580) rfl,
    decodeInvertsEncode (.rdreg (.dim 5)) rfl, decodeInvertsEncode (.jump .j72 5) rfl,
    decodeInvertsEncode (.matrd .m2 8) rfl, decodeInvertsEncode (.rdstate .y3 3) rfl,
    decodeInvertsEncode (.generate .fp16) rfl⟩

end Sys2Proof

/-! # The port: one step of the default unit -/

namespace Sys2Proof.Machine

/-- `step` is the step of the unit with the default parameters, as a function. -/
theorem step_eq_stepOf (s : State) : step s = stepOf Config.params s := by
  rw [step, stepOf, show exec = execOf Config.params from funext fun i => funext (exec_eq_execOf i)]
  rfl

/-- Settles O57: `exec_eq_execOf` for the commands; the step and the core follow from it. -/
theorem coreIsTheUnitWithDefaultParameters : Obligations.CoreIsTheUnitWithDefaultParameters := by
  unfold Obligations.CoreIsTheUnitWithDefaultParameters
  refine ⟨exec_eq_execOf, fun _ => rfl, step_eq_stepOf, ?_⟩
  rw [core, coreOf, show step = stepOf Config.params from funext step_eq_stepOf]

/-- The word that `withFetchWord` puts at the port is the command word, as a command is 64 bits (`30_encoding.md`
rule R85). -/
theorem withFetchWord_host (s : State) (w : DWord) : (s.withFetchWord 64 w.toNat).host = .command w :: s.host := by
  have hword : BitVec.ofNat 64 (w.toNat % 2 ^ 64) = w := by
    rw [Nat.mod_eq_of_lt w.isLt, BitVec.ofNat_toNat, BitVec.setWidth_eq]
  rw [State.withFetchWord, hword]

/-- Settles O5: the step takes the word from the port and runs what it decodes to. -/
theorem stepRunsTheDecodedCommand : Obligations.StepRunsTheDecodedCommand := by
  unfold Obligations.StepRunsTheDecodedCommand
  exact ⟨fun s cw rest i hs hd => runHostAction_ok hs hd,
    fun s i hd => runHostAction_ok (withFetchWord_host s (encode i)) hd⟩

/-- Settles O6: the two actions that are no command. -/
theorem idleAndResetActions : Obligations.IdleAndResetActions := by
  unfold Obligations.IdleAndResetActions
  exact ⟨fun s hs => runHostAction_idle hs, fun s rest hs => runHostAction_reset hs⟩

end Sys2Proof.Machine

/-! # What a command that succeeds does

One inversion of `execOf`: a command fails through `raise`, or it succeeds by one row of `Succeeds`. The claims about all
commands are case analyses on it. -/

namespace Sys2Proof.Machine

/-- What is known of a command that succeeds in `s`: its DATA and the state before it responds, row by row of
`30_encoding.md` rule R90. A row has the checks that the claims below need; `execOf_answers` ties it to the command. -/
inductive Succeeds (p : Config.Params) (s : State) : Instr → DWord → State → Prop
  | nop : Succeeds p s .nop 0 s
  | sreset : Succeeds p s .sreset 0 (hostReset s)
  | wrreg (reg : Reg) (v : Word) : Succeeds p s (.wrreg reg v) 0 (writeReg reg v s)
  | rdreg (reg : Reg) : Succeeds p s (.rdreg reg) (readReg reg s) s
  | rdconst (index w : Word) : Succeeds p s (.rdconst index) (zextWord w) s
  | wrdims (k : Fin 8) (v : Word) : Succeeds p s (.wrdims k v) 0 (setDim k (sextWord v) s)
  | wrdimu (k : Fin 8) (v : Word) : Succeeds p s (.wrdimu k v) 0 (setDim k (zextWord v) s)
  | wrdimh (k : Fin 8) (v : Word) : Succeeds p s (.wrdimh k v) 0 (setDim k (withUpperHalf v s.dims[k]) s)
  | addmod (m : Modulus) (x : Nat) : Succeeds p s (.addmod m) (zextWord (BitVec.ofNat 32 (x % modulusValue m)))
      (setR (BitVec.ofNat 32 (x % modulusValue m)) s)
  | mulmod (m : Modulus) (x : Nat) : Succeeds p s (.mulmod m) (zextWord (BitVec.ofNat 32 (x % modulusValue m)))
      (setR (BitVec.ofNat 32 (x % modulusValue m)) s)
  | macmod (m : Modulus) (x : Nat) : Succeeds p s (.macmod m) (zextWord (BitVec.ofNat 32 (x % modulusValue m)))
      (setR (BitVec.ofNat 32 (x % modulusValue m)) s)
  | step {lane : Word} {v : StateVec} (h : readLane p lane s = .ok v) :
      Succeeds p s (.step lane) (zextWord (stepVector p v).2)
        (setR (stepVector p v).2 (writeLane lane (stepVector p v).1 s))
  | cvt (dt : Dtype) (x : DWord) : Succeeds p s (.cvt dt) x (setF x s)
  | jump {sel : MatSel} {lane : Word} {v : StateVec} (h : readLane p lane s = .ok v) :
      Succeeds p s (.jump sel lane) 0 (writeLane lane (jumpVector (selectedPair p sel s) v) s)
  | matld {sel : MatSel} (h : sel ≠ .w) : Succeeds p s (.matld sel) 0 (setW (selectedPair p sel s) s)
  | matsqr : Succeeds p s .matsqr 0 (setW (pairMul (s.w1, s.w2) (s.w1, s.w2)) s)
  | matpow2 (k : Word) : Succeeds p s (.matpow2 k) 0 (setW (pairPow2 k.toNat (s.w1, s.w2)) s)
  | matmul {sel : MatSel} (h : sel ≠ .w) :
      Succeeds p s (.matmul sel) 0 (setW (pairMul (selectedPair p sel s) (s.w1, s.w2)) s)
  | matrd (m : Modulus) (index w : Word) : Succeeds p s (.matrd m index) (zextWord w) s
  | seed (h : seedCheck p s = none) :
      Succeeds p s .seed (BitVec.ofNat 64 (s.nstreams.toNat * s.nsub.toNat)) (setLsb (s.lsb.fill (seedVectors p s)) s)
  | ldstate {lane : Word} (hlane : lane.toNat < p.lanesMax) (hv : validState (stagedVector s) = true) :
      Succeeds p s (.ldstate lane) 0 (writeLane lane (stagedVector s) s)
  | rdstate (word : StateWord) (lane w : Word) : Succeeds p s (.rdstate word lane) (zextWord w) s
  | check {n spl : Nat} (h : capacityGuard p s = .ok (n, spl)) :
      Succeeds p s .check (countsData (BitVec.ofNat 32 n) (BitVec.ofNat 32 spl))
        (setCounts (BitVec.ofNat 32 n) (BitVec.ofNat 32 spl) s)
  | generate {dt : Dtype} {n spl : Nat} {vs : List StateVec} (hdt : p.dtypes.contains dt = true)
      (h : capacityGuard p s = .ok (n, spl)) (hvs : s.lsb.readFrom 0 s.lanes.toNat = some vs) :
      Succeeds p s (.generate dt) (countsData (BitVec.ofNat 32 n) (BitVec.ofNat 32 spl))
        (setCounts (BitVec.ofNat 32 n) (BitVec.ofNat 32 spl)
          (setOb ⟨dt, (shapeDims s).map Int.toNat, (sampleRounds p dt spl vs).2.take n⟩
            (setLsb (s.lsb.fill (sampleRounds p dt spl vs).1) s)))

/-- A command fails through the error entry, or succeeds and responds. -/
inductive Answers (p : Config.Params) (s : State) (i : Instr) : Host.Outcome State Fault Refusal → Prop
  | failure (e : Status) (he : e ≠ .ok) : Answers p s i (.next (raise e s))
  | success {d : DWord} {u : State} (h : Succeeds p s i d u) : Answers p s i (.next (respond d u))

section
variable {p : Config.Params} {s : State} {i : Instr}

/-- One check before a command's effect: it fails with a status of its own, or the command succeeds. -/
theorem Answers.ite_failure {c : Prop} [Decidable c] {e : Status} (he : e ≠ .ok) {x : Host.Outcome State Fault Refusal}
    (hx : ¬c → Answers p s i x) : Answers p s i (if c then .next (raise e s) else x) := by
  split
  · exact .failure e he
  · next hc => exact hx hc

/-- The commands that check a lane (`60_exceptions.md` rule R275). -/
theorem Answers.of_readLane {lane : Word} {x : Host.Outcome State Fault Refusal}
    (herror : ∀ e, readLane p lane s = .error e → x = .next (raise e s))
    (hok : ∀ v, readLane p lane s = .ok v → ∃ d u, x = .next (respond d u) ∧ Succeeds p s i d u) :
    Answers p s i x := by
  cases h : readLane p lane s with
  | error e =>
    rw [herror e h]
    exact .failure e (readLane_error_ne_ok h)
  | ok v =>
    obtain ⟨d, u, rfl, hs⟩ := hok v h
    exact .success hs

theorem execSeedOf_answers : Answers p s .seed (execSeedOf p s) := by
  cases h : seedCheck p s with
  | some e =>
    rw [execSeedOf_of_some h]
    exact .failure e (seedCheck_some_ne_ok h)
  | none =>
    rw [execSeedOf_of_none h]
    exact .success (.seed h)

theorem execCheckOf_answers : Answers p s .check (execCheckOf p s) := by
  cases h : capacityGuard p s with
  | error e =>
    rw [execCheckOf_of_error h]
    exact .failure e (capacityGuard_error_ne_ok h)
  | ok counts =>
    rw [execCheckOf_of_ok h]
    exact .success (.check h)

theorem execGenerateOf_answers (dt : Dtype) : Answers p s (.generate dt) (execGenerateOf p dt s) := by
  by_cases hdt : p.dtypes.contains dt = true
  · cases h : capacityGuard p s with
    | error e =>
      rw [execGenerateOf_of_error hdt h]
      exact .failure e (capacityGuard_error_ne_ok h)
    | ok counts =>
      cases hvs : s.lsb.readFrom 0 s.lanes.toNat with
      | none =>
        rw [execGenerateOf_of_unseeded hdt h hvs]
        exact .failure _ (by decide)
      | some vs =>
        rw [execGenerateOf_of_ok hdt h hvs]
        exact .success (.generate hdt h hvs)
  · rw [execGenerateOf, if_neg hdt]
    exact .failure _ (by decide)

theorem execRdconstOf_answers (index : Word) : Answers p s (.rdconst index) (execRdconstOf p index s) := by
  unfold execRdconstOf
  split
  · exact .success (.rdconst index _)
  · exact .failure _ (by decide)

theorem execLdstateOf_answers (lane : Word) : Answers p s (.ldstate lane) (execLdstateOf p lane s) :=
  .ite_failure (by decide) fun hlane => .ite_failure (by decide) fun hv =>
    .success (.ldstate (Nat.not_le.mp hlane) (by simpa using hv))

/-- Every command of every unit in every state fails through `raise`, or succeeds by its row. -/
theorem execOf_answers (p : Config.Params) (i : Instr) (s : State) : Answers p s i (execOf p i s) := by
  cases i with
  | nop => exact .success .nop
  | sreset => exact .success .sreset
  | wrreg reg v =>
    show Answers p s _ (if reg.writable then _ else _)
    split
    · exact .success (.wrreg reg v)
    · exact .failure _ (by decide)
  | rdreg reg => exact .success (.rdreg reg)
  | rdconst index => exact execRdconstOf_answers index
  | wrdims k v => exact .success (.wrdims k v)
  | wrdimu k v => exact .success (.wrdimu k v)
  | wrdimh k v => exact .success (.wrdimh k v)
  | addmod m => exact .ite_failure (by decide) fun _ => .success (.addmod m _)
  | mulmod m => exact .ite_failure (by decide) fun _ => .success (.mulmod m _)
  | macmod m => exact .ite_failure (by decide) fun _ => .success (.macmod m _)
  | step lane =>
    exact .of_readLane (fun _ => execStepOf_of_error) fun _ h => ⟨_, _, execStepOf_of_ok h, .step h⟩
  | cvt dt =>
    show Answers p s _ (if p.dtypes.contains dt then _ else _)
    split
    · exact .success (.cvt dt _)
    · exact .failure _ (by decide)
  | jump sel lane =>
    exact .of_readLane (fun _ => execJumpOf_of_error) fun _ h => ⟨_, _, execJumpOf_of_ok h, .jump h⟩
  | matld sel => exact .ite_failure (by decide) fun h => .success (.matld h)
  | matsqr => exact .success .matsqr
  | matpow2 k => exact .ite_failure (by decide) fun _ => .success (.matpow2 k)
  | matmul sel => exact .ite_failure (by decide) fun h => .success (.matmul h)
  | matrd m index => exact .ite_failure (by decide) fun _ => .success (.matrd m index _)
  | seed => exact execSeedOf_answers
  | ldstate lane => exact execLdstateOf_answers lane
  | rdstate word lane =>
    exact .of_readLane (fun _ => execRdstateOf_of_error) fun _ h => ⟨_, _, execRdstateOf_of_ok h, .rdstate word lane _⟩
  | check => exact execCheckOf_answers
  | generate dt => exact execGenerateOf_answers dt

/-- The inversion of one command. -/
theorem execOf_cases {t : State} (h : execOf p i s = .next t) :
    (∃ e, e ≠ .ok ∧ t = raise e s) ∨ ∃ d u, Succeeds p s i d u ∧ t = respond d u := by
  have ha := execOf_answers p i s
  rw [h] at ha
  cases ha with
  | failure e he => exact .inl ⟨e, he, rfl⟩
  | success hs => exact .inr ⟨_, _, hs, rfl⟩

theorem exists_execOf_eq_next (p : Config.Params) (i : Instr) (s : State) : ∃ t, execOf p i s = .next t := by
  have ha := execOf_answers p i s
  generalize execOf p i s = x at ha
  cases ha <;> exact ⟨_, rfl⟩

/-- The host's further actions are the host's: no command writes them (`10_state.md` rule R42). -/
theorem Succeeds.host_eq {d : DWord} {u : State} (h : Succeeds p s i d u) : u.host = s.host := by
  cases h with
  | wrreg reg v => exact writeReg_host_eq reg v s
  | _ => rfl

/-- DATA of a command with no result (`30_encoding.md` rule R89). -/
theorem Succeeds.data_eq_zero {d : DWord} {u : State} (h : Succeeds p s i d u) (hi : hasNoResult i = true) : d = 0 := by
  cases h with
  | rdreg | rdconst | addmod | mulmod | macmod | step | cvt | matrd | seed | rdstate | check | generate => cases hi
  | _ => rfl

/-- Settles O10: `execOf_answers`, with the host's actions and DATA read off the row. -/
theorem everyCommandResponds : Obligations.EveryCommandResponds := by
  unfold Obligations.EveryCommandResponds
  intro i s
  rw [exec_eq_execOf]
  have ha := execOf_answers Config.params i s
  generalize execOf Config.params i s = x at ha
  cases ha with
  | failure e he => exact ⟨_, ⟨e, 0⟩, rfl, rfl, rfl, fun _ => rfl, fun _ => rfl⟩
  | success hs =>
    exact ⟨_, ⟨.ok, _⟩, rfl, rfl, hs.host_eq, fun hne => absurd rfl hne, hs.data_eq_zero⟩

/-- Settles O12: the answers within a command's row of the table of causes. -/
theorem onlyTabledStatusCodes : Obligations.OnlyTabledStatusCodes := by
  unfold Obligations.OnlyTabledStatusCodes
  intro i s t r hi ht hr
  have hanswer := execOf_answersWithin Config.params s hi
  rw [← exec_eq_execOf, ht] at hanswer
  exact hanswer.status_of_response hr

end

/-! ## One step of the port -/

/-- What one step of a unit does: nothing, a reset, the failure of an illegal word, or one command; the action is taken
from the port first (`20_memory.md` rules R72, R76). -/
theorem stepOf_cases (p : Config.Params) (s : State) :
    stepOf p s = .next s ∨ ∃ rest : List HostAction,
      stepOf p s = .next { State.reset with host := rest } ∨
      stepOf p s = .next (raise .errIllegal { s with host := rest }) ∨
      ∃ i, stepOf p s = execOf p i { s with host := rest } := by
  cases h : s.host with
  | nil => exact .inl (runHostAction_idle h)
  | cons act rest =>
    refine .inr ⟨rest, ?_⟩
    cases act with
    | reset => exact .inl (runHostAction_reset h)
    | command cw =>
      cases hd : decodeOf p cw with
      | error e => exact .inr (.inl (runHostAction_error h hd))
      | ok i => exact .inr (.inr ⟨i, runHostAction_ok h hd⟩)

/-- Every step of every unit completes (`93_implementation_defined.md` part 1). -/
theorem exists_stepOf_eq_next (p : Config.Params) (s : State) : ∃ t, stepOf p s = .next t := by
  obtain h | ⟨rest, h | h | ⟨i, h⟩⟩ := stepOf_cases p s
  · exact ⟨_, h⟩
  · exact ⟨_, h⟩
  · exact ⟨_, h⟩
  · rw [h]
    exact exists_execOf_eq_next p i _

/-- A machine whose every step answers a next state runs for any length. -/
theorem exists_run_eq_next {M : Host.Core} (h : ∀ s, ∃ t, M.step s = .next t) (k : Nat) (s : M.State) :
    ∃ t, M.run k s = .next t := by
  induction k generalizing s with
  | zero => exact ⟨s, rfl⟩
  | succ k ih =>
    obtain ⟨t, ht⟩ := h s
    obtain ⟨u, hu⟩ := ih t
    exact ⟨u, by rw [Host.Core.run, ht]; exact hu⟩

/-- Settles O11: the default core is a machine of which every step completes. -/
theorem everyRunIsSafe : Obligations.EveryRunIsSafe := by
  unfold Obligations.EveryRunIsSafe
  intro s k
  refine exists_run_eq_next (M := core) (fun s => ?_) k s
  obtain ⟨t, ht⟩ := exists_stepOf_eq_next Config.params s
  exact ⟨t, (step_eq_stepOf s).trans ht⟩

/-- An invariant of a unit, in three goals: the host taking an action does not disturb it, the reset state has it, and a
command that fails or succeeds keeps it. -/
theorem invariant_stepOf {p : Config.Params} {Inv : State → Prop}
    (hhost : ∀ s rest, Inv s → Inv { s with host := rest }) (hreset : Inv State.reset)
    (hraise : ∀ e s, e ≠ .ok → Inv s → Inv (raise e s))
    (hsucceed : ∀ i s d u, Inv s → Succeeds p s i d u → Inv (respond d u))
    {s t : State} (hs : Inv s) (ht : stepOf p s = .next t) : Inv t := by
  obtain h | ⟨rest, h | h | ⟨i, h⟩⟩ := stepOf_cases p s
  · obtain rfl := Host.Outcome.next.inj (h.symm.trans ht)
    exact hs
  · obtain rfl := Host.Outcome.next.inj (h.symm.trans ht)
    exact hhost _ rest hreset
  · obtain rfl := Host.Outcome.next.inj (h.symm.trans ht)
    exact hraise _ _ (by decide) (hhost s rest hs)
  · rcases execOf_cases (h.symm.trans ht) with ⟨e, he, rfl⟩ | ⟨d, u, hu, rfl⟩
    · exact hraise e _ he (hhost s rest hs)
    · exact hsucceed i _ d u (hhost s rest hs) hu

end Sys2Proof.Machine

/-! # What every step keeps

Each invariant of `StateOkOf` is one lemma on `Succeeds`, which names the commands that write the field; `raise` and the
port touch none but the status registers. -/

namespace Sys2Proof.Machine

/-! ## An admitted request -/

/-- What the guard has checked where it answers `(n, spl)` (`45_capacity_guard.md` rules R227 to R231). -/
structure Admitted (p : Config.Params) (s : State) (n spl : Nat) : Prop where
  rank_pos : 1 ≤ s.rank.toNat
  rank_le : s.rank.toNat ≤ p.rankMax
  dims_pos : ∀ d ∈ shapeDims s, 0 < d
  lanes_pos : 1 ≤ s.lanes.toNat
  lanes_le : s.lanes.toNat ≤ p.lanesMax
  n_eq : n = ((shapeDims s).map Int.toNat).prod
  n_le : n ≤ p.nMax
  spl_eq : spl = ceilDiv n s.lanes.toNat

theorem admitted_of_capacityGuard {p : Config.Params} {s : State} {n spl : Nat} (hmax : 1 ≤ p.nMax)
    (h : capacityGuard p s = .ok (n, spl)) : Admitted p s n spl := by
  rcases capacityGuard_cases p s with ⟨hg, -⟩ | ⟨hg, -⟩ | ⟨hr, hr', hdims, ⟨hg, -⟩ | ⟨hl, hl', hg⟩⟩
  case inr.inr.inr =>
    rw [hg, runningProduct_eq _ _ _ hdims hmax, Nat.one_mul] at h
    split at h
    · cases h
    · next m hm =>
      obtain ⟨hle, hn⟩ := Option.ite_none_right_eq_some.mp hm
      cases h
      exact ⟨hr, hr', hdims, hl, hl', (Option.some.inj hn).symm, Option.some.inj hn ▸ hle, rfl⟩
  all_goals
    rw [hg] at h
    cases h

/-- The least number of rounds of `l` values that make n (`00_scope.md` rule R9). -/
theorem ceilDiv_le_iff {l : Nat} (hl : 1 ≤ l) {n k : Nat} : ceilDiv n l ≤ k ↔ n ≤ k * l := by
  rw [ceilDiv, ← Nat.ceilDiv_eq_add_pred_div, ceilDiv_le_iff_le_mul hl, Nat.mul_comm]

section
variable {p : Config.Params} {s : State} {n spl : Nat}

/-- The rounds make at least the n values (rule R231). -/
theorem Admitted.count_le (h : Admitted p s n spl) : n ≤ spl * s.lanes.toNat :=
  (ceilDiv_le_iff h.lanes_pos).mp h.spl_eq.ge

theorem Admitted.spl_le (h : Admitted p s n spl) : spl ≤ n :=
  h.spl_eq ▸ (ceilDiv_le_iff h.lanes_pos).mpr (Nat.le_mul_of_pos_right n h.lanes_pos)

theorem Admitted.toNat_n (h : Admitted p s n spl) (hmax : p.nMax < 2 ^ 32) : (BitVec.ofNat 32 n : Word).toNat = n :=
  toNat_ofNat_of_lt (Nat.lt_succ_of_le h.n_le) hmax

theorem Admitted.toNat_spl (h : Admitted p s n spl) (hmax : p.nMax < 2 ^ 32) :
    (BitVec.ofNat 32 spl : Word).toNat = spl :=
  toNat_ofNat_of_lt (Nat.lt_succ_of_le (h.spl_le.trans h.n_le)) hmax

theorem shapeDims_length (h : s.rank.toNat ≤ 8) : (shapeDims s).length = s.rank.toNat := by
  simp [shapeDims, h]

end

/-! ## WRREG writes operands only -/

section
variable (reg : Reg) (v : Word) (s : State)

@[simp] theorem writeReg_r_eq : (writeReg reg v s).r = s.r := by cases reg <;> rfl
@[simp] theorem writeReg_n_eq : (writeReg reg v s).n = s.n := by cases reg <;> rfl
@[simp] theorem writeReg_spl_eq : (writeReg reg v s).spl = s.spl := by cases reg <;> rfl
@[simp] theorem writeReg_w1_eq : (writeReg reg v s).w1 = s.w1 := by cases reg <;> rfl
@[simp] theorem writeReg_w2_eq : (writeReg reg v s).w2 = s.w2 := by cases reg <;> rfl
@[simp] theorem writeReg_lsb_eq : (writeReg reg v s).lsb = s.lsb := by cases reg <;> rfl
@[simp] theorem writeReg_ob_eq : (writeReg reg v s).ob = s.ob := by cases reg <;> rfl

end

/-! ## The invariants of a command that succeeds -/

section
variable {p : Config.Params} {s u : State} {i : Instr} {d : DWord}

/-- A value reduced modulo M1 or M2 is below M1 (`00_scope.md` rule R7). -/
theorem toNat_ofNat_mod_modulusValue_lt (m : Modulus) (x : Nat) :
    (BitVec.ofNat 32 (x % modulusValue m) : Word).toNat < Config.m1 := by
  have hlt := Nat.mod_lt x (modulusValue_pos m)
  have hle : modulusValue m ≤ Config.m1 := by cases m <;> decide
  rw [toNat_ofNat_of_lt hlt (modulusValue_le m)]
  exact hlt.trans_le hle

/-- The range of R (`10_state.md` rule R22). -/
theorem Succeeds.r_lt (h : Succeeds p s i d u) (hs : s.r.toNat < Config.m1) : u.r.toNat < Config.m1 := by
  cases h with
  | sreset => exact Nat.zero_lt_of_lt hs
  | wrreg reg v => rwa [writeReg_r_eq]
  | addmod m x | mulmod m x | macmod m x => exact toNat_ofNat_mod_modulusValue_lt m x
  | step h => exact stepVector_raw_lt p _
  | _ => exact hs

/-- The commands that do not write R leave it (rule R22). -/
theorem Succeeds.r_eq (h : Succeeds p s i d u) (hadd : ∀ m, i ≠ .addmod m) (hmul : ∀ m, i ≠ .mulmod m)
    (hmac : ∀ m, i ≠ .macmod m) (hstep : ∀ l, i ≠ .step l) (hsreset : i ≠ .sreset) : u.r = s.r := by
  cases h with
  | addmod m => exact absurd rfl (hadd m)
  | mulmod m => exact absurd rfl (hmul m)
  | macmod m => exact absurd rfl (hmac m)
  | step h => exact absurd rfl (hstep _)
  | sreset => exact absurd rfl hsreset
  | wrreg reg v => exact writeReg_r_eq reg v s
  | _ => rfl

/-- Only SRESET clears a bit of ESTICKY (rule R30). -/
theorem Succeeds.esticky_bit0 (h : Succeeds p s i d u) (hs : s.esticky.getLsbD 0 = false) :
    u.esticky.getLsbD 0 = false := by
  cases h with
  | sreset => exact BitVec.getLsbD_zero
  | wrreg reg v => rwa [writeReg_esticky_eq]
  | _ => exact hs

/-- W1 and W2 stay one power of A1 and A2, by the exponent laws (`42_jump_ahead.md` rule R167). -/
theorem Succeeds.w_power (hp : p.Admissible) (h : Succeeds p s i d u) (hs : ∃ e, (s.w1, s.w2) = stepPower p e) :
    ∃ e, (u.w1, u.w2) = stepPower p e := by
  obtain ⟨e, he⟩ := hs
  cases h with
  | sreset => exact ⟨0, rfl⟩
  | wrreg reg v => exact ⟨e, by rwa [writeReg_w1_eq, writeReg_w2_eq]⟩
  | matld h => exact ⟨_, selectedPair_eq hp s h⟩
  | matsqr => exact ⟨e + e, by rw [setW_pair, he, pairMul_stepPower]⟩
  | matpow2 k => exact ⟨e * 2 ^ k.toNat, by rw [setW_pair, he, pairPow2_stepPower]⟩
  | matmul h => exact ⟨_, by rw [setW_pair, he, selectedPair_eq hp s h, pairMul_stepPower]⟩
  | _ => exact ⟨e, he⟩

/-- The commands that do not write W leave both working matrices (rule R167). -/
theorem Succeeds.w_eq (h : Succeeds p s i d u) (hld : ∀ sel, i ≠ .matld sel) (hsqr : i ≠ .matsqr)
    (hpow : ∀ k, i ≠ .matpow2 k) (hmul : ∀ sel, i ≠ .matmul sel) (hsreset : i ≠ .sreset) :
    u.w1 = s.w1 ∧ u.w2 = s.w2 := by
  cases h with
  | matld h => exact absurd rfl (hld _)
  | matsqr => exact absurd rfl hsqr
  | matpow2 k => exact absurd rfl (hpow k)
  | matmul h => exact absurd rfl (hmul _)
  | sreset => exact absurd rfl hsreset
  | wrreg reg v => exact ⟨writeReg_w1_eq reg v s, writeReg_w2_eq reg v s⟩
  | _ => exact ⟨rfl, rfl⟩

/-! ## The lane state buffer -/

theorem seedVectors_length_le (h : seedCheck p s = none) : (seedVectors p s).length ≤ p.lanesMax := by
  rw [seedVectors_length]
  rcases seedCheck_cases p s with ⟨hc, -⟩ | ⟨hc, -⟩ | ⟨-, -, -, -, hle⟩
  · cases h.symm.trans hc
  · cases h.symm.trans hc
  · exact hle

theorem sampleRounds_states_length (dt : Dtype) (rounds : Nat) (vs : List StateVec) :
    (sampleRounds p dt rounds vs).1.length = vs.length := by
  rw [sampleRounds_states, List.length_map]

/-- The lanes that a command writes exist, so the buffer stays in its canonical form (`10_state.md` rule R36). -/
theorem Succeeds.lsb_wf (hmax : 1 ≤ p.nMax) (h : Succeeds p s i d u) (hs : s.lsb.wfBelow p.lanesMax) :
    u.lsb.wfBelow p.lanesMax := by
  cases h with
  | sreset => exact Memory.wf_nil
  | wrreg reg v => rwa [writeReg_lsb_eq]
  | step h | jump h => exact Memory.write_wf _ hs ((readLane_eq_ok _ _ _ _).mp h).1
  | ldstate hlane hv => exact Memory.write_wf _ hs hlane
  | seed h => exact Memory.fill_wf hs (seedVectors_length_le h)
  | generate hdt h hvs =>
    have hlen := (readFrom_zero_eq_some.mp hvs).1
    refine Memory.fill_wf hs ?_
    rw [sampleRounds_states_length, hlen]
    exact (admitted_of_capacityGuard hmax h).lanes_le
  | _ => exact hs

/-- A lane that can be read holds one of the listed State Vectors. -/
theorem validState_of_read (hs : ∀ q ∈ s.lsb, validState q.2 = true) {l : Nat} {v : StateVec}
    (h : s.lsb.read l = some v) : validState v = true :=
  hs _ (Memory.mem_of_read h)

theorem validState_of_readLane (hs : ∀ q ∈ s.lsb, validState q.2 = true) {lane : Word} {v : StateVec}
    (h : readLane p lane s = .ok v) : validState v = true :=
  validState_of_read hs ((readLane_eq_ok _ _ _ _).mp h).2

theorem forall_mem_write_valid (hs : ∀ q ∈ s.lsb, validState q.2 = true) {l : Nat} {v : StateVec}
    (hv : validState v = true) : ∀ q ∈ s.lsb.write l v, validState q.2 = true := by
  intro q hq
  rcases Memory.mem_write hq with rfl | hq
  · exact hv
  · exact hs q hq

theorem forall_mem_fill_valid (hs : ∀ q ∈ s.lsb, validState q.2 = true) {vs : List StateVec}
    (hvs : ∀ v ∈ vs, validState v = true) : ∀ q ∈ s.lsb.fill vs, validState q.2 = true := by
  intro q hq
  rcases Memory.mem_fill hq with ⟨-, hq⟩ | ⟨-, hq⟩
  · exact hvs _ hq
  · exact hs q hq

/-- The State Vectors of SEED are derived from a valid seed vector (`43_stream_layout.md` rule R182). -/
theorem forall_mem_seedVectors_valid (hp : p.Admissible) (h : seedCheck p s = none) :
    ∀ v ∈ seedVectors p s, validState v = true := by
  have hroot : validState (seedRoot s.seedw) = true := by
    rcases seedCheck_cases p s with ⟨hc, -⟩ | ⟨hc, -⟩ | ⟨-, hroot, -⟩
    · cases h.symm.trans hc
    · cases h.symm.trans hc
    · exact hroot
  intro v hv
  obtain ⟨l, hl⟩ := List.mem_iff_getElem?.mp hv
  obtain ⟨hlt, -⟩ := List.getElem?_eq_some_iff.mp hl
  obtain ⟨i, j, hi, hj, rfl⟩ := exists_stream_substream (seedVectors_length p s ▸ hlt)
  obtain rfl := Option.some.inj ((seedVectors_getElem? hp hi hj).symm.trans hl)
  exact validState_derivedVector hp i j hroot

/-- The lanes that GENERATE reads hold listed State Vectors, and the rounds keep them valid. -/
theorem forall_mem_sampleRounds_valid (hp : p.Admissible) (hs : ∀ q ∈ s.lsb, validState q.2 = true) (dt : Dtype)
    (rounds : Nat) {vs : List StateVec} (hvs : s.lsb.readFrom 0 s.lanes.toNat = some vs) :
    ∀ v ∈ (sampleRounds p dt rounds vs).1, validState v = true := by
  obtain ⟨hlen, hread⟩ := readFrom_zero_eq_some.mp hvs
  rw [sampleRounds_states]
  intro w hw
  obtain ⟨v, hv, rfl⟩ := List.mem_map.mp hw
  obtain ⟨l, hl⟩ := List.mem_iff_getElem?.mp hv
  obtain ⟨hlt, -⟩ := List.getElem?_eq_some_iff.mp hl
  exact validState_stepMany hp (validState_of_read hs ((hread l (hlen ▸ hlt)).trans hl)) rounds

/-- The State Vector invariant (rule R37), command by command that writes a lane. -/
theorem Succeeds.lanes_valid (hp : p.Admissible) (h : Succeeds p s i d u) (hw : ∃ e, (s.w1, s.w2) = stepPower p e)
    (hs : ∀ q ∈ s.lsb, validState q.2 = true) : ∀ q ∈ u.lsb, validState q.2 = true := by
  cases h with
  | sreset => exact nofun
  | wrreg reg v => rwa [writeReg_lsb_eq]
  | step h =>
    exact forall_mem_write_valid hs (recurrenceKeepsStateVectorsValid p hp _ (validState_of_readLane hs h))
  | jump h =>
    obtain ⟨e, he⟩ := hw
    refine forall_mem_write_valid hs ?_
    rw [selectedPair_eq_stepPower hp he]
    exact validState_jumpVector_stepPower hp _ (validState_of_readLane hs h)
  | ldstate hlane hv => exact forall_mem_write_valid hs hv
  | seed h => exact forall_mem_fill_valid hs (forall_mem_seedVectors_valid hp h)
  | generate hdt h hvs => exact forall_mem_fill_valid hs (forall_mem_sampleRounds_valid hp hs _ _ hvs)
  | _ => exact hs

/-! ## The counts and the output buffer -/

/-- SPL is at most N, and N at most N_MAX (`45_capacity_guard.md` rule R231). -/
theorem Succeeds.counts_le (hp : p.Admissible) (h : Succeeds p s i d u)
    (hs : s.spl.toNat ≤ s.n.toNat ∧ s.n.toNat ≤ p.nMax) : u.spl.toNat ≤ u.n.toNat ∧ u.n.toNat ≤ p.nMax := by
  have hmax : p.nMax < 2 ^ 32 := Nat.lt_of_le_pred (by decide) hp.n_le
  cases h with
  | sreset => exact ⟨Nat.le_refl 0, Nat.zero_le _⟩
  | wrreg reg v => rwa [writeReg_spl_eq, writeReg_n_eq]
  | check h | generate hdt h hvs =>
    have ha := admitted_of_capacityGuard hp.n_pos h
    simp only [setCounts_spl, setCounts_n, ha.toNat_spl hmax, ha.toNat_n hmax]
    exact ⟨ha.spl_le, ha.n_le⟩
  | _ => exact hs

/-- The buffer of an admitted GENERATE is well-formed: as many elements as the product of its dimensions, each a
conversion to its format (rules R40, R211). -/
theorem outBufOkOf_sampleRounds (hp : p.Admissible) (hconv : ConversionAdmissible p) {dt : Dtype} {n spl : Nat}
    {vs : List StateVec} (hdt : p.dtypes.contains dt = true) (ha : Admitted p s n spl)
    (hlen : vs.length = s.lanes.toNat) :
    OutBufOkOf p ⟨dt, (shapeDims s).map Int.toNat, (sampleRounds p dt spl vs).2.take n⟩ := by
  have hrank : ((shapeDims s).map Int.toNat).length = s.rank.toNat := by
    rw [List.length_map, shapeDims_length (hp.rank_eq ▸ ha.rank_le)]
  have hcount : ((sampleRounds p dt spl vs).2.take n).length = n := by
    rw [List.length_take, sampleRounds_length, hlen, Nat.min_eq_left ha.count_le]
  refine ⟨hrank ▸ ha.rank_pos, hrank ▸ ha.rank_le, fun x hx => ?_, hcount.trans ha.n_eq, hcount.trans_le ha.n_le,
    fun x hx => ?_⟩
  · obtain ⟨d, hd, rfl⟩ := List.mem_map.mp hx
    exact Int.lt_toNat.mpr (ha.dims_pos d hd)
  · obtain ⟨z, hz, rfl⟩ := exists_raw_of_mem_sampleRounds (List.mem_of_mem_take hx)
    exact hconv.dtype_eq dt (List.contains_iff_mem.mp hdt) z hz

theorem Succeeds.ob_ok (hp : p.Admissible) (hconv : ConversionAdmissible p) (h : Succeeds p s i d u)
    (hs : ∀ ob, s.ob = some ob → OutBufOkOf p ob) : ∀ ob, u.ob = some ob → OutBufOkOf p ob := by
  cases h with
  | sreset => exact nofun
  | wrreg reg v => rwa [writeReg_ob_eq]
  | generate hdt h hvs =>
    rintro ob hob
    obtain rfl := Option.some.inj hob
    exact outBufOkOf_sampleRounds hp hconv hdt (admitted_of_capacityGuard hp.n_pos h)
      (readFrom_zero_eq_some.mp hvs).1
  | _ => exact hs

end

/-! ## The invariants of a unit -/

section
variable {p : Config.Params}

theorem reset_stateOkOf (p : Config.Params) : StateOkOf p State.reset where
  r_lt := by decide
  status_lt := by decide
  esticky_bit0 := rfl
  lsb_wf := Memory.wf_nil
  lanes_valid := nofun
  w_power := ⟨0, rfl⟩
  counts_le := ⟨Nat.le_refl 0, Nat.zero_le _⟩
  ob_ok := nofun

theorem status_code_lt (e : Status) : e.code.toNat < 8 := by
  cases e <;> decide

theorem StateOkOf.raise {s : State} (h : StateOkOf p s) {e : Status} (he : e ≠ .ok) : StateOkOf p (raise e s) :=
  { h with
    status_lt := status_code_lt e
    esticky_bit0 := (Completes.failure e he).esticky_bit0 h.esticky_bit0 }

theorem StateOkOf.respond_of_succeeds (hp : p.Admissible) (hconv : ConversionAdmissible p) {s u : State} {i : Instr}
    {d : DWord} (hs : StateOkOf p s) (h : Succeeds p s i d u) : StateOkOf p (respond d u) where
  r_lt := h.r_lt hs.r_lt
  status_lt := status_code_lt .ok
  esticky_bit0 := h.esticky_bit0 hs.esticky_bit0
  lsb_wf := h.lsb_wf (u := u) hp.n_pos hs.lsb_wf
  lanes_valid := h.lanes_valid (u := u) hp hs.w_power hs.lanes_valid
  w_power := h.w_power (u := u) hp hs.w_power
  counts_le := h.counts_le (u := u) hp hs.counts_le
  ob_ok := h.ob_ok (u := u) hp hconv hs.ob_ok

theorem StateOkOf.step (hp : p.Admissible) (hconv : ConversionAdmissible p) {s t : State} (hs : StateOkOf p s)
    (ht : stepOf p s = .next t) : StateOkOf p t :=
  invariant_stepOf (fun _ _ h => { h with }) (reset_stateOkOf p) (fun _ _ he h => h.raise he)
    (fun _ _ _ _ h hu => h.respond_of_succeeds hp hconv hu) hs ht

end

/-- Settles O58: the reset state, completion and the step lemma of every admissible unit. -/
theorem everyUnitKeepsItsInvariants : Obligations.EveryUnitKeepsItsInvariants := by
  unfold Obligations.EveryUnitKeepsItsInvariants
  exact fun p hp hconv => ⟨reset_stateOkOf p, exists_stepOf_eq_next p, fun _ _ hs ht => hs.step hp hconv ht⟩

/-- Settles O16: the reset state of the default unit. -/
theorem resetIsStateOk : Obligations.ResetIsStateOk := reset_stateOkOf Config.params

/-- Settles O17: the lanes alone, as `Succeeds.lsb_wf` asks for no other invariant. -/
theorem stepKeepsLaneBufferCanonical : Obligations.StepKeepsLaneBufferCanonical := by
  unfold Obligations.StepKeepsLaneBufferCanonical
  intro s t hs ht
  rw [step_eq_stepOf] at ht
  exact invariant_stepOf (Inv := fun s => s.lsb.wf) (fun _ _ h => h) Memory.wf_nil (fun _ _ _ h => h)
    (fun _ _ _ u h hu => hu.lsb_wf (u := u) (by decide) h) hs ht

/-- Settles O18: the range by `Succeeds.r_lt` over the step, the frame by `Succeeds.r_eq`. -/
theorem resultRegisterStaysBelowM1 : Obligations.ResultRegisterStaysBelowM1 := by
  unfold Obligations.ResultRegisterStaysBelowM1
  refine ⟨fun s t hs ht => ?_, fun i s t ht hadd hmul hmac hstep hsreset => ?_⟩
  · rw [step_eq_stepOf] at ht
    exact invariant_stepOf (Inv := fun s => s.r.toNat < Config.m1) (fun _ _ h => h) (by decide) (fun _ _ _ h => h)
      (fun _ _ _ _ h hu => hu.r_lt h) hs ht
  · rw [exec_eq_execOf] at ht
    rcases execOf_cases ht with ⟨e, -, rfl⟩ | ⟨d, u, hu, rfl⟩
    · rfl
    · exact hu.r_eq hadd hmul hmac hstep hsreset

/-! ## The powers of the one-step matrices -/

/-- Settles O32: a jump by a power is that many Recurrence Steps of a valid State Vector. -/
theorem jumpKeepsStateVectorsValid : Obligations.JumpKeepsStateVectorsValid := by
  unfold Obligations.JumpKeepsStateVectorsValid
  exact fun p hp e v hv => validState_jumpVector_stepPower hp e hv

/-- Settles O38: the exponent laws of the four commands, and the frame of every other one. -/
theorem workingMatrixExponent : Obligations.WorkingMatrixExponent := by
  unfold Obligations.WorkingMatrixExponent
  refine ⟨rfl, fun s e he => ⟨fun sel hsel => ⟨_, execMatld_of_ne_w hsel s, rfl⟩, ⟨_, rfl, ?_⟩, fun k hk =>
    ⟨_, execMatpow2_of_le hk s, ?_⟩, fun sel hsel => ⟨_, execMatmul_of_ne_w hsel s, ?_⟩,
    fun i t ht hld hsqr hpow hmul hsreset => ?_⟩⟩
  · show pairMul (s.w1, s.w2) (s.w1, s.w2) = _
    rw [he, pairMul_stepPower, Nat.two_mul]
  · show pairPow2 k.toNat (s.w1, s.w2) = _
    rw [he, pairPow2_stepPower]
  · show pairMul _ (s.w1, s.w2) = _
    rw [he, pairMul_stepPower, Nat.add_comm]
  · rw [exec_eq_execOf] at ht
    rcases execOf_cases ht with ⟨e, -, rfl⟩ | ⟨d, u, hu, rfl⟩
    · exact ⟨rfl, rfl⟩
    · exact hu.w_eq hld hsqr hpow hmul hsreset

/-- Jumps by one power add up to a jump by its multiple (`42_jump_ahead.md` rule R157). -/
theorem iterate_jumpVector_stepPower {p : Config.Params} (hp : p.Admissible) (e n : Nat) {v : StateVec}
    (hv : validState v = true) : (jumpVector (stepPower p e))^[n] v = stepMany p (n * e) v := by
  induction n with
  | zero => rw [Nat.zero_mul]; rfl
  | succ n ih =>
    rw [Function.iterate_succ_apply', ih, jumpVector_stepPower hp (validState_stepMany hp hv _), ← stepMany_add,
      Nat.succ_mul, Nat.add_comm]

/-- Where a derived vector stands in the sequence of its seed (`43_stream_layout.md` rule R180). -/
theorem derivedVector_eq_stepMany {p : Config.Params} (hp : p.Admissible) (i j : Nat) {root : StateVec}
    (hroot : validState root = true) : derivedVector p i j root = stepMany p (i * 2 ^ 134 + j * 2 ^ 72) root := by
  rw [derivedVector, iterate_jumpVector_stepPower hp _ i hroot,
    iterate_jumpVector_stepPower hp _ j (validState_stepMany hp hroot _), ← stepMany_add, Nat.add_comm]

/-- Settles O40: each lane reads as its derived vector, and the jumps add up. -/
theorem substreamPosition : Obligations.SubstreamPosition := by
  unfold Obligations.SubstreamPosition
  intro s hpos hlt hns hnb hlanes
  have hp := Config.params_admissible
  have hroot := (seedRoot_valid_iff s.seedw).mpr ⟨hpos, hlt⟩
  refine ⟨_, execSeedOf_of_none (seedCheck_eq_none hroot hns hnb hlanes), fun i j hi hj => ?_⟩
  exact (read_fill_seedVectors hp hi hj).trans (congrArg some (derivedVector_eq_stepMany hp i j hroot))

/-- Settles O23: the one addition of M1 that the mathematical mod takes on two terms in range. -/
theorem rawValueOfTwoTerms : Obligations.RawValueOfTwoTerms := by
  unfold Obligations.RawValueOfTwoTerms
  intro nx ny hx hy
  have heq := combine_eq_ite (nx := nx) (ny := ny) hx hy
  have hm : Config.m1 = 4294967087 := rfl
  refine ⟨fun hle => heq.trans (if_pos hle), fun hlt => heq.trans (if_neg (Nat.not_le.mpr hlt)), combine_lt nx ny, ?_⟩
  rw [heq]
  split <;> omega

end Sys2Proof.Machine

/-! # What no command reads

STATUS, ESTICKY, the last response and the host's further actions steer no command: `remark` replaces them, and a
command then passes or fails the same checks. -/

namespace Sys2Proof.Machine

/-- `s` with other values in the fields that no command reads to decide what it does (`10_state.md` rules R34, R41). -/
def State.remark (x y : Byte) (z : Option Response) (h : List HostAction) (s : State) : State :=
  { s with status := x, esticky := y, response := z, host := h }

/-- Two states that differ at most in those fields. -/
def SameButMarks (s t : State) : Prop := t = s.remark t.status t.esticky t.response t.host

section
variable (p : Config.Params) (x y : Byte) (z : Option Response) (h : List HostAction) (s : State)

@[simp] theorem readLane_remark (lane : Word) : readLane p lane (s.remark x y z h) = readLane p lane s := rfl

@[simp] theorem seedCheck_remark : seedCheck p (s.remark x y z h) = seedCheck p s := rfl

@[simp] theorem capacityGuard_remark : capacityGuard p (s.remark x y z h) = capacityGuard p s := rfl

theorem writeReg_remark (reg : Reg) (v : Word) :
    writeReg reg v (s.remark x y z h) = (writeReg reg v s).remark x y z h := by
  cases reg <;> rfl

theorem readReg_remark {reg : Reg} (hstatus : reg ≠ .status) (hesticky : reg ≠ .esticky) :
    readReg reg (s.remark x y z h) = readReg reg s := by
  cases reg with
  | status => exact absurd rfl hstatus
  | esticky => exact absurd rfl hesticky
  | _ => rfl

end

/-- The outcomes of one command in two states: it fails in both with the same status, or it succeeds in both and leaves
states that differ at most in the fields above; DATA differs only where RDREG reads a status register. -/
inductive AnswersAlike (i : Instr) (s s' : State) :
    Host.Outcome State Fault Refusal → Host.Outcome State Fault Refusal → Prop
  | failure (e : Status) (he : e ≠ .ok) : AnswersAlike i s s' (.next (raise e s)) (.next (raise e s'))
  | success {d d' : DWord} {u u' : State} (hu : SameButMarks u u')
      (hd : i ≠ .rdreg .status → i ≠ .rdreg .esticky → d' = d) :
      AnswersAlike i s s' (.next (respond d u)) (.next (respond d' u'))

section
variable {i : Instr} {s s' : State}

/-- The same DATA in both states. -/
theorem AnswersAlike.same {d : DWord} {u u' : State} (hu : SameButMarks u u') :
    AnswersAlike i s s' (.next (respond d u)) (.next (respond d u')) :=
  .success hu fun _ _ => rfl

theorem AnswersAlike.ite {c : Prop} [Decidable c] {a b a' b' : Host.Outcome State Fault Refusal}
    (ha : AnswersAlike i s s' a a') (hb : AnswersAlike i s s' b b') :
    AnswersAlike i s s' (if c then a else b) (if c then a' else b') := by
  split
  · exact ha
  · exact hb

/-- A check that fails the command with a status of its own, or lets it succeed. -/
theorem AnswersAlike.ite_failure {c : Prop} [Decidable c] {e : Status} (he : e ≠ .ok) {d : DWord} {u u' : State}
    (hu : SameButMarks u u') :
    AnswersAlike i s s' (if c then .next (raise e s) else .next (respond d u))
      (if c then .next (raise e s') else .next (respond d u')) :=
  .ite (.failure e he) (.same hu)

end

section
variable (p : Config.Params) (x y : Byte) (z : Option Response) (h : List HostAction) (s : State)

theorem execRdconstOf_alike (index : Word) :
    AnswersAlike (.rdconst index) s (s.remark x y z h) (execRdconstOf p index s)
      (execRdconstOf p index (s.remark x y z h)) := by
  unfold execRdconstOf
  cases romWord p index.toNat with
  | some w => exact .same rfl
  | none => exact .failure _ (by decide)

theorem execStepOf_alike (lane : Word) :
    AnswersAlike (.step lane) s (s.remark x y z h) (execStepOf p lane s) (execStepOf p lane (s.remark x y z h)) := by
  simp only [execStepOf, readLane_remark]
  cases hl : readLane p lane s with
  | error e => exact .failure e (readLane_error_ne_ok hl)
  | ok v => exact .same rfl

theorem execJumpOf_alike (sel : MatSel) (lane : Word) :
    AnswersAlike (.jump sel lane) s (s.remark x y z h) (execJumpOf p sel lane s)
      (execJumpOf p sel lane (s.remark x y z h)) := by
  simp only [execJumpOf, readLane_remark]
  cases hl : readLane p lane s with
  | error e => exact .failure e (readLane_error_ne_ok hl)
  | ok v => exact .same rfl

theorem execRdstateOf_alike (word : StateWord) (lane : Word) :
    AnswersAlike (.rdstate word lane) s (s.remark x y z h) (execRdstateOf p word lane s)
      (execRdstateOf p word lane (s.remark x y z h)) := by
  simp only [execRdstateOf, readLane_remark]
  cases hl : readLane p lane s with
  | error e => exact .failure e (readLane_error_ne_ok hl)
  | ok v => exact .same rfl

theorem execSeedOf_alike :
    AnswersAlike .seed s (s.remark x y z h) (execSeedOf p s) (execSeedOf p (s.remark x y z h)) := by
  simp only [execSeedOf, seedCheck_remark]
  cases hc : seedCheck p s with
  | some e => exact .failure e (seedCheck_some_ne_ok hc)
  | none => exact .same rfl

theorem execCheckOf_alike :
    AnswersAlike .check s (s.remark x y z h) (execCheckOf p s) (execCheckOf p (s.remark x y z h)) := by
  simp only [execCheckOf, capacityGuard_remark]
  cases hg : capacityGuard p s with
  | error e => exact .failure e (capacityGuard_error_ne_ok hg)
  | ok counts => exact .same rfl

theorem execGenerateOf_alike (dt : Dtype) :
    AnswersAlike (.generate dt) s (s.remark x y z h) (execGenerateOf p dt s)
      (execGenerateOf p dt (s.remark x y z h)) := by
  by_cases hdt : p.dtypes.contains dt = true
  · cases hg : capacityGuard p s with
    | error e =>
      rw [execGenerateOf_of_error hdt hg, execGenerateOf_of_error hdt ((capacityGuard_remark p x y z h s).trans hg)]
      exact .failure e (capacityGuard_error_ne_ok hg)
    | ok counts =>
      have hg' := (capacityGuard_remark p x y z h s).trans hg
      cases hvs : s.lsb.readFrom 0 s.lanes.toNat with
      | none =>
        rw [execGenerateOf_of_unseeded hdt hg hvs, execGenerateOf_of_unseeded hdt hg' hvs]
        exact .failure _ (by decide)
      | some vs =>
        rw [execGenerateOf_of_ok hdt hg hvs, execGenerateOf_of_ok hdt hg' hvs]
        exact .same rfl
  · rw [execGenerateOf, execGenerateOf, if_neg hdt, if_neg hdt]
    exact .failure _ (by decide)

/-- Every command of every unit does alike in two states that differ in those fields only. -/
theorem execOf_alike (i : Instr) :
    AnswersAlike i s (s.remark x y z h) (execOf p i s) (execOf p i (s.remark x y z h)) := by
  cases i with
  | nop | sreset | wrdims | wrdimu | wrdimh | matsqr => exact .same rfl
  | wrreg reg v => exact .ite (.same (by rw [writeReg_remark]; rfl)) (.failure _ (by decide))
  | rdreg reg =>
    refine .success rfl fun hstatus hesticky => readReg_remark x y z h s ?_ ?_
    · exact fun hreg => hstatus (congrArg _ hreg)
    · exact fun hreg => hesticky (congrArg _ hreg)
  | rdconst index => exact execRdconstOf_alike p x y z h s index
  | addmod m | mulmod m | macmod m => exact .ite_failure (by decide) rfl
  | step lane => exact execStepOf_alike p x y z h s lane
  | cvt dt => exact .ite (.same rfl) (.failure _ (by decide))
  | jump sel lane => exact execJumpOf_alike p x y z h s sel lane
  | matld sel => exact .ite_failure (by decide) rfl
  | matpow2 k => exact .ite_failure (by decide) rfl
  | matmul sel => exact .ite_failure (by decide) rfl
  | matrd m index => exact .ite_failure (by decide) rfl
  | seed => exact execSeedOf_alike p x y z h s
  | ldstate lane => exact .ite (.failure _ (by decide)) (.ite_failure (by decide) rfl)
  | rdstate word lane => exact execRdstateOf_alike p x y z h s word lane
  | check => exact execCheckOf_alike p x y z h s
  | generate dt => exact execGenerateOf_alike p x y z h s dt

end

/-- The host's further actions stay as they were, whatever the command (`10_state.md` rule R42). -/
theorem execOf_host_eq {p : Config.Params} {i : Instr} {s t : State} (h : execOf p i s = .next t) :
    t.host = s.host := by
  rcases execOf_cases h with ⟨e, -, rfl⟩ | ⟨d, u, hu, rfl⟩
  · rfl
  · exact hu.host_eq

/-- A response overwrites STATUS, so of the fields above only ESTICKY and the response can still differ. -/
theorem SameButMarks.respond_eq {u u' : State} (hu : SameButMarks u u') (hhost : u'.host = u.host) (d d' : DWord) :
    respond d' u' = { respond d u with esticky := u'.esticky, response := some ⟨.ok, d'⟩ } := by
  calc respond d' u'
    _ = respond d' (u.remark u'.status u'.esticky u'.response u'.host) := congrArg _ hu
    _ = { respond d u with esticky := u'.esticky, response := some ⟨.ok, d'⟩ } := by rw [hhost]; rfl

/-- Settles O13: the outcomes are alike, and neither touches the host's actions. -/
theorem statusRegistersSteerNoCommand : Obligations.StatusRegistersSteerNoCommand := by
  unfold Obligations.StatusRegistersSteerNoCommand
  intro i s x y
  show ∃ t u : State, exec i s = .next t ∧ exec i (s.remark x y s.response s.host) = .next u ∧ _
  rw [exec_eq_execOf, exec_eq_execOf]
  have halike := execOf_alike Config.params x y s.response s.host s i
  obtain ⟨t, ht⟩ := exists_execOf_eq_next Config.params i s
  obtain ⟨u, hu⟩ := exists_execOf_eq_next Config.params i (s.remark x y s.response s.host)
  have hhost : u.host = t.host := (execOf_host_eq hu).trans (execOf_host_eq ht).symm
  rw [ht, hu] at halike
  refine ⟨t, u, ht, hu, ?_⟩
  cases halike with
  | failure e he => exact ⟨rfl, rfl, fun _ _ => rfl⟩
  | success hsame hd =>
    refine ⟨hsame.respond_eq hhost _ _, rfl, fun hstatus hesticky => ?_⟩
    rw [respond_response, respond_response, hd hstatus hesticky]

/-- Settles O14: a command that failed fails alike, with the same status and DATA 0. -/
theorem failedCommandFailsAgain : Obligations.FailedCommandFailsAgain := by
  unfold Obligations.FailedCommandFailsAgain
  intro i s t r x y z h ht hr hfail
  show ∃ u : State, exec i (s.remark x y z h) = .next u ∧ u.response = some r
  rw [exec_eq_execOf] at ht ⊢
  have halike := execOf_alike Config.params x y z h s i
  obtain ⟨u, hu⟩ := exists_execOf_eq_next Config.params i (s.remark x y z h)
  rw [ht, hu] at halike
  refine ⟨u, hu, ?_⟩
  cases halike with
  | failure e he => exact hr
  | success hsame hd =>
    obtain rfl := Option.some.inj hr
    exact absurd rfl hfail

end Sys2Proof.Machine

/-! # The guard's verdict

CHECK and GENERATE share the guard, and the guard reads a shape only through its rank, the signs of its dimensions and
their product. -/

namespace Sys2Proof.Machine

theorem requestedDims_length (s : State) : (requestedDims s).length = s.rank.toNat := by
  simp [requestedDims]

section
variable {s s' : State}

/-- A shape is well-formed whatever the order of its dimensions (`45_capacity_guard.md` rule R228). -/
theorem shapeOk_congr (h : (requestedDims s).Perm (requestedDims s')) : shapeOk s ↔ shapeOk s' := by
  have hrank : s.rank.toNat = s'.rank.toNat := by
    rw [← requestedDims_length, ← requestedDims_length, h.length_eq]
  simp only [shapeOk, hrank, h.mem_iff]

theorem requestedCount_congr (h : (requestedDims s).Perm (requestedDims s')) :
    requestedCount s' = requestedCount s :=
  ((h.map Int.toNat).prod_eq).symm

/-- The guard answers the same for every order of the dimensions (rule R230). -/
theorem capacityGuard_congr (h : (requestedDims s).Perm (requestedDims s')) (hlanes : s'.lanes = s.lanes) :
    capacityGuard Config.params s' = capacityGuard Config.params s := by
  have hl : lanesOk s ↔ lanesOk s' := by rw [lanesOk, lanesOk, hlanes]
  by_cases hshape : shapeOk s
  · have hshape' := (shapeOk_congr h).mp hshape
    by_cases hok : lanesOk s
    · rw [capacityGuard_of_lanesOk hshape hok, capacityGuard_of_lanesOk hshape' (hl.mp hok), requestedSpl,
        requestedSpl, requestedCount_congr h, hlanes]
    · rw [capacityGuard_of_not_lanesOk hshape hok, capacityGuard_of_not_lanesOk hshape' (hok ∘ hl.mpr)]
  · rw [capacityGuard_of_not_shapeOk hshape, capacityGuard_of_not_shapeOk (hshape ∘ (shapeOk_congr h).mpr)]

end

/-- CHECK's response is the guard's answer. -/
theorem exists_execCheckOf_response (p : Config.Params) (s : State) :
    ∃ t, execCheckOf p s = .next t ∧ t.response = some (match capacityGuard p s with
      | .error e => ⟨e, 0⟩
      | .ok (n, spl) => ⟨.ok, countsData (BitVec.ofNat 32 n) (BitVec.ofNat 32 spl)⟩) := by
  cases h : capacityGuard p s with
  | error e => exact ⟨_, execCheckOf_of_error h, rfl⟩
  | ok counts => exact ⟨_, execCheckOf_of_ok h, rfl⟩

/-- Settles O44: CHECK answers as the guard does, and the guard does not see the order. -/
theorem guardIgnoresDimensionOrder : Obligations.GuardIgnoresDimensionOrder := by
  unfold Obligations.GuardIgnoresDimensionOrder
  intro s s' t t' hperm hlanes ht ht'
  obtain ⟨v, hv, hresponse⟩ := exists_execCheckOf_response Config.params s
  obtain ⟨v', hv', hresponse'⟩ := exists_execCheckOf_response Config.params s'
  obtain rfl := Host.Outcome.next.inj (hv.symm.trans ht)
  obtain rfl := Host.Outcome.next.inj (hv'.symm.trans ht')
  rw [hresponse, hresponse', capacityGuard_congr hperm hlanes]

/-- A lane below LANES that cannot be read is not seeded. -/
theorem not_lanesSeeded_of_readFrom {s : State} (h : s.lsb.readFrom 0 s.lanes.toNat = none) : ¬ lanesSeeded s :=
  fun hseeded => by
    obtain ⟨vs, hvs⟩ := exists_readFrom_of_lanesSeeded hseeded
    cases h.symm.trans hvs

/-- Settles O45: where the guard passes, GENERATE has one more check, the lanes. -/
theorem checkAndGenerateAgree : Obligations.CheckAndGenerateAgree := by
  unfold Obligations.CheckAndGenerateAgree
  intro dt s t u r q ht hu hr hq
  have hdt := params_dtypes_contains dt
  cases hg : capacityGuard Config.params s with
  | error e =>
    obtain rfl := Host.Outcome.next.inj ((execCheckOf_of_error hg).symm.trans ht)
    obtain rfl := Host.Outcome.next.inj ((execGenerateOf_of_error hdt hg).symm.trans hu)
    cases hr
    cases hq
    exact .inl rfl
  | ok counts =>
    obtain rfl := Host.Outcome.next.inj ((execCheckOf_of_ok hg).symm.trans ht)
    cases hr
    cases hvs : s.lsb.readFrom 0 s.lanes.toNat with
    | none =>
      obtain rfl := Host.Outcome.next.inj ((execGenerateOf_of_unseeded hdt hg hvs).symm.trans hu)
      cases hq
      exact .inr ⟨rfl, rfl, not_lanesSeeded_of_readFrom hvs⟩
    | some vs =>
      obtain rfl := Host.Outcome.next.inj ((execGenerateOf_of_ok hdt hg hvs).symm.trans hu)
      cases hq
      exact .inl rfl

end Sys2Proof.Machine

/-! # GENERATE: schedules, continuation, and the serial reading

All three claims are about a GENERATE that answers OK, whose state is `generated`: its elements are read off the rounds
by index, and its lanes are the old ones advanced. -/

namespace Sys2Proof.Machine

/-! ## A GENERATE that answers OK -/

section
variable {p : Config.Params} {dt : Dtype} {s : State} {n spl : Nat} {vs : List StateVec}

/-- The request of a GENERATE that answered OK, and the lanes it read. -/
theorem admitted_of_response_ok {t : State} {d : DWord} (h : exec (.generate dt) s = .next t)
    (hr : t.response = some ⟨.ok, d⟩) :
    ∃ n spl vs, capacityGuard Config.params s = .ok (n, spl) ∧ Admitted Config.params s n spl ∧
      s.lsb.readFrom 0 s.lanes.toNat = some vs ∧ t = generated Config.params dt n spl vs s := by
  obtain ⟨n, spl, vs, hg, hvs, ht⟩ := eq_generated_of_response_ok (params_dtypes_contains dt) h hr
  exact ⟨n, spl, vs, hg, admitted_of_capacityGuard (by decide) hg, hvs, ht⟩

/-- The count of the guard is the requested one, for a rank the registers can hold (`45_capacity_guard.md` rule
R230). -/
theorem Admitted.n_eq_requestedCount (h : Admitted p s n spl) (hrank : p.rankMax = 8) : n = requestedCount s := by
  rw [h.n_eq, shapeDims_eq s (hrank ▸ h.rank_le)]
  rfl

/-- Element e is the conversion of step e div L of lane e mod L (`44_uniform_sampling.md` rule R203). -/
theorem Admitted.generated_elem (h : Admitted p s n spl) (hvs : s.lsb.readFrom 0 s.lanes.toNat = some vs) {e : Nat}
    (he : e < n) {v : StateVec} (hv : s.lsb.read (e % s.lanes.toNat) = some v) :
    ((sampleRounds p dt spl vs).2.take n)[e]? = some (p.toFloat dt (rawValue p (e / s.lanes.toNat) v).toNat) := by
  obtain ⟨hlen, hread⟩ := readFrom_zero_eq_some.mp hvs
  rw [hread _ (Nat.mod_lt e h.lanes_pos), ← hlen] at hv
  rw [List.getElem?_take_of_lt he, sampleRounds_getElem?_div_mod (hlen ▸ he.trans_le h.count_le) hv, hlen]

theorem exists_read_of_readFrom (h : Admitted p s n spl) (hvs : s.lsb.readFrom 0 s.lanes.toNat = some vs) (e : Nat) :
    ∃ v, s.lsb.read (e % s.lanes.toNat) = some v := by
  obtain ⟨hlen, hread⟩ := readFrom_zero_eq_some.mp hvs
  have hlt := Nat.mod_lt e h.lanes_pos
  exact ⟨_, (hread _ hlt).trans (List.getElem?_eq_getElem (hlen.symm ▸ hlt))⟩

end

/-! ## Serial and parallel agreement -/

/-- Settles O50: both elements are the same step of the same State Vector, as e div L is itself mod 1 and div 1. -/
theorem generateMatchesSerial : Obligations.GenerateMatchesSerial := by
  unfold Obligations.GenerateMatchesSerial
  intro dt s s' t t' ob ob' d d' e ht hr hob he hone hread he' ht' hr' hob'
  obtain ⟨n, spl, vs, -, ha, hvs, rfl⟩ := admitted_of_response_ok ht hr
  obtain ⟨n', spl', vs', -, ha', hvs', rfl⟩ := admitted_of_response_ok ht' hr'
  obtain rfl := Option.some.inj (generated_ob.symm.trans hob)
  obtain rfl := Option.some.inj (generated_ob.symm.trans hob')
  rw [← ha.n_eq_requestedCount rfl] at he
  rw [← ha'.n_eq_requestedCount rfl] at he'
  obtain ⟨v, hv⟩ := exists_read_of_readFrom ha hvs e
  have hv' : s'.lsb.read (e / s.lanes.toNat % s'.lanes.toNat) = some v := by rw [hone, Nat.mod_one, hread, hv]
  rw [ha.generated_elem hvs he hv, ha'.generated_elem hvs' he' hv', hone, Nat.div_one]

/-! ## Continuation -/

/-- The rounds of two GENERATE commands, one after the other. -/
theorem sampleRounds_add (p : Config.Params) (dt : Dtype) (j k : Nat) (vs : List StateVec) :
    sampleRounds p dt (j + k) vs =
      ((sampleRounds p dt k (sampleRounds p dt j vs).1).1,
        (sampleRounds p dt j vs).2 ++ (sampleRounds p dt k (sampleRounds p dt j vs).1).2) := by
  induction j generalizing vs with
  | zero => rw [Nat.zero_add]; rfl
  | succ j ih =>
    rw [Nat.succ_add]
    simp only [sampleRounds, ih, List.append_assoc]

/-- A fill of the same lanes again is the second one alone. -/
theorem Memory.fill_fill (mem : Memory) {us vs : List StateVec} (h : us.length = vs.length) :
    (mem.fill us).fill vs = mem.fill vs := by
  have hnew : (Memory.entriesFrom 0 us).filter (fun q => decide (vs.length ≤ q.1)) = [] := by
    refine List.filter_eq_nil_iff.mpr fun q hq => ?_
    obtain ⟨-, hlt, -⟩ := Memory.mem_entriesFrom hq
    simp only [decide_eq_true_eq]
    omega
  rw [Memory.fill, Memory.fill, Memory.fill, List.filter_append, hnew, List.nil_append, h, List.filter_filter]
  simp

/-- The lanes just filled read back. -/
theorem Memory.readFrom_fill (mem : Memory) {vs : List StateVec} {count : Nat} (h : vs.length = count) :
    (mem.fill vs).readFrom 0 count = some vs := by
  refine (Memory.readFrom_eq_some _ _ _ _).mpr ⟨h, fun l hl => ?_⟩
  rw [Memory.read_fill, Nat.zero_add, if_pos (h.symm ▸ hl)]

theorem ceilDiv_mul {l : Nat} (hl : 1 ≤ l) (k : Nat) : ceilDiv (k * l) l = k :=
  Nat.le_antisymm ((ceilDiv_le_iff hl).mpr (Nat.le_refl _))
    (Nat.le_of_mul_le_mul_right ((ceilDiv_le_iff hl).mp (Nat.le_refl _)) hl)

/-- Where L divides n the rounds make n values and no more, so none is dropped. -/
theorem Admitted.count_eq_of_dvd {p : Config.Params} {s : State} {n spl : Nat} (h : Admitted p s n spl)
    (hdvd : s.lanes.toNat ∣ n) : n = spl * s.lanes.toNat := by
  obtain ⟨k, rfl⟩ := hdvd
  rw [h.spl_eq, Nat.mul_comm, ceilDiv_mul h.lanes_pos]

/-- The guard reads the shape and the lane count (`45_capacity_guard.md` rule R227). -/
theorem capacityGuard_eq_of_shape_eq (p : Config.Params) {s t : State} (hrank : t.rank = s.rank)
    (hdims : t.dims = s.dims) (hlanes : t.lanes = s.lanes) : capacityGuard p t = capacityGuard p s := by
  simp only [capacityGuard, shapeDims, hrank, hdims, hlanes]
  rfl

theorem generated_lanes {p : Config.Params} {dt : Dtype} {s : State} {n spl : Nat} {vs : List StateVec} :
    (generated p dt n spl vs s).lanes = s.lanes := by
  simp [generated]

/-- A second GENERATE of the same request starts from the lanes that the first one left. -/
theorem execGenerateOf_generated {p : Config.Params} {dt : Dtype} {s : State} {n spl : Nat} {vs : List StateVec}
    (hdt : p.dtypes.contains dt = true) (hg : capacityGuard p s = .ok (n, spl)) (hlen : vs.length = s.lanes.toNat) :
    execGenerateOf p dt (generated p dt n spl vs s) =
      .next (generated p dt n spl (sampleRounds p dt spl vs).1 (generated p dt n spl vs s)) := by
  have hguard : capacityGuard p (generated p dt n spl vs s) = capacityGuard p s :=
    capacityGuard_eq_of_shape_eq p (by simp [generated]) (by simp [generated]) generated_lanes
  refine execGenerateOf_of_ok hdt (hguard.trans hg) ?_
  rw [generated_lsb, generated_lanes]
  exact Memory.readFrom_fill s.lsb ((sampleRounds_states_length dt spl vs).trans hlen)

/-- Rounds that make n values and no more drop none of them (`44_uniform_sampling.md` rule R205). -/
theorem take_sampleRounds (p : Config.Params) (dt : Dtype) {n spl : Nat} {vs : List StateVec}
    (h : n = spl * vs.length) : (sampleRounds p dt spl vs).2.take n = (sampleRounds p dt spl vs).2 :=
  List.take_of_length_le ((sampleRounds_length p dt spl vs).trans h.symm).le

/-- Settles O49: the second command has the same request and starts from the lanes the first one left, so its rounds
continue the first one's; twice the count is twice the rounds. -/
theorem generateIsResumable : Obligations.GenerateIsResumable := by
  unfold Obligations.GenerateIsResumable
  intro dt s s' t w a c d d' ht hr hob hdvd hlsb hlanes hcount hw hr' hob'
  obtain ⟨n, spl, vs, hg, ha, hvs, rfl⟩ := admitted_of_response_ok ht hr
  obtain ⟨n', spl', vs', -, ha', hvs', rfl⟩ := admitted_of_response_ok hw hr'
  obtain rfl := Option.some.inj (generated_ob.symm.trans hob)
  obtain rfl := Option.some.inj (generated_ob.symm.trans hob')
  rw [← ha.n_eq_requestedCount rfl] at hdvd hcount
  rw [← ha'.n_eq_requestedCount rfl] at hcount
  rw [hlsb, hlanes] at hvs'
  obtain rfl := Option.some.inj (hvs.symm.trans hvs')
  have hn : n = spl * s.lanes.toNat := ha.count_eq_of_dvd hdvd
  have hspl : spl' = spl + spl := by
    rw [ha'.spl_eq, hcount, hlanes, hn, ← Nat.mul_assoc, ceilDiv_mul ha.lanes_pos, Nat.two_mul]
  obtain ⟨hlen, -⟩ := readFrom_zero_eq_some.mp hvs
  have hlen₁ := sampleRounds_states_length (p := Config.params) dt spl vs
  have hu := execGenerateOf_generated (params_dtypes_contains dt) hg hlen
  rw [← hlen] at hn
  have hn' : n' = (spl + spl) * vs.length := by rw [hcount, hn, ← Nat.mul_assoc, Nat.two_mul]
  refine ⟨_, _, hu, generated_ob, ?_, ?_⟩
  · simp only [hspl, take_sampleRounds _ _ hn', take_sampleRounds _ _ hn,
      take_sampleRounds _ _ (hlen₁.symm ▸ hn)]
    rw [sampleRounds_add]
  · simp only [generated_lsb, hlsb, hspl, sampleRounds_add]
    exact Memory.fill_fill _ (sampleRounds_states_length dt spl _).symm

/-! ## Schedules -/

section
variable {p : Config.Params} {dt : Dtype} {lanes n l : Nat}

/-- The inner loop leaves the State Vector of as many steps. -/
theorem scatterSteps_state (count k : Nat) (v : StateVec) (buf : List (Option Element)) :
    (scatterSteps p dt lanes n l count k v buf).1 = stepMany p count v := by
  induction count generalizing k v buf with
  | zero => rfl
  | succ count ih => exact ih (k + 1) (stepState p v) _

theorem scatterSteps_length (count k : Nat) (v : StateVec) (buf : List (Option Element)) :
    (scatterSteps p dt lanes n l count k v buf).2.length = buf.length := by
  induction count generalizing k v buf with
  | zero => rfl
  | succ count ih =>
    refine (ih (k + 1) _ _).trans ?_
    split
    · exact List.length_set
    · rfl

/-- An element that is none of the lane's own from step k on is left alone. -/
theorem scatterSteps_getElem?_of_ne (count k : Nat) (v : StateVec) (buf : List (Option Element)) {e : Nat}
    (he : ∀ j, k ≤ j → j * lanes + l ≠ e) : (scatterSteps p dt lanes n l count k v buf).2[e]? = buf[e]? := by
  induction count generalizing k v buf with
  | zero => rfl
  | succ count ih =>
    refine (ih (k + 1) _ _ fun j hj => he j (Nat.le_of_succ_le hj)).trans ?_
    split
    · exact List.getElem?_set_ne (he k (Nat.le_refl k))
    · rfl

/-- Step k + j of the lane writes its own element, and no later step writes it again
(`44_uniform_sampling.md` rules R201, R203). -/
theorem scatterSteps_getElem?_own (hlanes : 0 < lanes) {count k j : Nat} (hj : j < count) (v : StateVec)
    {buf : List (Option Element)} (hbuf : buf.length = n) (he : (k + j) * lanes + l < n) :
    (scatterSteps p dt lanes n l count k v buf).2[(k + j) * lanes + l]? =
      some (some (p.toFloat dt (rawValue p j v).toNat)) := by
  induction count generalizing k j v buf with
  | zero => exact absurd hj (Nat.not_lt_zero j)
  | succ count ih =>
    cases j with
    | zero =>
      have hlater : ∀ i, k + 1 ≤ i → i * lanes + l ≠ k * lanes + l := fun i hi => by
        have := Nat.mul_lt_mul_of_pos_right hi hlanes
        omega
      refine (scatterSteps_getElem?_of_ne count (k + 1) _ _ hlater).trans ?_
      rw [Nat.add_zero] at he
      rw [if_pos he]
      exact List.getElem?_set_self (hbuf.symm ▸ he)
    | succ j =>
      have hshift : k + (j + 1) = k + 1 + j := by omega
      rw [hshift] at he ⊢
      refine ih (Nat.lt_of_succ_lt_succ hj) (stepState p v) ?_ he
      split
      · rw [List.length_set, hbuf]
      · exact hbuf

end

/-- The lane state buffer and the output buffer once the lanes `done` have run, for lanes that held `vs` in the buffer
`mem` in canonical form: those lanes have advanced and written their elements, the other lanes are as they were. -/
structure Scattered (p : Config.Params) (dt : Dtype) (n spl : Nat) (mem : Memory) (vs : List StateVec)
    (done : List Nat) (acc : Memory × List (Option Element)) : Prop where
  wf : acc.1.wfBelow p.lanesMax
  length_eq : acc.2.length = n
  read_done : ∀ l ∈ done, acc.1.read l = vs[l]?.map (stepMany p spl)
  read_other : ∀ l, l ∉ done → acc.1.read l = mem.read l
  elem_done : ∀ e, e < n → e % vs.length ∈ done → acc.2[e]? = (sampleRounds p dt spl vs).2[e]?.map some

section
variable {p : Config.Params} {dt : Dtype} {n spl : Nat} {mem : Memory} {vs : List StateVec} {done : List Nat}
  {acc : Memory × List (Option Element)}

/-- One more lane runs. -/
theorem Scattered.scatterLane (h : Scattered p dt n spl mem vs done acc)
    (hread : ∀ l, l < vs.length → mem.read l = vs[l]?) (hmax : vs.length ≤ p.lanesMax) (hn : n ≤ spl * vs.length)
    {l : Nat} (hl : l < vs.length) (hnew : l ∉ done) :
    Scattered p dt n spl mem vs (l :: done) (scatterLane p dt vs.length n spl acc l) := by
  have hv : vs[l]? = some vs[l] := List.getElem?_eq_getElem hl
  have hacc : acc.1.read l = some vs[l] := (h.read_other l hnew).trans ((hread l hl).trans hv)
  have hrun : Machine.scatterLane p dt vs.length n spl acc l =
      (acc.1.write l (stepMany p spl vs[l]), (scatterSteps p dt vs.length n l spl 0 vs[l] acc.2).2) := by
    simp only [Machine.scatterLane, hacc, scatterSteps_state]
  rw [hrun]
  refine ⟨Memory.write_wf _ h.wf (hl.trans_le hmax), (scatterSteps_length _ _ _ _).trans h.length_eq,
    fun l' hl' => ?_, fun l' hl' => ?_, fun e he hmem => ?_⟩
  · rw [Memory.read_write]
    split
    · next heq => rw [← heq, hv]; rfl
    · next hne => exact h.read_done l' (List.mem_of_ne_of_mem (Ne.symm hne) hl')
  · obtain ⟨hne, hl'⟩ := not_or.mp (List.mem_cons.not.mp hl')
    rw [Memory.read_write_other _ _ hne, h.read_other l' hl']
  · have hpos : 0 < vs.length := Nat.zero_lt_of_lt hl
    by_cases hown : e % vs.length = l
    · have hround : e / vs.length < spl := Nat.div_lt_of_lt_mul ((he.trans_le hn).trans_eq (Nat.mul_comm _ _))
      have hsplit : (0 + e / vs.length) * vs.length + l = e := by rw [Nat.zero_add, ← hown, Nat.div_add_mod']
      have hstep := scatterSteps_getElem?_own (p := p) (dt := dt) (l := l) (k := 0) hpos hround vs[l] h.length_eq
        (hsplit.symm ▸ he)
      rw [hsplit] at hstep
      have hlane : vs[e % vs.length]? = some vs[l] := by rw [hown, hv]
      rw [hstep, sampleRounds_getElem?_div_mod (he.trans_le hn) hlane]
      rfl
    · have hother : ∀ j, 0 ≤ j → j * vs.length + l ≠ e := by
        rintro j - rfl
        exact hown (by rw [Nat.mul_add_mod_self_right, Nat.mod_eq_of_lt hl])
      exact (scatterSteps_getElem?_of_ne _ _ _ _ hother).trans
        (h.elem_done e he (List.mem_of_ne_of_mem hown hmem))

/-- The lanes run one after the other, each once. -/
theorem Scattered.foldl (h : Scattered p dt n spl mem vs done acc)
    (hread : ∀ l, l < vs.length → mem.read l = vs[l]?) (hmax : vs.length ≤ p.lanesMax) (hn : n ≤ spl * vs.length)
    {order : List Nat} (hlt : ∀ l ∈ order, l < vs.length) (hnodup : order.Nodup) (hdisj : ∀ l ∈ order, l ∉ done) :
    Scattered p dt n spl mem vs (order.reverse ++ done)
      (order.foldl (Machine.scatterLane p dt vs.length n spl) acc) := by
  induction order generalizing done acc with
  | nil => exact h
  | cons l ls ih =>
    obtain ⟨hl, hnodup⟩ := List.nodup_cons.mp hnodup
    rw [List.reverse_cons, List.append_assoc, List.singleton_append, List.foldl_cons]
    refine ih (h.scatterLane hread hmax hn (hlt l List.mem_cons_self) (hdisj l List.mem_cons_self))
      (fun k hk => hlt k (List.mem_cons_of_mem l hk)) hnodup fun k hk hmem => ?_
    rcases List.mem_cons.mp hmem with rfl | hmem
    · exact hl hk
    · exact hdisj k (List.mem_cons_of_mem l hk) hmem

/-- Nothing has run yet. -/
theorem Scattered.start (hmem : mem.wfBelow p.lanesMax) :
    Scattered p dt n spl mem vs [] (mem, List.replicate n none) :=
  ⟨hmem, List.length_replicate, nofun, fun _ _ => rfl, nofun⟩

/-- Once every lane has run, the buffers are those of the rounds. -/
theorem Scattered.eq_of_forall_mem (h : Scattered p dt n spl mem vs done acc) (hmem : mem.wfBelow p.lanesMax)
    (hmax : vs.length ≤ p.lanesMax) (hpos : 0 < vs.length)
    (hdone : ∀ l, l ∈ done ↔ l < vs.length) :
    acc = (mem.fill (sampleRounds p dt spl vs).1, ((sampleRounds p dt spl vs).2.take n).map some) := by
  refine Prod.ext (Memory.ext h.wf (Memory.fill_wf hmem ?_) fun l => ?_) (List.ext_getElem? fun e => ?_)
  · rwa [sampleRounds_states_length]
  · rw [read_fill_sampleRounds]
    split
    · next hl => exact h.read_done l ((hdone l).mpr hl)
    · next hl => exact h.read_other l (hl ∘ (hdone l).mp)
  · rw [List.getElem?_map]
    by_cases he : e < n
    · rw [List.getElem?_take_of_lt he, h.elem_done e he ((hdone _).mpr (Nat.mod_lt e hpos))]
    · rw [List.getElem?_eq_none (h.length_eq.trans_le (Nat.not_lt.mp he)),
        List.getElem?_eq_none ((List.length_take_le n _).trans (Nat.not_lt.mp he))]
      rfl

end

/-- Settles O48: after any order of all the lanes the buffers are those of the rounds, which GENERATE leaves. -/
theorem generateScheduleInvariance : Obligations.GenerateScheduleInvariance := by
  unfold Obligations.GenerateScheduleInvariance
  intro dt s t ob d order hwf ht hr hob hperm
  obtain ⟨n, spl, vs, -, ha, hvs, rfl⟩ := admitted_of_response_ok ht hr
  obtain rfl := Option.some.inj (generated_ob.symm.trans hob)
  obtain ⟨hlen, hread⟩ := readFrom_zero_eq_some.mp hvs
  have hn := ha.count_le
  have hmax := ha.lanes_le
  have hpos := ha.lanes_pos
  rw [← hlen] at hperm hread hn hmax hpos
  show scatterRun _ dt _ (BitVec.ofNat 32 n).toNat (BitVec.ofNat 32 spl).toNat order s.lsb = _
  rw [ha.toNat_n (by decide), ha.toNat_spl (by decide), ← hlen]
  have hall : ∀ l, l ∈ order ↔ l < vs.length := fun l => hperm.mem_iff.trans List.mem_range
  have hrun := (Scattered.start (dt := dt) (n := n) (spl := spl) (vs := vs) hwf).foldl hread hmax hn
    (fun l hl => (hall l).mp hl) (hperm.nodup_iff.mpr List.nodup_range) (fun _ _ => List.not_mem_nil)
  exact hrun.eq_of_forall_mem hwf hmax hpos fun l => by
    rw [List.append_nil, List.mem_reverse, hall]

end Sys2Proof.Machine

/-! # ToFloat: nearest, monotone, and where it clamps

The finite numbers of a format below 1 lie on a grid of one unit per binade. Rounding is nearest on that grid, and the
clamps keep it nearest among the numbers strictly between 0 and 1; monotonicity follows from nearness alone. -/

namespace Sys2Proof.Machine

/-! ## The number a bit pattern stands for -/

/-- The number of a dyadic. -/
def Dyadic.value (u : Dyadic) : ℚ := u.sig / 2 ^ u.scale

/-- The numbers of a format from 0 to below 1, the subnormal ones with t = −emin included (`41_recurrence_step.md`
rule R137); a significand may have fewer bits than the precision. -/
def OnGrid (fmt : FloatFormat) (q : ℚ) : Prop :=
  ∃ k t : ℕ, 1 ≤ t ∧ t ≤ fmt.eminAbs ∧ k < 2 ^ fmt.precision ∧ q = k / 2 ^ (t + fmt.precision - 1)

theorem two_pow_precision {n : ℕ} (h : 2 ≤ n) : 2 ^ n = 2 * 2 ^ (n - 1) := by
  rw [← pow_succ']
  congr 1
  omega

/-- A pattern whose biased exponent is that of 1 or more stands for 1 or more. -/
theorem one_le_patternMagnitude {fmt : FloatFormat} {e f : ℕ} (he : fmt.bias ≤ e) (hp : 1 ≤ fmt.precision) :
    (1 : ℚ) ≤ ((2 ^ (fmt.precision - 1) + f : ℕ) : ℚ) * 2 ^ e / 2 ^ (fmt.bias + fmt.precision - 1) := by
  rw [one_le_div (by positivity)]
  have hnat : 2 ^ (fmt.bias + fmt.precision - 1) ≤ (2 ^ (fmt.precision - 1) + f) * 2 ^ e :=
    calc 2 ^ (fmt.bias + fmt.precision - 1)
        ≤ 2 ^ (fmt.precision - 1 + e) := Nat.pow_le_pow_right (by decide) (by omega)
      _ = 2 ^ (fmt.precision - 1) * 2 ^ e := pow_add _ _ _
      _ ≤ (2 ^ (fmt.precision - 1) + f) * 2 ^ e := Nat.mul_le_mul_right _ (Nat.le_add_right _ _)
  exact_mod_cast hnat

/-- Every pattern stands for 0 or less, for a number of the grid, or for 1 or more. -/
theorem patternValue_cases (dt : Dtype) (bits : ℕ) :
    patternValue dt bits ≤ 0 ∨ OnGrid (floatFormat dt) (patternValue dt bits) ∨ 1 ≤ patternValue dt bits := by
  obtain ⟨hp, he, hbias⟩ := floatFormat_bounds dt
  have hfrac : fractionField dt bits < 2 ^ ((floatFormat dt).precision - 1) := Nat.mod_lt _ (Nat.two_pow_pos _)
  have hpow := two_pow_precision hp
  unfold patternValue
  generalize floatFormat dt = fmt at *
  by_cases hsign : signField dt bits = 0
  · simp only [if_pos hsign]
    split
    · exact .inr (.inl ⟨fractionField dt bits, fmt.eminAbs, by omega, Nat.le_refl _, by omega, rfl⟩)
    · by_cases hexp : exponentField dt bits < fmt.bias
      · refine .inr (.inl ⟨2 ^ (fmt.precision - 1) + fractionField dt bits, fmt.bias - exponentField dt bits,
          by omega, by omega, by omega, ?_⟩)
        have hsplit : fmt.bias + fmt.precision - 1 =
            fmt.bias - exponentField dt bits + fmt.precision - 1 + exponentField dt bits := by omega
        rw [hsplit, pow_add, mul_div_mul_right _ _ (by positivity)]
      · exact .inr (.inr (one_le_patternMagnitude (Nat.not_lt.mp hexp) (by omega)))
  · simp only [if_neg hsign]
    refine .inl (neg_nonpos.mpr ?_)
    split <;> positivity

/-- The fields of a pattern put together from a biased exponent and a trailing significand. -/
theorem fields_of_exponent_fraction {dt : Dtype} {e f : ℕ} (he : e < 2 ^ exponentBits dt)
    (hf : f < 2 ^ ((floatFormat dt).precision - 1)) :
    exponentField dt (e * 2 ^ ((floatFormat dt).precision - 1) + f) = e ∧
      fractionField dt (e * 2 ^ ((floatFormat dt).precision - 1) + f) = f ∧
      signField dt (e * 2 ^ ((floatFormat dt).precision - 1) + f) = 0 := by
  have hdiv : (e * 2 ^ ((floatFormat dt).precision - 1) + f) / 2 ^ ((floatFormat dt).precision - 1) = e := by
    rw [Nat.mul_comm, Nat.mul_add_div (Nat.two_pow_pos _), Nat.div_eq_of_lt hf, Nat.add_zero]
  exact ⟨by rw [exponentField, hdiv, Nat.mod_eq_of_lt he],
    by rw [fractionField, Nat.mul_add_mod_self_right, Nat.mod_eq_of_lt hf],
    by rw [signField, pow_add, ← Nat.div_div_eq_div_mul, hdiv, Nat.div_eq_of_lt he]⟩

section
variable {dt : Dtype} {m t : ℕ}

/-- The value of a normal pattern (rule R137). -/
theorem patternValue_normal (ht : 1 ≤ t) (ht' : t ≤ (floatFormat dt).eminAbs)
    (hm : 2 ^ ((floatFormat dt).precision - 1) ≤ m) (hm' : m < 2 ^ (floatFormat dt).precision) :
    patternValue dt (((floatFormat dt).bias - t) * 2 ^ ((floatFormat dt).precision - 1)
        + (m - 2 ^ ((floatFormat dt).precision - 1))) = m / 2 ^ (t + (floatFormat dt).precision - 1) := by
  obtain ⟨hp, he, hbias⟩ := floatFormat_bounds dt
  obtain ⟨hfits, -⟩ := pattern_one_fits dt
  have hpow := two_pow_precision hp
  obtain ⟨hexp, hfrac, hsign⟩ := fields_of_exponent_fraction (dt := dt) (e := (floatFormat dt).bias - t)
    (f := m - 2 ^ ((floatFormat dt).precision - 1)) (by omega) (by omega)
  have hsplit : (floatFormat dt).bias + (floatFormat dt).precision - 1 =
      t + (floatFormat dt).precision - 1 + ((floatFormat dt).bias - t) := by omega
  unfold patternValue
  rw [hexp, hfrac, hsign]
  simp only [if_true, if_neg (show (floatFormat dt).bias - t ≠ 0 by omega)]
  rw [Nat.add_sub_cancel' hm, hsplit, pow_add, mul_div_mul_right _ _ (by positivity)]

/-- The value of a pattern below the normal range (rule R137). -/
theorem patternValue_subnormal (hm : m < 2 ^ ((floatFormat dt).precision - 1)) :
    patternValue dt m = m / 2 ^ ((floatFormat dt).eminAbs + (floatFormat dt).precision - 1) := by
  have hfields := fields_of_exponent_fraction (dt := dt) (Nat.two_pow_pos _) hm
  rw [Nat.zero_mul, Nat.zero_add] at hfields
  obtain ⟨hexp, hfrac, hsign⟩ := hfields
  unfold patternValue
  rw [hexp, hfrac, hsign]
  simp only [if_true]

end

/-- A dyadic that the format represents: a significand of full precision in one binade, or one below the normal range
(rule R137). -/
inductive Dyadic.Representable (fmt : FloatFormat) (u : Dyadic) : Prop
  | normal (t m : ℕ) (ht : 1 ≤ t) (ht' : t ≤ fmt.eminAbs) (hm : 2 ^ (fmt.precision - 1) ≤ m)
      (hm' : m < 2 ^ fmt.precision) (heq : u.sig * 2 ^ (t + fmt.precision - 1) = m * 2 ^ u.scale)
  | subnormal (m : ℕ) (hm : m < 2 ^ (fmt.precision - 1))
      (heq : u.sig * 2 ^ (fmt.eminAbs + fmt.precision - 1) = m * 2 ^ u.scale)

theorem Dyadic.value_eq_div {u : Dyadic} {m n : ℕ} (h : u.sig * 2 ^ n = m * 2 ^ u.scale) :
    u.value = m / 2 ^ n := by
  rw [Dyadic.value, div_eq_div_iff (by positivity) (by positivity)]
  exact_mod_cast h

/-- The bit pattern of a representable number stands for it (rule R137). -/
theorem patternValue_floatBits {dt : Dtype} {u : Dyadic} (h : u.Representable (floatFormat dt)) :
    patternValue dt (floatBits (floatFormat dt) u) = u.value := by
  obtain ⟨hp, -, -⟩ := floatFormat_bounds dt
  cases h with
  | normal t m ht ht' hm hm' heq =>
    rw [floatBits_normal _ (by omega) u ht ht' hm hm' heq, patternValue_normal ht ht' hm hm', Dyadic.value_eq_div heq]
  | subnormal m hm heq =>
    rw [floatBits_subnormal _ (by omega) u hm heq, patternValue_subnormal hm, Dyadic.value_eq_div heq]

/-! ## Rounding is nearest on the grid -/

section
variable {fmt : FloatFormat} {num den : ℕ}

/-- No multiple of the unit in the last place is nearer than the rounded number (rule R136). -/
theorem roundNearestEven_nearest_multiple (hden : 0 < den) (k : ℕ) :
    |(roundNearestEven fmt num den).value - num / den| ≤
      |(k : ℚ) / 2 ^ (binade fmt num den + fmt.precision - 1) - num / den| := by
  have hnear := roundHalfEven_nearest (num * 2 ^ (binade fmt num den + fmt.precision - 1)) k hden
  rw [Dyadic.value, roundNearestEven]
  dsimp only
  generalize roundHalfEven (num * 2 ^ (binade fmt num den + fmt.precision - 1)) den = r at *
  generalize binade fmt num den + fmt.precision - 1 = n at *
  have hscale : (0 : ℚ) < den * 2 ^ n := by positivity
  have hdist : ∀ j : ℕ, |(j : ℚ) / 2 ^ n - num / den| = |(j * den : ℚ) - num * 2 ^ n| / (den * 2 ^ n) := fun j => by
    have hfrac : (j : ℚ) / 2 ^ n - num / den = (j * den - num * 2 ^ n) / (den * 2 ^ n) := by field_simp
    rw [hfrac, abs_div, abs_of_pos hscale]
  rw [hdist, hdist]
  refine (div_le_div_iff_of_pos_right hscale).mpr ?_
  exact_mod_cast hnear

/-- A larger binade's numbers are multiples of the unit, and a smaller one's lie below the power of 2 that starts the
binade, which is a multiple too. -/
theorem roundNearestEven_nearest_grid (he : 2 ≤ fmt.eminAbs) (hp : 2 ≤ fmt.precision) (h : num < den) {q : ℚ}
    (hq : OnGrid fmt q) : |(roundNearestEven fmt num den).value - num / den| ≤ |q - num / den| := by
  obtain ⟨k, t, ht, ht', hk, rfl⟩ := hq
  obtain ⟨-, hle, -, hnormal⟩ := binade_spec fmt he h
  have hden : 0 < den := Nat.zero_lt_of_lt h
  by_cases hbinade : t ≤ binade fmt num den
  · refine (roundNearestEven_nearest_multiple hden (k * 2 ^ (binade fmt num den - t))).trans_eq ?_
    have hsplit : binade fmt num den + fmt.precision - 1 =
        t + fmt.precision - 1 + (binade fmt num den - t) := by omega
    rw [hsplit, pow_add, Nat.cast_mul, Nat.cast_pow, Nat.cast_ofNat, mul_div_mul_right _ _ (by positivity)]
  · have hlow : den ≤ num * 2 ^ binade fmt num den := by
      rcases hnormal with hlow | ⟨hmax, -⟩
      · exact hlow
      · omega
    refine (roundNearestEven_nearest_multiple hden (2 ^ (fmt.precision - 1))).trans ?_
    have hstart : ((2 ^ (fmt.precision - 1) : ℕ) : ℚ) / 2 ^ (binade fmt num den + fmt.precision - 1) =
        1 / 2 ^ binade fmt num den := by
      have hsplit : binade fmt num den + fmt.precision - 1 = binade fmt num den + (fmt.precision - 1) := by omega
      rw [hsplit, pow_add, Nat.cast_pow, Nat.cast_ofNat, div_eq_div_iff (by positivity) (by positivity)]
      ring
    have hx : (1 : ℚ) / 2 ^ binade fmt num den ≤ num / den := by
      rw [div_le_div_iff₀ (by positivity) (by exact_mod_cast hden), one_mul]
      exact_mod_cast hlow
    have hq : (k : ℚ) / 2 ^ (t + fmt.precision - 1) ≤ 1 / 2 ^ binade fmt num den := by
      rw [div_le_div_iff₀ (by positivity) (by positivity), one_mul]
      have hnat : k * 2 ^ binade fmt num den ≤ 2 ^ (t + fmt.precision - 1) :=
        calc k * 2 ^ binade fmt num den
            ≤ 2 ^ fmt.precision * 2 ^ binade fmt num den := Nat.mul_le_mul_right _ (Nat.le_of_lt hk)
          _ = 2 ^ (fmt.precision + binade fmt num den) := (pow_add _ _ _).symm
          _ ≤ 2 ^ (t + fmt.precision - 1) := Nat.pow_le_pow_right (by decide) (by omega)
      exact_mod_cast hnat
    rw [hstart, abs_sub_comm, abs_of_nonneg (sub_nonneg.mpr hx), abs_sub_comm,
      abs_of_nonneg (sub_nonneg.mpr (hq.trans hx))]
    exact sub_le_sub_left hq _

/-- Numbers from 0 down and from 1 up are no nearer than 0 and 1, which are multiples of the unit. -/
theorem roundNearestEven_nearest (he : 2 ≤ fmt.eminAbs) (hp : 2 ≤ fmt.precision) (h : num < den) {q : ℚ}
    (hq : q ≤ 0 ∨ OnGrid fmt q ∨ 1 ≤ q) :
    |(roundNearestEven fmt num den).value - num / den| ≤ |q - num / den| := by
  have hden : 0 < den := Nat.zero_lt_of_lt h
  have hx0 : (0 : ℚ) ≤ num / den := by positivity
  have hx1 : (num : ℚ) / den ≤ 1 := by
    rw [div_le_one (by exact_mod_cast hden)]
    exact_mod_cast h.le
  rcases hq with hq | hq | hq
  · refine (roundNearestEven_nearest_multiple hden 0).trans ?_
    rw [Nat.cast_zero, zero_div, abs_sub_comm, abs_of_nonneg (sub_nonneg.mpr hx0), abs_sub_comm,
      abs_of_nonneg (sub_nonneg.mpr (hq.trans hx0))]
    exact sub_le_sub_left hq _
  · exact roundNearestEven_nearest_grid he hp h hq
  · refine (roundNearestEven_nearest_multiple hden (2 ^ (binade fmt num den + fmt.precision - 1))).trans ?_
    rw [Nat.cast_pow, Nat.cast_ofNat, div_self (by positivity), abs_of_nonneg (sub_nonneg.mpr hx1),
      abs_of_nonneg (sub_nonneg.mpr (hx1.trans hq))]
    exact sub_le_sub_right hq _

/-! ## The clamps -/

/-- The smallest positive number of the format. -/
def FloatFormat.smallest (fmt : FloatFormat) : ℚ := 1 / 2 ^ (fmt.eminAbs + fmt.precision - 1)

/-- The largest number of the format below 1. -/
def FloatFormat.largest (fmt : FloatFormat) : ℚ := ((2 ^ fmt.precision - 1 : ℕ) : ℚ) / 2 ^ fmt.precision

theorem smallest_pos (fmt : FloatFormat) : 0 < fmt.smallest := by
  unfold FloatFormat.smallest
  positivity

theorem largest_lt_one (fmt : FloatFormat) : fmt.largest < 1 := by
  have hpos : 0 < 2 ^ fmt.precision := Nat.two_pow_pos _
  rw [FloatFormat.largest, div_lt_one (by positivity)]
  exact_mod_cast (show 2 ^ fmt.precision - 1 < 2 ^ fmt.precision by omega)

theorem onGrid_smallest (he : 2 ≤ fmt.eminAbs) (hp : 2 ≤ fmt.precision) : OnGrid fmt fmt.smallest :=
  ⟨1, fmt.eminAbs, by omega, Nat.le_refl _, Nat.one_lt_two_pow (by omega), by rw [FloatFormat.smallest, Nat.cast_one]⟩

theorem onGrid_largest (he : 2 ≤ fmt.eminAbs) : OnGrid fmt fmt.largest := by
  have hpos : 0 < 2 ^ fmt.precision := Nat.two_pow_pos _
  exact ⟨2 ^ fmt.precision - 1, 1, Nat.le_refl 1, by omega, by omega, by
    rw [Nat.add_sub_cancel_left, FloatFormat.largest]⟩

theorem smallest_le_of_onGrid {q : ℚ} (hq : OnGrid fmt q) (hpos : 0 < q) : fmt.smallest ≤ q := by
  obtain ⟨k, t, ht, ht', hk, rfl⟩ := hq
  have hk0 : 1 ≤ k := Nat.one_le_iff_ne_zero.mpr fun h => by simp [h] at hpos
  rw [FloatFormat.smallest, div_le_div_iff₀ (by positivity) (by positivity), one_mul]
  have hnat : 2 ^ (t + fmt.precision - 1) ≤ k * 2 ^ (fmt.eminAbs + fmt.precision - 1) :=
    (Nat.pow_le_pow_right (by decide) (by omega)).trans (Nat.le_mul_of_pos_left _ hk0)
  exact_mod_cast hnat

theorem le_largest_of_onGrid {q : ℚ} (hq : OnGrid fmt q) : q ≤ fmt.largest := by
  obtain ⟨k, t, ht, ht', hk, rfl⟩ := hq
  rw [FloatFormat.largest]
  refine div_le_div₀ (by positivity) ?_ (by positivity) ?_
  · exact_mod_cast Nat.le_pred_of_lt hk
  · exact pow_le_pow_right₀ (by norm_num) (by omega)

/-- A number rounds to 0 only from the smallest one down. -/
theorem le_smallest_of_rounds_to_zero (he : 2 ≤ fmt.eminAbs) (hp : 2 ≤ fmt.precision) (h : num < den)
    (hsig : (roundNearestEven fmt num den).sig = 0) : (num : ℚ) / den ≤ fmt.smallest := by
  have hnear := roundNearestEven_nearest_grid he hp h (onGrid_smallest he hp)
  have hx0 : (0 : ℚ) ≤ num / den := by positivity
  have hpos := smallest_pos fmt
  rw [Dyadic.value, hsig, Nat.cast_zero, zero_div, zero_sub, abs_neg, abs_of_nonneg hx0] at hnear
  by_contra hlt
  rw [abs_sub_comm, abs_of_pos (sub_pos.mpr (not_le.mp hlt))] at hnear
  linarith

/-- A number rounds to 1 only from the largest one below 1 up. -/
theorem largest_le_of_rounds_to_one (he : 2 ≤ fmt.eminAbs) (hp : 2 ≤ fmt.precision) (h : num < den)
    (hsig : (roundNearestEven fmt num den).sig = 2 ^ (roundNearestEven fmt num den).scale) :
    fmt.largest ≤ (num : ℚ) / den := by
  have hnear := roundNearestEven_nearest_grid he hp h (onGrid_largest he)
  have hlt1 := largest_lt_one fmt
  have hx1 : (num : ℚ) / den ≤ 1 := by
    rw [div_le_one (by exact_mod_cast Nat.zero_lt_of_lt h)]
    exact_mod_cast h.le
  rw [Dyadic.value, hsig, Nat.cast_pow, Nat.cast_ofNat, div_self (by positivity),
    abs_of_nonneg (sub_nonneg.mpr hx1)] at hnear
  by_contra hlt
  rw [abs_of_pos (sub_pos.mpr (not_le.mp hlt))] at hnear
  linarith

/-- The three results of the clamps: the smallest number after 0, the largest after 1, and the rounded one
(rule R136). -/
theorem clampOpen_cases (fmt : FloatFormat) (u : Dyadic) :
    (u.sig = 0 ∧ clampOpen fmt u = ⟨1, fmt.eminAbs + fmt.precision - 1⟩) ∨
    (u.sig ≠ 0 ∧ u.sig = 2 ^ u.scale ∧ clampOpen fmt u = ⟨2 ^ fmt.precision - 1, fmt.precision⟩) ∨
    (u.sig ≠ 0 ∧ u.sig ≠ 2 ^ u.scale ∧ clampOpen fmt u = u) := by
  unfold clampOpen
  by_cases h0 : u.sig = 0
  · exact .inl ⟨h0, if_pos h0⟩
  · by_cases h1 : u.sig = 2 ^ u.scale
    · exact .inr (.inl ⟨h0, h1, (if_neg h0).trans (if_pos h1)⟩)
    · exact .inr (.inr ⟨h0, h1, (if_neg h0).trans (if_neg h1)⟩)

/-- The clamped number is nearest among the numbers of the grid above 0. -/
theorem clampOpen_nearest (he : 2 ≤ fmt.eminAbs) (hp : 2 ≤ fmt.precision) (h : num < den) {q : ℚ}
    (hq : OnGrid fmt q) (hpos : 0 < q) :
    |(clampOpen fmt (roundNearestEven fmt num den)).value - num / den| ≤ |q - num / den| := by
  rcases clampOpen_cases fmt (roundNearestEven fmt num den) with ⟨h0, hc⟩ | ⟨-, h1, hc⟩ | ⟨-, -, hc⟩
  · have hx := le_smallest_of_rounds_to_zero he hp h h0
    have hqm := smallest_le_of_onGrid hq hpos
    have hvalue : (clampOpen fmt (roundNearestEven fmt num den)).value = fmt.smallest := by
      rw [hc, Dyadic.value, FloatFormat.smallest, Nat.cast_one]
    rw [hvalue, abs_of_nonneg (sub_nonneg.mpr hx), abs_of_nonneg (sub_nonneg.mpr (hx.trans hqm))]
    exact sub_le_sub_right hqm _
  · have hx := largest_le_of_rounds_to_one he hp h h1
    have hqm := le_largest_of_onGrid hq
    have hvalue : (clampOpen fmt (roundNearestEven fmt num den)).value = fmt.largest := by
      rw [hc, Dyadic.value, FloatFormat.largest]
    rw [hvalue, abs_sub_comm, abs_of_nonneg (sub_nonneg.mpr hx), abs_sub_comm,
      abs_of_nonneg (sub_nonneg.mpr (hqm.trans hx))]
    exact sub_le_sub_left hqm _
  · rw [hc]
    exact roundNearestEven_nearest_grid he hp h hq

/-- The rounded number has full precision in its binade, or starts the binade above, or lies below the normal range;
both clamps lie in the format. -/
theorem clampOpen_representable (he : 2 ≤ fmt.eminAbs) (hp : 2 ≤ fmt.precision) (h : num < den) :
    (clampOpen fmt (roundNearestEven fmt num den)).Representable fmt := by
  have hpow := two_pow_precision hp
  have hunit : 2 ≤ 2 ^ (fmt.precision - 1) := Nat.le_self_pow (by omega) 2
  obtain ⟨ht, ht', -, hnormal⟩ := binade_spec fmt he h
  obtain ⟨hsig, hsig'⟩ := roundNearestEven_sig fmt he hp h
  have hscale : (roundNearestEven fmt num den).scale = binade fmt num den + fmt.precision - 1 := rfl
  rcases clampOpen_cases fmt (roundNearestEven fmt num den) with ⟨-, hc⟩ | ⟨-, -, hc⟩ | ⟨-, h1, hc⟩
  · rw [hc]
    exact .subnormal 1 (by omega) rfl
  · rw [hc]
    exact .normal 1 (2 ^ fmt.precision - 1) (Nat.le_refl 1) (by omega) (by omega) (by omega)
      (by rw [Nat.add_sub_cancel_left])
  · rw [hc]
    generalize roundNearestEven fmt num den = u at *
    generalize binade fmt num den = t at *
    rcases Nat.lt_or_ge u.sig (2 ^ (fmt.precision - 1)) with hlow | hhigh
    · obtain ⟨rfl, -⟩ := hnormal.resolve_left fun hd => absurd (hsig' hd) (Nat.not_le.mpr hlow)
      exact .subnormal u.sig hlow (by rw [hscale])
    · rcases Nat.lt_or_ge u.sig (2 ^ fmt.precision) with hlt | hge
      · exact .normal t u.sig ht ht' hhigh hlt (by rw [hscale])
      · have heq : u.sig = 2 ^ fmt.precision := Nat.le_antisymm hsig hge
        have ht1 : t ≠ 1 := by
          rintro rfl
          exact h1 (by rw [heq, hscale, Nat.add_sub_cancel_left])
        have hshift : t + fmt.precision - 1 = t - 1 + fmt.precision - 1 + 1 := by omega
        refine .normal (t - 1) (2 ^ (fmt.precision - 1)) (by omega) (by omega) (Nat.le_refl _) (by omega) ?_
        rw [heq, hpow, hscale, hshift, pow_succ]
        ring

end

/-! ## The default conversion -/

section
variable {dt : Dtype} {z : ℕ}

theorem max_one_lt (hz : z < Config.m1) : max z 1 < Config.m1 := max_lt hz m1_bounds.1

/-- ToFloat takes 0 as 1 (rule R136). -/
theorem toFloatBits_eq (fmt : FloatFormat) (z : ℕ) :
    toFloatBits fmt z = floatBits fmt (clampOpen fmt (roundNearestEven fmt (max z 1) Config.m1)) := by
  have hnum : (if z = 0 then 1 else z) = max z 1 := by split <;> omega
  rw [toFloatBits, hnum]

/-- The element of a conversion stands for the clamped number. -/
theorem elementValue_toFloat (dt : Dtype) (hz : z < Config.m1) :
    elementValue (toFloat dt z) =
      (clampOpen (floatFormat dt) (roundNearestEven (floatFormat dt) (max z 1) Config.m1)).value := by
  obtain ⟨hp, he, -⟩ := floatFormat_bounds dt
  rw [elementValue, elementDtype_toFloat, elementBits_toFloat dt hz, toFloatBits_eq]
  exact patternValue_floatBits (clampOpen_representable he hp (max_one_lt hz))

/-- No number of the format strictly between 0 and 1 is nearer (rules R135, R136). -/
theorem toFloat_nearest (dt : Dtype) (hz : z < Config.m1) {bits : ℕ} (h0 : 0 < patternValue dt bits)
    (h1 : patternValue dt bits < 1) :
    |elementValue (toFloat dt z) - (max z 1 : ℕ) / Config.m1| ≤
      |patternValue dt bits - (max z 1 : ℕ) / Config.m1| := by
  obtain ⟨hp, he, -⟩ := floatFormat_bounds dt
  rw [elementValue_toFloat dt hz]
  rcases patternValue_cases dt bits with hneg | hgrid | hone
  · exact absurd h0 (not_lt.mpr hneg)
  · exact clampOpen_nearest he hp (max_one_lt hz) hgrid h0
  · exact absurd h1 (not_lt.mpr hone)

end

/-- Settles O26: the format and the open interval of the default conversion, and `toFloat_nearest`. -/
theorem toFloatIsNearestInOpenInterval : Obligations.ToFloatIsNearestInOpenInterval := by
  unfold Obligations.ToFloatIsNearestInOpenInterval
  exact fun dt z hz => ⟨elementDtype_toFloat dt z, toFloat_inOpenInterval dt hz, fun bits _ _ h0 h1 =>
    toFloat_nearest dt hz h0 h1⟩

/-! ## Monotonicity -/

/-- Nearest points keep the order: of two points, each at least as near to its own target as the other point is, the
one with the smaller target is not the larger. -/
theorem le_of_nearest {x x' a a' : ℚ} (hx : x < x') (h : |a - x| ≤ |a' - x|) (h' : |a' - x'| ≤ |a - x'|) :
    a ≤ a' := by
  by_contra hlt
  have hgap : 0 < a - a' := sub_pos.mpr (not_le.mp hlt)
  have hsq := sq_le_sq.mpr h
  have hsq' := sq_le_sq.mpr h'
  have hlow : (a - a') * (a + a' - 2 * x) ≤ 0 := by linarith
  have hhigh : 0 ≤ (a - a') * (a + a' - 2 * x') := by linarith
  have hlow' := nonpos_of_mul_nonpos_right hlow hgap
  have hhigh' := nonneg_of_mul_nonneg_right hhigh hgap
  linarith

/-- The value of a conversion is the value of a pattern of its format. -/
theorem patternValue_elementBits (dt : Dtype) (z : ℕ) :
    patternValue dt (elementBits (toFloat dt z)) = elementValue (toFloat dt z) := by
  rw [elementValue, elementDtype_toFloat]

/-- Property P3 of rule R135: each result is nearest to its own raw value. -/
theorem elementValue_toFloat_mono (dt : Dtype) {z z' : ℕ} (hle : z ≤ z') (hz' : z' < Config.m1) :
    elementValue (toFloat dt z) ≤ elementValue (toFloat dt z') := by
  have hz := hle.trans_lt hz'
  rcases (max_le_max_right 1 hle).eq_or_lt with heq | hlt
  · rw [elementValue_toFloat dt hz, elementValue_toFloat dt hz', heq]
  · have hx : ((max z 1 : ℕ) : ℚ) / Config.m1 < (max z' 1 : ℕ) / Config.m1 := by
      refine (div_lt_div_iff_of_pos_right (Nat.cast_pos.mpr (by decide))).mpr ?_
      exact_mod_cast hlt
    obtain ⟨-, hpos, hone⟩ := toFloat_inOpenInterval dt hz
    obtain ⟨-, hpos', hone'⟩ := toFloat_inOpenInterval dt hz'
    rw [← patternValue_elementBits] at hpos hone hpos' hone'
    have hnear := toFloat_nearest dt hz hpos' hone'
    have hnear' := toFloat_nearest dt hz' hpos hone
    rw [patternValue_elementBits] at hnear hnear'
    exact le_of_nearest hx hnear hnear'

/-- Settles O27: monotone as each result is nearest, and 0 is taken as 1. -/
theorem toFloatIsMonotone : Obligations.ToFloatIsMonotone := by
  unfold Obligations.ToFloatIsMonotone
  exact ⟨fun dt z z' hle hz' => elementValue_toFloat_mono dt hle hz', fun dt => by
    simp only [toFloat, toFloatBits_zero]⟩

end Sys2Proof.Machine

/-! # ToFloat: the ranges of the clamps, and the default parameters -/

namespace Sys2Proof.Machine

/-! ## The ranges of the clamps -/

/-- An integer less than half a unit from the number is its rounding. -/
theorem roundHalfEven_eq_of_close {num den k : ℕ} (h1 : 2 * num < 2 * (k * den) + den)
    (h2 : 2 * (k * den) < 2 * num + den) : roundHalfEven num den = k := by
  have hden : 0 < den := by omega
  obtain ⟨hlow, hhigh⟩ := roundHalfEven_close num hden
  rcases lt_trichotomy (roundHalfEven num den) k with hlt | heq | hgt
  · have := Nat.mul_le_mul_right den (Nat.succ_le_of_lt hlt)
    rw [Nat.succ_mul] at this
    omega
  · exact heq
  · have := Nat.mul_le_mul_right den (Nat.succ_le_of_lt hgt)
    rw [Nat.succ_mul] at this
    omega

section
variable {fmt : FloatFormat} {num den : ℕ}

/-- Below half the smallest positive number a conversion clamps up to it. -/
theorem clampOpen_of_lt_half_smallest (he : 2 ≤ fmt.eminAbs) (hp : 2 ≤ fmt.precision)
    (h : 2 * (num * 2 ^ (fmt.eminAbs + fmt.precision - 1)) < den) :
    clampOpen fmt (roundNearestEven fmt num den) = ⟨1, fmt.eminAbs + fmt.precision - 1⟩ := by
  have hsplit : fmt.eminAbs + fmt.precision - 1 = fmt.eminAbs + (fmt.precision - 1) := by omega
  have hsmall : num * 2 ^ fmt.eminAbs < den := by
    have hle : num * 2 ^ fmt.eminAbs ≤ num * 2 ^ (fmt.eminAbs + fmt.precision - 1) :=
      Nat.mul_le_mul_left _ (Nat.pow_le_pow_right (by decide) (by omega))
    omega
  have hlt : num < den := (Nat.le_mul_of_pos_right num (Nat.two_pow_pos _)).trans_lt hsmall
  obtain ⟨-, hle, -, hnormal⟩ := binade_spec fmt he hlt
  have hbinade : binade fmt num den = fmt.eminAbs := by
    rcases hnormal with hd | ⟨heq, -⟩
    · have := Nat.mul_le_mul_left num (Nat.pow_le_pow_right (show 0 < 2 by decide) hle)
      omega
    · exact heq
  have hsig : (roundNearestEven fmt num den).sig = 0 := by
    show roundHalfEven (num * 2 ^ (binade fmt num den + fmt.precision - 1)) den = 0
    rw [hbinade]
    exact roundHalfEven_eq_of_close (by omega) (by omega)
  exact if_pos hsig

/-- Within half a unit in the last place of 1 a conversion clamps down to the largest number below it. -/
theorem clampOpen_of_near_one (he : 2 ≤ fmt.eminAbs) (hlt : num < den)
    (h : 2 * (2 ^ fmt.precision * den) < 2 * (num * 2 ^ fmt.precision) + den) :
    clampOpen fmt (roundNearestEven fmt num den) = ⟨2 ^ fmt.precision - 1, fmt.precision⟩ := by
  have hpos : 0 < 2 ^ fmt.precision := Nat.two_pow_pos _
  have hhalf : den ≤ num * 2 ^ 1 := by
    by_contra hd
    have := Nat.mul_le_mul_left (2 ^ fmt.precision) (show 2 * num + 1 ≤ den by omega)
    have : den ≤ 2 ^ fmt.precision * den := Nat.le_mul_of_pos_left den hpos
    linarith
  have hbinade : binade fmt num den = 1 := binade_unique fmt (Nat.le_refl 1) (by omega) hhalf (by omega)
  have hscale : (roundNearestEven fmt num den).scale = fmt.precision := by
    show binade fmt num den + fmt.precision - 1 = _
    rw [hbinade, Nat.add_sub_cancel_left]
  have hsig : (roundNearestEven fmt num den).sig = 2 ^ fmt.precision := by
    show roundHalfEven (num * 2 ^ (binade fmt num den + fmt.precision - 1)) den = _
    rw [hbinade, Nat.add_sub_cancel_left]
    refine roundHalfEven_eq_of_close ?_ h
    have := Nat.mul_lt_mul_of_pos_right hlt hpos
    rw [Nat.mul_comm den] at this
    omega
  rw [clampOpen, if_neg (by omega), if_pos (by rw [hsig, hscale])]

end

/-- The conversion of a raw value that clamps up. -/
theorem toFloatBits_of_lt_half_smallest (dt : Dtype) {z : ℕ}
    (h : 2 * (max z 1 * 2 ^ ((floatFormat dt).eminAbs + (floatFormat dt).precision - 1)) < Config.m1) :
    toFloatBits (floatFormat dt) z =
      floatBits (floatFormat dt) ⟨1, (floatFormat dt).eminAbs + (floatFormat dt).precision - 1⟩ := by
  obtain ⟨hp, he, -⟩ := floatFormat_bounds dt
  rw [toFloatBits_eq, clampOpen_of_lt_half_smallest he hp h]

/-- The conversion of a raw value that clamps down. -/
theorem toFloatBits_of_near_one (dt : Dtype) {z : ℕ} (hz : 1 ≤ z) (hz' : z < Config.m1)
    (h : 2 * (2 ^ (floatFormat dt).precision * Config.m1) <
      2 * (z * 2 ^ (floatFormat dt).precision) + Config.m1) :
    toFloatBits (floatFormat dt) z =
      floatBits (floatFormat dt) ⟨2 ^ (floatFormat dt).precision - 1, (floatFormat dt).precision⟩ := by
  obtain ⟨-, he, -⟩ := floatFormat_bounds dt
  rw [toFloatBits_eq, max_eq_left hz, clampOpen_of_near_one he hz' h]

/-- Settles O28: the three single values by evaluation, the three ranges by the clamp that acts there. -/
theorem toFloatClampRanges : Obligations.ToFloatClampRanges := by
  unfold Obligations.ToFloatClampRanges
  refine ⟨by decide +kernel, by decide +kernel, by decide, fun z hlow hz => ?_, fun z hz => ?_, fun z hlow hz => ?_⟩
  · have hbits := toFloatBits_of_near_one .fp32 (show 1 ≤ z by omega) hz
      (by simp only [floatFormat, Config.m1]; omega)
    rw [toFloat, hbits]
    decide
  · have hbits := toFloatBits_of_lt_half_smallest .fp16 (z := z) (by simp only [floatFormat, Config.m1]; omega)
    rw [toFloat, hbits]
    decide
  · have hbits := toFloatBits_of_near_one .fp16 (show 1 ≤ z by omega) hz
      (by simp only [floatFormat, Config.m1]; omega)
    rw [toFloat, hbits]
    decide

/-! ## The default parameters -/

/-- In FP64 neither clamp acts: every raw value is far from 0 and from 1 for 53 bits of precision. -/
theorem clampOpen_fp64 {num : ℕ} (hpos : 1 ≤ num) (h : num < Config.m1) :
    clampOpen (floatFormat .fp64) (roundNearestEven (floatFormat .fp64) num Config.m1) =
      roundNearestEven (floatFormat .fp64) num Config.m1 := by
  obtain ⟨hp, he, -⟩ := floatFormat_bounds .fp64
  have hm : (0 : ℚ) < Config.m1 := Nat.cast_pos.mpr (by decide)
  rcases clampOpen_cases (floatFormat .fp64) (roundNearestEven (floatFormat .fp64) num Config.m1) with
    ⟨h0, -⟩ | ⟨-, h1, -⟩ | ⟨-, -, hc⟩
  · have hx := le_smallest_of_rounds_to_zero he hp h h0
    rw [FloatFormat.smallest, div_le_div_iff₀ hm (by positivity), one_mul] at hx
    have hnat : num * 2 ^ ((floatFormat .fp64).eminAbs + (floatFormat .fp64).precision - 1) ≤ Config.m1 := by
      exact_mod_cast hx
    have hbig : Config.m1 < 2 ^ ((floatFormat .fp64).eminAbs + (floatFormat .fp64).precision - 1) :=
      (show Config.m1 < 2 ^ 32 by decide).trans_le (Nat.pow_le_pow_right (by decide) (by decide))
    exact absurd (hnat.trans_lt hbig) (Nat.not_lt.mpr (Nat.le_mul_of_pos_left _ hpos))
  · have hx := largest_le_of_rounds_to_one he hp h h1
    rw [FloatFormat.largest, div_le_div_iff₀ (by positivity) hm] at hx
    have hnat : (2 ^ (floatFormat .fp64).precision - 1) * Config.m1 ≤ num * 2 ^ (floatFormat .fp64).precision := by
      exact_mod_cast hx
    simp only [floatFormat, Config.m1] at hnat h
    omega
  · exact hc

/-- Settles O60: the ranges by evaluation; of the conversion, P2 and P3 as for every format, and P4 as FP64 never
clamps, so that rounding is nearest among all finite numbers. -/
theorem defaultParametersAreAdmissible : Obligations.DefaultParametersAreAdmissible := by
  unfold Obligations.DefaultParametersAreAdmissible
  refine ⟨Config.params_admissible, by decide, ?_⟩
  refine ⟨fun dt _ z _ => elementDtype_toFloat dt z, fun dt _ z hz => toFloat_inOpenInterval dt hz,
    fun dt _ z z' _ hle hz' => elementValue_toFloat_mono dt hle hz', fun _ z hz bits _ _ => ?_⟩
  obtain ⟨hp, he, -⟩ := floatFormat_bounds .fp64
  show |elementValue (toFloat .fp64 z) - _| ≤ _
  rw [elementValue_toFloat .fp64 hz, clampOpen_fp64 (le_max_right z 1) (max_one_lt hz)]
  exact roundNearestEven_nearest he hp (max_one_lt hz) (patternValue_cases .fp64 bits)

/-- Settles O15: the default unit of `StateOkOf.step`. -/
theorem stepKeepsStateOk : Obligations.StepKeepsStateOk := by
  unfold Obligations.StepKeepsStateOk
  intro s t hs ht
  obtain ⟨hp, -, hconv⟩ := defaultParametersAreAdmissible
  exact hs.step hp hconv ((step_eq_stepOf s).symm.trans ht)

end Sys2Proof.Machine
